-- ==== Sys2Proof/Word.lean ====
section
/-!
DEFINITION. The word types of the machine: bytes, 64-bit registers and addresses, and the two floating-point
containers (spec 00_scope.md R7, 40_convert_element.md R51).
-/
namespace Sys2Proof

/-- One byte of memory or of an instruction. -/
abbrev Byte := BitVec 8

/-- A 64-bit general register, instruction pointer or linear address (R16, R17, R20). -/
abbrev Addr := BitVec 64

/-- The bits of a binary32 source element (R51). -/
abbrev Single := BitVec 32

/-- The bits of a binary16 result element (R51). -/
abbrev Half := BitVec 16

/-- The bits a vector register is held in. MAXVL of them exist (R10, `Config.maxvl`). -/
abbrev Zmm := BitVec 512

end Sys2Proof
end

