-- ==== Sys2Proof/Syntax.lean ====
section
/-!
DEFINITION. The instructions as data: one constructor per row of spec/opcode_table.json (30_encoding.md R42, rules R65 to
R75), over the operand forms of R36 to R39 and R44.
-/
namespace Sys2Proof

/-- A vector register number, `V[n]` (R10). -/
abbrev VReg := Fin 32

/-- A general register number, `G[n]` (R16). -/
abbrev GReg := Fin 16

/-- An opmask register number, `K[n]` (R12). -/
abbrev KReg := Fin 8

/-- The displacement bytes of a memory operand that has a base register, by `ModRM.mod` = 00B, 01B, 10B (R39). An
8-bit displacement is held as the byte stands in the instruction, before the scaling of R41. -/
inductive Disp where
  | absent
  | d8 (b : Byte)
  | d32 (d : BitVec 32)
deriving DecidableEq, Repr

/-- A memory destination, by the way it is encoded (R39). An index number of 4 means "no index". -/
inductive MemOperand where
  /-- no SIB byte: `[base + disp]` -/
  | based (base : GReg) (disp : Disp)
  /-- `mod` = 00B, `rm` = 101B: relative to the next instruction (R40) -/
  | ripRel (disp : BitVec 32)
  /-- SIB byte with a base: `[base + index * 2^scale + disp]` -/
  | sib (base : GReg) (index : GReg) (scale : BitVec 2) (disp : Disp)
  /-- SIB byte, `mod` = 00B, `SIB.base` = 101B: `[index * 2^scale + disp32]` -/
  | sibNoBase (index : GReg) (scale : BitVec 2) (disp : BitVec 32)
deriving DecidableEq, Repr

/-- The masking of an EVEX form (R44, R64). -/
inductive Masking where
  | unmasked
  | merging (k : KReg)
  | zeroing (k : KReg)
deriving DecidableEq, Repr

/-- One constructor per row of the opcode table; `dst` is ModRM:r/m, `src` is ModRM:reg, `imm` the immediate byte (R36). -/
inductive Instr where
  /-- `VCVTPS2PH xmm1, xmm2, imm8` (R65) -/
  | vex128Reg (dst src : VReg) (imm : Byte)
  /-- `VCVTPS2PH m64, xmm2, imm8` (R66) -/
  | vex128Mem (dst : MemOperand) (src : VReg) (imm : Byte)
  /-- `VCVTPS2PH xmm1, ymm2, imm8` (R67) -/
  | vex256Reg (dst src : VReg) (imm : Byte)
  /-- `VCVTPS2PH m128, ymm2, imm8` (R68) -/
  | vex256Mem (dst : MemOperand) (src : VReg) (imm : Byte)
  /-- `VCVTPS2PH xmm1 {k1}{z}, xmm2, imm8` (R69) -/
  | evex128Reg (dst : VReg) (mask : Masking) (src : VReg) (imm : Byte)
  /-- `VCVTPS2PH m64 {k1}, xmm2, imm8` (R70) -/
  | evex128Mem (dst : MemOperand) (mask : Masking) (src : VReg) (imm : Byte)
  /-- `VCVTPS2PH xmm1 {k1}{z}, ymm2, imm8` (R71) -/
  | evex256Reg (dst : VReg) (mask : Masking) (src : VReg) (imm : Byte)
  /-- `VCVTPS2PH m128 {k1}, ymm2, imm8` (R72) -/
  | evex256Mem (dst : MemOperand) (mask : Masking) (src : VReg) (imm : Byte)
  /-- `VCVTPS2PH ymm1 {k1}{z}, zmm2, imm8` (R73) -/
  | evex512Reg (dst : VReg) (mask : Masking) (src : VReg) (imm : Byte)
  /-- `VCVTPS2PH ymm1 {k1}{z}, zmm2 {sae}, imm8` (R74) -/
  | evex512RegSae (dst : VReg) (mask : Masking) (src : VReg) (imm : Byte)
  /-- `VCVTPS2PH m256 {k1}, zmm2, imm8` (R75) -/
  | evex512Mem (dst : MemOperand) (mask : Masking) (src : VReg) (imm : Byte)
deriving DecidableEq, Repr

end Sys2Proof
end

