-- ==== Sys2Proof/Decode.lean ====
section
/-!
DEFINITION. The decoder of 64-bit mode, total on any bytes and rejecting by name, and after it the encoder, both from
spec 30_encoding.md R32 to R46.
-/
namespace Sys2Proof

/-! ### The bytes of the encoding, field by field -/

/-- The ModRM byte (R36). -/
structure ModRM where
  mod : BitVec 2
  reg : BitVec 3
  rm : BitVec 3
deriving DecidableEq, Repr

/-- The SIB byte (R39). -/
structure Sib where
  scale : BitVec 2
  index : BitVec 3
  base : BitVec 3
deriving DecidableEq, Repr

/-- Byte 1 of the VEX prefix (R33); `notR` is the bit stored as `~R`. -/
structure VexP1 where
  notR : Bool
  notX : Bool
  notB : Bool
  mmmmm : BitVec 5
deriving DecidableEq, Repr

/-- Byte 2 of the VEX prefix (R33); `vvvv` is the field as stored. -/
structure VexP2 where
  w : Bool
  vvvv : BitVec 4
  l : Bool
  pp : BitVec 2
deriving DecidableEq, Repr

/-- Byte 1 of the EVEX prefix (R34). -/
structure EvexP0 where
  notR : Bool
  notX : Bool
  notB : Bool
  notR' : Bool
  reserved : Bool
  mmm : BitVec 3
deriving DecidableEq, Repr

/-- Byte 2 of the EVEX prefix (R34). -/
structure EvexP1 where
  w : Bool
  vvvv : BitVec 4
  fixed : Bool
  pp : BitVec 2
deriving DecidableEq, Repr

/-- Byte 3 of the EVEX prefix (R34). -/
structure EvexP2 where
  z : Bool
  ll : BitVec 2
  b : Bool
  notV' : Bool
  aaa : BitVec 3
deriving DecidableEq, Repr

/-- `mod` in bits 7:6, `reg` in bits 5:3, `rm` in bits 2:0 (R36). -/
def ModRM.ofByte (b : Byte) : ModRM := ⟨b.extractLsb' 6 2, b.extractLsb' 3 3, b.extractLsb' 0 3⟩

def ModRM.toByte (m : ModRM) : Byte := m.mod ++ m.reg ++ m.rm

/-- `scale` in bits 7:6, `index` in bits 5:3, `base` in bits 2:0 (R39). -/
def Sib.ofByte (b : Byte) : Sib := ⟨b.extractLsb' 6 2, b.extractLsb' 3 3, b.extractLsb' 0 3⟩

def Sib.toByte (s : Sib) : Byte := s.scale ++ s.index ++ s.base

/-- `~R ~X ~B` in bits 7, 6, 5 and `mmmmm` in bits 4:0 (R33). -/
def VexP1.ofByte (b : Byte) : VexP1 := ⟨b.getLsbD 7, b.getLsbD 6, b.getLsbD 5, b.extractLsb' 0 5⟩

def VexP1.toByte (p : VexP1) : Byte :=
  BitVec.ofBool p.notR ++ BitVec.ofBool p.notX ++ BitVec.ofBool p.notB ++ p.mmmmm

/-- `W` in bit 7, `vvvv` in bits 6:3, `L` in bit 2, `pp` in bits 1:0 (R33). -/
def VexP2.ofByte (b : Byte) : VexP2 := ⟨b.getLsbD 7, b.extractLsb' 3 4, b.getLsbD 2, b.extractLsb' 0 2⟩

def VexP2.toByte (p : VexP2) : Byte := BitVec.ofBool p.w ++ p.vvvv ++ BitVec.ofBool p.l ++ p.pp

/-- `~R ~X ~B ~R'` in bits 7 to 4, the reserved bit 3, `mmm` in bits 2:0 (R34). -/
def EvexP0.ofByte (b : Byte) : EvexP0 :=
  ⟨b.getLsbD 7, b.getLsbD 6, b.getLsbD 5, b.getLsbD 4, b.getLsbD 3, b.extractLsb' 0 3⟩

def EvexP0.toByte (p : EvexP0) : Byte :=
  BitVec.ofBool p.notR ++ BitVec.ofBool p.notX ++ BitVec.ofBool p.notB ++ BitVec.ofBool p.notR' ++
    BitVec.ofBool p.reserved ++ p.mmm

/-- `W` in bit 7, `vvvv` in bits 6:3, the fixed 1 in bit 2, `pp` in bits 1:0 (R34). -/
def EvexP1.ofByte (b : Byte) : EvexP1 := ⟨b.getLsbD 7, b.extractLsb' 3 4, b.getLsbD 2, b.extractLsb' 0 2⟩

def EvexP1.toByte (p : EvexP1) : Byte := BitVec.ofBool p.w ++ p.vvvv ++ BitVec.ofBool p.fixed ++ p.pp

/-- `z` in bit 7, `L'L` in bits 6:5, `b` in bit 4, `~V'` in bit 3, `aaa` in bits 2:0 (R34). -/
def EvexP2.ofByte (b : Byte) : EvexP2 :=
  ⟨b.getLsbD 7, b.extractLsb' 5 2, b.getLsbD 4, b.getLsbD 3, b.extractLsb' 0 3⟩

def EvexP2.toByte (p : EvexP2) : Byte :=
  BitVec.ofBool p.z ++ p.ll ++ BitVec.ofBool p.b ++ BitVec.ofBool p.notV' ++ p.aaa

/-! ### Register numbers (R37) -/

/-- `ext*8 + field`. -/
def gregOf (ext : Bool) (field : BitVec 3) : GReg := (BitVec.ofBool ext ++ field).toFin

/-- `ext4*16 + ext3*8 + field`. -/
def vregOf (ext4 ext3 : Bool) (field : BitVec 3) : VReg :=
  (BitVec.ofBool ext4 ++ BitVec.ofBool ext3 ++ field).toFin

/-! ### What a decoder can answer instead of an instruction -/

/-- Why an encoding of this opcode raises `#UD` (R43 to R46, R79 a, b, e, f). -/
inductive UdCause where
  | legacyPrefix     -- LOCK, 66H, F2H, F3H or REX before C4H or 62H (R46 b)
  | vexW             -- VEX.W = 1 (R43)
  | vvvv             -- stored vvvv is not 1111B (R43)
  | evexReservedBit  -- P0[3] = 1 (R46 a)
  | evexFixedBit     -- P1[2] = 0 (R46 a)
  | evexW            -- EVEX.W = 1 (R46 a)
  | evexVPrime       -- stored ~V' = 0 (R46 a)
  | zeroingUnmasked  -- z = 1 with aaa = 000B (R44)
  | zeroingMemory    -- z = 1 with a memory destination (R44)
  | reservedLength   -- L'L = 11B with b = 0 (R45)
  | broadcastMemory  -- b = 1 with a memory destination (R45)
deriving DecidableEq, Repr

/-- Why a byte sequence decodes to no instruction. -/
inductive DecodeError where
  | invalidOpcode (why : UdCause) -- the machine raises #UD
  | leftOutPrefix                 -- a segment override or 67H, refused by the spec (R46 c, D1)
  | notVcvtps2ph                  -- another instruction, refused by the spec (R46 e)
  | truncated                     -- the bytes end before the instruction does
deriving DecidableEq, Repr

/-- An instruction with the bytes after it, or why there is none. -/
abbrev Decoded := Except DecodeError (Instr × List Byte)

/-! ### Memory operands (R32, R39) -/

/-- A 32-bit displacement: the first byte is the least significant. -/
def takeDisp32 : List Byte → Option (BitVec 32 × List Byte)
  | b0 :: b1 :: b2 :: b3 :: rest => some (b3 ++ b2 ++ b1 ++ b0, rest)
  | _ => none

/-- The displacement that `mod` announces for an operand with a base register. -/
def takeDisp (mod : BitVec 2) (bs : List Byte) : Option (Disp × List Byte) :=
  if mod = 0 then some (.absent, bs)
  else if mod = 1 then
    match bs with
    | b :: rest => some (.d8 b, rest)
    | [] => none
  else (takeDisp32 bs).map fun (d, rest) => (.d32 d, rest)

/-- The memory operand of a ModRM byte with `mod` other than 11B, with `x` and `b` the complements of `~X` and `~B`. -/
def decodeMem (x b : Bool) (m : ModRM) (bs : List Byte) : Option (MemOperand × List Byte) :=
  if m.rm = 4 then
    match bs with
    | [] => none
    | sibByte :: bs =>
      let sib := Sib.ofByte sibByte
      let index := gregOf x sib.index
      if m.mod = 0 ∧ sib.base = 5 then
        (takeDisp32 bs).map fun (d, rest) => (.sibNoBase index sib.scale d, rest)
      else (takeDisp m.mod bs).map fun (d, rest) => (.sib (gregOf b sib.base) index sib.scale d, rest)
  else if m.mod = 0 ∧ m.rm = 5 then (takeDisp32 bs).map fun (d, rest) => (.ripRel d, rest)
  else (takeDisp m.mod bs).map fun (d, rest) => (.based (gregOf b m.rm) d, rest)

/-- A memory operand and the immediate byte after it. -/
def decodeMemImm (x b : Bool) (m : ModRM) (bs : List Byte) (mk : MemOperand → Byte → Instr) : Decoded :=
  match decodeMem x b m bs with
  | some (mem, imm :: rest) => .ok (mk mem imm, rest)
  | _ => .error .truncated

/-- The immediate byte of a register form. -/
def decodeRegImm (bs : List Byte) (mk : Byte → Instr) : Decoded :=
  match bs with
  | imm :: rest => .ok (mk imm, rest)
  | [] => .error .truncated

/-! ### The VEX format -/

/-- ModRM and what follows it, after a VEX prefix of this instruction (R36, R37: `X` is ignored for a register). -/
def decodeVexOperands (p1 : VexP1) (p2 : VexP2) : List Byte → Decoded
  | [] => .error .truncated
  | modrm :: bs =>
    let m := ModRM.ofByte modrm
    let src := vregOf false (!p1.notR) m.reg
    if m.mod = 3 then
      let dst := vregOf false (!p1.notB) m.rm
      decodeRegImm bs (if p2.l then .vex256Reg dst src else .vex128Reg dst src)
    else
      decodeMemImm (!p1.notX) (!p1.notB) m bs fun dst imm =>
        if p2.l then .vex256Mem dst src imm else .vex128Mem dst src imm

/-- The bytes after `C4H`; `illegal` and `leftOut` say which prefix bytes came before it. The opcode map, the implied
prefix and the opcode select the instruction (R35), then R43 and R46 b make it `#UD`, then R46 c refuses it. DESIGN CHOICE
(log entry 24): an encoding whose bytes already show that it is illegal is `#UD` even when its later bytes are missing. -/
def decodeVex (illegal leftOut : Bool) : List Byte → Decoded
  | b1 :: b2 :: opcode :: bs =>
    let p1 := VexP1.ofByte b1
    let p2 := VexP2.ofByte b2
    if ¬(p1.mmmmm = 3 ∧ p2.pp = 1 ∧ opcode = 0x1D) then .error .notVcvtps2ph
    else if illegal then .error (.invalidOpcode .legacyPrefix)
    else if p2.w then .error (.invalidOpcode .vexW)
    else if p2.vvvv ≠ 15 then .error (.invalidOpcode .vvvv)
    else if leftOut then .error .leftOutPrefix
    else decodeVexOperands p1 p2 bs
  | _ => .error .truncated

/-! ### The EVEX format -/

/-- R44: what `aaa` and a legal `z` say. -/
def maskingOf (z : Bool) (aaa : BitVec 3) : Masking :=
  if aaa = 0 then .unmasked else if z then .zeroing aaa.toFin else .merging aaa.toFin

/-- The register form that `b` and `L'L` select, or none for the reserved length (R45). -/
def evexRegForm (b : Bool) (ll : BitVec 2) : Option (VReg → Masking → VReg → Byte → Instr) :=
  if b then some .evex512RegSae
  else if ll = 0 then some .evex128Reg
  else if ll = 1 then some .evex256Reg
  else if ll = 2 then some .evex512Reg
  else none

/-- The memory form that `L'L` selects, or none for the reserved length (R45). -/
def evexMemForm (ll : BitVec 2) : Option (MemOperand → Masking → VReg → Byte → Instr) :=
  if ll = 0 then some .evex128Mem
  else if ll = 1 then some .evex256Mem
  else if ll = 2 then some .evex512Mem
  else none

/-- ModRM and what follows it, after an EVEX prefix of this instruction whose own bits are legal (R36, R37, R44, R45).
DESIGN CHOICE (log entry 24): illegal `z`, `b`, `L'L` are `#UD` even when the bytes after ModRM are missing. -/
def decodeEvexOperands (leftOut : Bool) (p0 : EvexP0) (p2 : EvexP2) : List Byte → Decoded
  | [] => .error .truncated
  | modrm :: bs =>
    let m := ModRM.ofByte modrm
    let src := vregOf (!p0.notR') (!p0.notR) m.reg
    if p2.z ∧ p2.aaa = 0 then .error (.invalidOpcode .zeroingUnmasked)
    else if m.mod = 3 then
      match evexRegForm p2.b p2.ll with
      | none => .error (.invalidOpcode .reservedLength)
      | some form =>
        if leftOut then .error .leftOutPrefix
        else
          decodeRegImm bs (form (vregOf (!p0.notX) (!p0.notB) m.rm) (maskingOf p2.z p2.aaa) src)
    else if p2.z then .error (.invalidOpcode .zeroingMemory)
    else if p2.b then .error (.invalidOpcode .broadcastMemory)
    else
      match evexMemForm p2.ll with
      | none => .error (.invalidOpcode .reservedLength)
      | some form =>
        if leftOut then .error .leftOutPrefix
        else
          decodeMemImm (!p0.notX) (!p0.notB) m bs fun dst imm =>
            form dst (maskingOf p2.z p2.aaa) src imm

/-- The bytes after `62H`, in the order of `decodeVex`, and with its choice for missing bytes (log entry 24). -/
def decodeEvex (illegal leftOut : Bool) : List Byte → Decoded
  | b0 :: b1 :: b2 :: opcode :: bs =>
    let p0 := EvexP0.ofByte b0
    let p1 := EvexP1.ofByte b1
    let p2 := EvexP2.ofByte b2
    if ¬(p0.mmm = 3 ∧ p1.pp = 1 ∧ opcode = 0x1D) then .error .notVcvtps2ph
    else if illegal then .error (.invalidOpcode .legacyPrefix)
    else if p0.reserved then .error (.invalidOpcode .evexReservedBit)
    else if !p1.fixed then .error (.invalidOpcode .evexFixedBit)
    else if p1.w then .error (.invalidOpcode .evexW)
    else if p1.vvvv ≠ 15 then .error (.invalidOpcode .vvvv)
    else if !p2.notV' then .error (.invalidOpcode .evexVPrime)
    else decodeEvexOperands leftOut p0 p2 bs
  | _ => .error .truncated

/-! ### Prefix bytes and the whole decoder -/

/-- A prefix byte that makes a VEX or EVEX instruction `#UD`: LOCK, 66H, F2H, F3H, REX (R46 b). -/
def isIllegalPrefix (b : Byte) : Bool :=
  b == 0xF0 || b == 0x66 || b == 0xF2 || b == 0xF3 || b.extractLsb' 4 4 == 4

/-- A prefix byte the spec leaves out: the segment overrides and the address-size prefix (R46 c). -/
def isLeftOutPrefix (b : Byte) : Bool :=
  b == 0x26 || b == 0x2E || b == 0x36 || b == 0x3E || b == 0x64 || b == 0x65 || b == 0x67

/-- Decoding after some prefix bytes, of which some were illegal or left out. DEDUCED (log entry 14): an illegal
prefix wins over a left-out one, whatever their order. -/
def decodeAfter (illegal leftOut : Bool) : List Byte → Decoded
  | [] => .error .truncated
  | b :: bs =>
    if isIllegalPrefix b then decodeAfter true leftOut bs
    else if isLeftOutPrefix b then decodeAfter illegal true bs
    else if b = 0xC4 then decodeVex illegal leftOut bs
    else if b = 0x62 then decodeEvex illegal leftOut bs
    else .error .notVcvtps2ph

/-- The instruction at the start of `bs` and the bytes after it (R32 to R46). -/
def decode (bs : List Byte) : Decoded := decodeAfter false false bs

/-! ### Length (R32) -/

/-- Bytes of a displacement. -/
def dispLength : Disp → Nat
  | .absent => 0
  | .d8 _ => 1
  | .d32 _ => 4

/-- Bytes that a memory operand adds to the register form: the SIB byte and the displacement. -/
def memLength : MemOperand → Nat
  | .based _ d => dispLength d
  | .ripRel _ => 4
  | .sib _ _ _ d => 1 + dispLength d
  | .sibNoBase _ _ _ => 5

/-- The length in bytes: prefix, opcode, ModRM, SIB, displacement, immediate (R32). -/
def instrLength : Instr → Nat
  | .vex128Reg _ _ _ => 6
  | .vex128Mem d _ _ => 6 + memLength d
  | .vex256Reg _ _ _ => 6
  | .vex256Mem d _ _ => 6 + memLength d
  | .evex128Reg _ _ _ _ => 7
  | .evex128Mem d _ _ _ => 7 + memLength d
  | .evex256Reg _ _ _ _ => 7
  | .evex256Mem d _ _ _ => 7 + memLength d
  | .evex512Reg _ _ _ _ => 7
  | .evex512RegSae _ _ _ _ => 7
  | .evex512Mem d _ _ _ => 7 + memLength d

/-! ### The encoder

It writes every ignored bit in one way: `~X` = 1 and `~B` = 1 where they select nothing, `L'L` = 00B with `{sae}` (R45).
DESIGN CHOICE (log entry 22). -/

/-- The low three bits of a register number. -/
def field3 (n : Nat) : BitVec 3 := BitVec.ofNat 3 n

/-- The `ModRM.mod` that announces a displacement after a base register. -/
def dispMod : Disp → BitVec 2
  | .absent => 0
  | .d8 _ => 1
  | .d32 _ => 2

/-- Least significant byte first. -/
def disp32Bytes (d : BitVec 32) : List Byte :=
  [d.extractLsb' 0 8, d.extractLsb' 8 8, d.extractLsb' 16 8, d.extractLsb' 24 8]

def dispBytes : Disp → List Byte
  | .absent => []
  | .d8 b => [b]
  | .d32 d => disp32Bytes d

/-- `X`, bit 3 of the index number. -/
def memX : MemOperand → Bool
  | .based _ _ => false
  | .ripRel _ => false
  | .sib _ i _ _ => i.val.testBit 3
  | .sibNoBase i _ _ => i.val.testBit 3

/-- `B`, bit 3 of the base number. -/
def memB : MemOperand → Bool
  | .based b _ => b.val.testBit 3
  | .ripRel _ => false
  | .sib b _ _ _ => b.val.testBit 3
  | .sibNoBase _ _ _ => false

/-- ModRM, SIB and displacement of a memory operand, with `reg` the source field (R39). -/
def memBytes (reg : BitVec 3) : MemOperand → List Byte
  | .based b d => ModRM.toByte ⟨dispMod d, reg, field3 b.val⟩ :: dispBytes d
  | .ripRel d => ModRM.toByte ⟨0, reg, 5⟩ :: disp32Bytes d
  | .sib b i s d =>
    ModRM.toByte ⟨dispMod d, reg, 4⟩ :: Sib.toByte ⟨s, field3 i.val, field3 b.val⟩ :: dispBytes d
  | .sibNoBase i s d => ModRM.toByte ⟨0, reg, 4⟩ :: Sib.toByte ⟨s, field3 i.val, 5⟩ :: disp32Bytes d

/-- `C4H`, the two VEX bytes and the opcode (R33). -/
def vexHead (src : VReg) (x b l : Bool) : List Byte :=
  [0xC4, VexP1.toByte ⟨!src.val.testBit 3, !x, !b, 3⟩, VexP2.toByte ⟨false, 15, l, 1⟩, 0x1D]

def maskZ : Masking → Bool
  | .zeroing _ => true
  | .merging _ => false
  | .unmasked => false

def maskAaa : Masking → BitVec 3
  | .zeroing k => field3 k.val
  | .merging k => field3 k.val
  | .unmasked => 0

/-- `62H`, the three EVEX bytes and the opcode (R34). -/
def evexHead (src : VReg) (x b : Bool) (ll : BitVec 2) (bBit : Bool) (m : Masking) : List Byte :=
  [0x62, EvexP0.toByte ⟨!src.val.testBit 3, !x, !b, !src.val.testBit 4, false, 3⟩,
    EvexP1.toByte ⟨false, 15, true, 1⟩, EvexP2.toByte ⟨maskZ m, ll, bBit, true, maskAaa m⟩, 0x1D]

/-- A VEX instruction with a register destination: `X` selects nothing. -/
def encodeVexReg (l : Bool) (dst src : VReg) (imm : Byte) : List Byte :=
  vexHead src false (dst.val.testBit 3) l ++ [ModRM.toByte ⟨3, field3 src.val, field3 dst.val⟩, imm]

def encodeVexMem (l : Bool) (dst : MemOperand) (src : VReg) (imm : Byte) : List Byte :=
  vexHead src (memX dst) (memB dst) l ++ memBytes (field3 src.val) dst ++ [imm]

/-- An EVEX instruction with a register destination: `X` is bit 4 of its number (R37). -/
def encodeEvexReg (ll : BitVec 2) (bBit : Bool) (dst : VReg) (m : Masking) (src : VReg) (imm : Byte) : List Byte :=
  evexHead src (dst.val.testBit 4) (dst.val.testBit 3) ll bBit m ++
    [ModRM.toByte ⟨3, field3 src.val, field3 dst.val⟩, imm]

def encodeEvexMem (ll : BitVec 2) (dst : MemOperand) (m : Masking) (src : VReg) (imm : Byte) : List Byte :=
  evexHead src (memX dst) (memB dst) ll false m ++ memBytes (field3 src.val) dst ++ [imm]

/-- The bytes of a well-formed instruction, first byte first (R32). -/
def encode : Instr → List Byte
  | .vex128Reg d s imm => encodeVexReg false d s imm
  | .vex128Mem d s imm => encodeVexMem false d s imm
  | .vex256Reg d s imm => encodeVexReg true d s imm
  | .vex256Mem d s imm => encodeVexMem true d s imm
  | .evex128Reg d m s imm => encodeEvexReg 0 false d m s imm
  | .evex128Mem d m s imm => encodeEvexMem 0 d m s imm
  | .evex256Reg d m s imm => encodeEvexReg 1 false d m s imm
  | .evex256Mem d m s imm => encodeEvexMem 1 d m s imm
  | .evex512Reg d m s imm => encodeEvexReg 2 false d m s imm
  | .evex512RegSae d m s imm => encodeEvexReg 0 true d m s imm
  | .evex512Mem d m s imm => encodeEvexMem 2 d m s imm

/-! ### The opcode table's numbering -/

/-- `n` bytes of a number, least significant byte first. -/
def bytesOfNat : Nat → Nat → List Byte
  | 0, _ => []
  | n + 1, w => BitVec.ofNat 8 w :: bytesOfNat n (w / 256)

/-- The longest instruction of the table has 12 bytes (R32). -/
def longestInstr : Nat := 12

/-- The bytes of a table word: bit 0 is the least significant bit of the first byte; the bits above `nbits` are 0. -/
def tableBytes (nbits w : Nat) : List Byte := bytesOfNat longestInstr (w % 2 ^ nbits)

/-- The instruction the decoder reads from a table word. -/
def decodeTableWord (nbits w : Nat) : Option Instr :=
  match decode (tableBytes nbits w) with
  | .ok (i, _) => some i
  | .error _ => none

end Sys2Proof
end

