-- ==== Sys2Proof/Config.lean ====
section
/-!
DEFINITION. What an implementation or a launch fixes (spec 00_scope.md R6, 10_state.md R19, 20_memory.md R26), as one
record of plain data that State holds and no instruction changes, and the free values of the spec.
-/
namespace Sys2Proof

/-- The width of an opmask register: 16 with AVX512F alone, 64 with AVX512BW (R6 `KW`, R12). -/
inductive OpmaskWidth where
  | w16
  | w64
deriving DecidableEq, Repr

/-- Bits of an opmask register that exist. -/
def OpmaskWidth.bits : OpmaskWidth → Nat
  | .w16 => 16
  | .w64 => 64

/-- Implemented linear-address bits (R6 `CANON_BITS`). -/
inductive CanonBits where
  | b48
  | b57
deriving DecidableEq, Repr

/-- `CANON_BITS` as a number. -/
def CanonBits.bits : CanonBits → Nat
  | .b48 => 48
  | .b57 => 57

/-- What a region of the launch memory holds (R26, R30). -/
inductive RegionKind where
  | data         -- ordinary idempotent memory, admitted for writing
  | programText  -- fetched from, never admitted for writing
deriving DecidableEq, Repr

/-- One region of the launch memory: the byte addresses `base` up to but not including `base + size`. -/
structure Region where
  base : Nat
  size : Nat
  kind : RegionKind
deriving DecidableEq, Repr

/-! ### The configuration function `cvt` (R6, R52) -/

/-- A rounding control, of the immediate or of MXCSR. -/
inductive Rounding where
  | nearest  -- 00B: to nearest, ties to even
  | down     -- 01B: toward minus infinity
  | up       -- 10B: toward plus infinity
  | truncate -- 11B: toward zero
deriving DecidableEq, Repr

/-- The raw conditions of one element's conversion, a subset of I, D, O, T, X (R52). -/
structure Conds where
  invalid : Bool
  denormal : Bool
  overflow : Bool
  tiny : Bool
  inexact : Bool
deriving DecidableEq, Repr, Inhabited

/-- No condition. -/
def Conds.quiet : Conds := ⟨false, false, false, false, false⟩

/-- What `cvt` returns: the result that is delivered when every exception that occurs is masked, and the raw
conditions (R52). -/
structure Converted where
  half : Half
  conds : Conds
deriving DecidableEq, Repr, Inhabited

/-- The type of the configuration function `cvt`: it depends on nothing but these three arguments (R6, R52). -/
abbrev Cvt := Single → Rounding → Bool → Converted

/-- Which function `cvt` is: the default body of R53 to R60, or the `n`-th of the functions of which nothing is known
(D13, U5, log entry 12). -/
inductive CvtChoice where
  | standard
  | other (n : Nat)
deriving DecidableEq, Repr

/-! ### The record -/

/-- The configuration record of R6. `cvt` is a function and so stands in the record as plain data that selects it. `MAXVL` and `NVEC` are `Config.maxvl` and `Config.nvec`: R6 makes them functions of the feature flags. -/
structure Config where
  hasF16C : Bool
  hasAvx512F : Bool
  hasAvx512VL : Bool
  hasAvx10_1 : Bool
  osAvxEnabled : Bool
  osAvx512Enabled : Bool
  cr0TS : Bool
  osXmmExcpt : Bool
  maskFaultSuppression : Bool
  kw : OpmaskWidth
  canonBits : CanonBits
  cvt : CvtChoice
  regions : List Region
deriving DecidableEq, Repr

/-- Some EVEX feature flag is true. -/
def Config.hasEvex (c : Config) : Bool := c.hasAvx512F || c.hasAvx512VL || c.hasAvx10_1

/-- `MAXVL`: 512 when any of the EVEX feature flags is true, otherwise 256 (R6, D2). -/
def Config.maxvl (c : Config) : Nat := if c.hasEvex then 512 else 256

/-- `NVEC`: 32 when any EVEX feature flag is true, else 16 (R6, D4). -/
def Config.nvec (c : Config) : Nat := if c.hasEvex then 32 else 16

/-- The configuration of 95_test_vectors.md ("Unless a vector says otherwise the configuration is"), over a launch
memory that admits every address for writing. DESIGN CHOICE (log entries 2 and 5, unsafe). -/
def Config.launch : Config where
  hasF16C := true
  hasAvx512F := true
  hasAvx512VL := true
  hasAvx10_1 := true
  osAvxEnabled := true
  osAvx512Enabled := true
  cr0TS := false
  osXmmExcpt := true
  maskFaultSuppression := true
  kw := .w64
  canonBits := .b48
  cvt := .standard
  regions := [⟨0, 2 ^ 64, .data⟩]

/-- FREE VALUE (93_implementation_defined.md U7, log entry 10): the flag bits a raised SIMD floating-point exception may
leave set beyond those of R82, drawn by the counter `State.draws`. Nothing constrains it. -/
opaque Config.freeSimdFlags : Nat → BitVec 32

/-- FREE VALUE (R78 names a "fault code" and gives no value, log entry 11): the error code of a `#PF`, drawn by the
counter `State.draws`. Nothing constrains it. -/
opaque Config.pageFaultCode : Nat → BitVec 32

/-- FREE VALUE (R6 `cvt`, D13 "keep `cvt` abstract", log entry 12): the element conversions other than the default body.
Nothing constrains them, so a statement that holds of each of them holds of every function `cvt`. -/
opaque Config.otherCvt : Nat → Cvt

end Sys2Proof
end

