-- ==== Sys2Proof/Machine/State.lean ====
section
/-!
DEFINITION. The state of the machine as plain data (spec 10_state.md R10 to R21), its value right after reset
(70_reset_and_hazards.md R93), and the reasons a step stops (60_exceptions.md R78, R85; 30_encoding.md R46).
-/
namespace Sys2Proof.Machine

/-- The bytes of the one linear address space that hold a value, by rising address (R20). An address that is not
listed holds no value: DESIGN CHOICE, safe (log entry 7). -/
abbrev Memory := List Host.Cell

/-- The canonical form of a memory: addresses strictly rising, each a 64-bit address. -/
abbrev Memory.wf (m : Memory) : Prop :=
  m.Pairwise (fun x y => x.1 < y.1) ∧ ∀ c ∈ m, c.1 < 2 ^ 64

/-- Everything the spec gives the machine. -/
structure State where
  /-- Vector registers `V[n]`; of the 512 bits `cfg.maxvl` exist and of the 32 registers `cfg.nvec` (R10). -/
  v : Vector Zmm 32
  /-- Opmask registers `K[n]`; of the 64 bits `cfg.kw.bits` exist (R12). -/
  k : Vector (BitVec 64) 8
  /-- SIMD floating-point control and status (R13). -/
  mxcsr : BitVec 32
  /-- General registers `G[n]` (R16). -/
  g : Vector Addr 16
  /-- Instruction pointer (R17). -/
  rip : Addr
  /-- Never read and never written (R18). -/
  eflags : BitVec 32
  /-- Memory (R20, R22). -/
  mem : Memory
  /-- The configuration record, constant during a run (R6, R19). -/
  cfg : Config
  /-- The model's own: how many free values have been drawn (log entry 10). -/
  draws : Nat
deriving DecidableEq, Repr

/-- The machine right after reset (R93), in 64-bit mode under the launch configuration (log entries 2 to 7). -/
def State.reset : State where
  v := Vector.replicate 32 0
  k := Vector.replicate 8 0
  mxcsr := 0x00001F80
  g := Vector.replicate 16 0
  rip := 0x00000000FFFFFFF0
  eflags := 0x00000002
  mem := []
  cfg := Config.launch
  draws := 0

/-- The exceptions of R78 that can occur. `#AC` never does (R23, R81). -/
inductive Exception where
  | ud
  | nm
  | ss
  | gp
  | pf (address : Addr)
  | xm
deriving DecidableEq, Repr

/-- The fault outcomes. An exception is a terminal outcome (R85, D20): the fault carries what the spec says it does, the
error code, the address and the state the instruction leaves, `after`. Stopping where the architecture would
enter a handler is safe: programs that handle exceptions have no meaning here (R86). All are raised through
`takeException` of Machine/Ops.lean. -/
inductive Fault where
  /-- `#UD`, vector 6: illegal encoding (`decodeFailure`), feature or OS enabling absent (every meaning), or an unmasked
  SIMD floating-point condition while `OSXMMEXCPT` is false (`takeSimdException`). Safe. -/
  | ud (after : State)
  /-- `#NM`, vector 7: `CR0_TS` is set (every meaning). Safe. -/
  | nm (after : State)
  /-- `#SS(0)`, vector 12: a byte to be written is not canonical and the base is RSP or RBP (memory forms). Safe. -/
  | ss (errorCode : BitVec 32) (after : State)
  /-- `#GP(0)`, vector 13: a byte to be written is not canonical otherwise, or the range wraps (memory forms). Safe. -/
  | gp (errorCode : BitVec 32) (after : State)
  /-- `#PF`, vector 14: a byte to be written is not admitted; `address` is the first such byte (memory forms). The
  error code is a free value. Safe. -/
  | pf (errorCode : BitVec 32) (address : Addr) (after : State)
  /-- `#XM`, vector 19: an unmasked SIMD floating-point condition (every meaning but the `{sae}` one). `after` has the
  MXCSR flags set, with a free value above them. Safe. -/
  | xm (after : State)
deriving DecidableEq, Repr

/-- The refusals: what the spec gives no meaning. -/
inductive Refusal where
  /-- An arm of `exec` without a meaning. None is left. Safe. -/
  | notModelled (mnemonic : String)
  /-- A segment override or 67H before the VEX or EVEX prefix: left out by the spec (R46 c, D1). Raised by
  `decodeFailure`. Safe. -/
  | leftOutPrefix
  /-- The bytes at RIP are another instruction or none: outside the spec (R46 e). Raised by `decodeFailure`. Safe. -/
  | notVcvtps2ph
  /-- The instruction's bytes leave the program text, are not canonical, wrap past 2^64, or run past the fetch window
  (R17, R26, D5, log entries 15 and 16). Raised by `decodeFailure`. Safe. -/
  | fetchNotAdmitted
deriving DecidableEq, Repr

/-- The outcome of a step or of an instruction. -/
abbrev Result := Host.Outcome State Fault Refusal

end Sys2Proof.Machine
end

