-- ==== Sys2Proof/Machine/Flags.lean ====
section
/-!
DEFINITION. MXCSR and the SIMD floating-point flags: the fields of 10_state.md R13, the rounding control of R15 and
40_convert_element.md R50, and the two-phase flag procedure of 60_exceptions.md R82.
-/
namespace Sys2Proof.Machine

/-! ### Fields of MXCSR (R13) -/

/-- `DAZ`, bit 6. -/
def mxcsrDaz (m : BitVec 32) : Bool := m.getLsbD 6

/-- `IM`, bit 7: 1 = masked. -/
def mxcsrIm (m : BitVec 32) : Bool := m.getLsbD 7

/-- `DM`, bit 8. -/
def mxcsrDm (m : BitVec 32) : Bool := m.getLsbD 8

/-- `OM`, bit 10. -/
def mxcsrOm (m : BitVec 32) : Bool := m.getLsbD 10

/-- `UM`, bit 11. -/
def mxcsrUm (m : BitVec 32) : Bool := m.getLsbD 11

/-- `PM`, bit 12. -/
def mxcsrPm (m : BitVec 32) : Bool := m.getLsbD 12

/-- `RC`, bits 14:13. -/
def mxcsrRc (m : BitVec 32) : BitVec 2 := m.extractLsb' 13 2

/-- The flag bits `IE` (0), `DE` (1), `OE` (3), `UE` (4), `PE` (5) to be set. -/
def flagBits (ie de oe ue pe : Bool) : BitVec 32 :=
  (BitVec.ofBool pe ++ BitVec.ofBool ue ++ BitVec.ofBool oe ++ 0#1 ++ BitVec.ofBool de ++ BitVec.ofBool ie).setWidth 32

/-- The five flags that VCVTPS2PH can set (R14): 3BH. -/
def fiveFlags : BitVec 32 := flagBits true true true true true

/-! ### Rounding control (R15, R50) -/

/-- The four codes of Table 5-3. -/
def roundingOf (rc : BitVec 2) : Rounding :=
  if rc = 0 then .nearest else if rc = 1 then .down else if rc = 2 then .up else .truncate

/-- The effective rounding control: `Imm[1:0]` when `Imm[2]` = 0, `MXCSR.RC` when `Imm[2]` = 1 (R50). -/
def effectiveRounding (imm : Byte) (mxcsr : BitVec 32) : Rounding :=
  roundingOf (if imm.getLsbD 2 then mxcsrRc mxcsr else imm.extractLsb' 0 2)

/-! ### From the conditions of elements to flags (R82) -/

/-- What R82 decides: the flags to set, and whether an unmasked exception results. -/
structure FpReport where
  flags : BitVec 32
  raises : Bool
deriving DecidableEq, Repr

/-- The report of an instruction with `{sae}`, which skips R82 (R74). -/
def FpReport.suppressed : FpReport := ⟨0, false⟩

/-- Underflow of one element: a masked one needs tiny and inexact, an unmasked one tiny only (R82). -/
def elementUe (mxcsr : BitVec 32) (c : Conds) : Bool := c.tiny && (c.inexact || !mxcsrUm mxcsr)

/-- Precision of one element: inexact, or a masked overflow (R82). -/
def elementPe (mxcsr : BitVec 32) (c : Conds) : Bool := c.inexact || (c.overflow && mxcsrOm mxcsr)

/-- Phase 1 of R82: the pre-computation conditions I and D. -/
def preReport (mxcsr : BitVec 32) (cs : List Conds) : FpReport :=
  let ie := cs.any (·.invalid)
  let de := cs.any (·.denormal)
  ⟨flagBits ie de false false false, (ie && !mxcsrIm mxcsr) || (de && !mxcsrDm mxcsr)⟩

/-- Phase 2 of R82: the post-computation conditions O, T, X. -/
def postReport (mxcsr : BitVec 32) (cs : List Conds) : FpReport :=
  let oe := cs.any (·.overflow)
  let ue := cs.any (elementUe mxcsr)
  let pe := cs.any (elementPe mxcsr)
  ⟨flagBits false false oe ue pe,
    (oe && !mxcsrOm mxcsr) || (cs.any (·.tiny) && !mxcsrUm mxcsr) || (pe && !mxcsrPm mxcsr)⟩

/-- R82: phase 2 is performed only when phase 1 does not raise. `cs` holds the conditions of the enabled elements. -/
def simdReport (mxcsr : BitVec 32) (cs : List Conds) : FpReport :=
  let pre := preReport mxcsr cs
  if pre.raises then pre
  else
    let post := postReport mxcsr cs
    ⟨pre.flags ||| post.flags, post.raises⟩

end Sys2Proof.Machine
end

