-- ==== Sys2Proof/Machine/Convert.lean ====
section
/-!
DEFINITION. The conversion of one element, `cvt(x, rc, daz)`: the default body, 40_convert_element.md R51 to R60, and
the configuration function of 00_scope.md R6 that the machine uses.
-/
namespace Sys2Proof.Machine

/-! ### Fields of a binary32 (R51) -/

/-- `x[31]`. -/
def singleSign (x : Single) : Bool := x.getLsbD 31

/-- `x[30:23]`. -/
def singleExp (x : Single) : Nat := (x.extractLsb' 23 8).toNat

/-- `x[22:0]`. -/
def singleFrac (x : Single) : BitVec 23 := x.extractLsb' 0 23

/-- A binary16 from its sign and its 15 lower bits. -/
def halfOfSign (s : Bool) (rest : BitVec 15) : Half := BitVec.ofBool s ++ rest

/-! ### Rounding (R56)

Magnitudes are natural numbers in units of 2^-159, so that every value and every rounding unit of R56 and R57 is a
whole number of units: 2^-14 is 2^145, the half-precision denormal grid 2^-24 is 2^135, and 2^16 is 2^175. -/

/-- Whether a magnitude strictly between `lo` and `lo + u` goes up, `lo = v / u * u` (R56). -/
def roundsUp (v u : Nat) (rc : Rounding) (s : Bool) : Bool :=
  match rc with
  | .nearest => decide (2 * (v % u) > u) || (decide (2 * (v % u) = u) && decide (v / u % 2 = 1))
  | .down => s
  | .up => !s
  | .truncate => false

/-- `round(v, u, rc, s)` of R56 as the number of grid steps `u`, and whether it is inexact. -/
def roundTo (v u : Nat) (rc : Rounding) (s : Bool) : Nat × Bool :=
  if v % u = 0 then (v / u, false)
  else (v / u + (if roundsUp v u rc s then 1 else 0), true)

/-- The exponent `E = floor(log2 v)` of R56 counted from 2^-159. -/
def magExp (v : Nat) : Nat := v.log2

/-- The masked-overflow result (R58). -/
def overflowHalf (rc : Rounding) (s : Bool) : Half :=
  match rc, s with
  | .nearest, false => 0x7C00
  | .nearest, true => 0xFC00
  | .down, false => 0x7BFF
  | .down, true => 0xFC00
  | .up, false => 0x7C00
  | .up, true => 0xFBFF
  | .truncate, false => 0x7BFF
  | .truncate, true => 0xFBFF

/-- R56 to R59 for a magnitude `v` other than 0; `d` says that the source is a denormal (R53). -/
def convertFinite (s : Bool) (v : Nat) (rc : Rounding) (d : Bool) : Converted :=
  -- step 1: round to 11 significant bits with unbounded exponent, in steps of `u = 2^(E-10)`
  let e := magExp v
  let u := 2 ^ (e - 10)
  let (q, inexact) := roundTo v u rc s
  let r := q * u
  if 2 ^ 175 ≤ r then
    -- step 2: overflow (R58)
    ⟨overflowHalf rc s, ⟨false, d, true, false, inexact⟩⟩
  else if r < 2 ^ 145 then
    -- step 3: tiny, rounded again from the exact value onto the denormal grid (R57)
    let (n, inexactD) := roundTo v (2 ^ 135) rc s
    ⟨halfOfSign s (BitVec.ofNat 15 n), ⟨false, d, false, true, inexactD⟩⟩
  else
    -- step 4: normal (R59); `q = 2^11` is a carry out of the significand
    let e' := if q = 2 ^ 11 then e + 1 else e
    let n := r / 2 ^ (e' - 10) - 1024
    ⟨halfOfSign s (BitVec.ofNat 5 (e' - 144) ++ BitVec.ofNat 10 n), ⟨false, d, false, false, inexact⟩⟩

/-- The default body of `cvt` (R53 to R60, D13, log entry 12). -/
def cvtDefault : Cvt := fun x rc daz =>
  let s := singleSign x
  let e := singleExp x
  let f := singleFrac x
  if e = 255 then
    if f = 0 then ⟨halfOfSign s 0x7C00, .quiet⟩  -- infinity (R55)
    else
      -- NaN (R54): the quiet bit set, the next nine payload bits kept
      ⟨halfOfSign s (0x1F#5 ++ 1#1 ++ f.extractLsb' 13 9), ⟨!f.getLsbD 22, false, false, false, false⟩⟩
  else if e = 0 then
    if f = 0 then ⟨halfOfSign s 0, .quiet⟩  -- zero (R55)
    else if daz then ⟨halfOfSign s 0, .quiet⟩  -- a denormal as a zero (R53)
    else convertFinite s (f.toNat * 2 ^ 10) rc true
  else convertFinite s ((2 ^ 23 + f.toNat) * 2 ^ (e + 9)) rc false

/-- The configuration function `cvt` of R6 (D13, U5): the default body, or a function of which nothing is known. -/
def cvtOf (c : Config) : Cvt :=
  match c.cvt with
  | .standard => cvtDefault
  | .other n => Config.otherCvt n

end Sys2Proof.Machine
end

