-- ==== Sys2Proof/Machine/Operands.lean ====
section
/-!
DEFINITION. The operands: which forms are available (60_exceptions.md R79), the elements of a vector register
(41_vcvtps2ph_forms.md R63), the writemask (R64), the effective address (30_encoding.md R39 to R41) and the bytes a
memory form accesses (20_memory.md R31).
-/
namespace Sys2Proof.Machine

/-! ### Feature and OS-enable predicates (R2, R79 c and d) -/

/-- The VEX forms. -/
def vexAvailable (c : Config) : Bool := c.hasF16C && c.osAvxEnabled

/-- The EVEX.128 and EVEX.256 forms. -/
def evexVlAvailable (c : Config) : Bool :=
  ((c.hasAvx512VL && c.hasAvx512F) || c.hasAvx10_1) && c.osAvx512Enabled

/-- The EVEX.512 forms. -/
def evex512Available (c : Config) : Bool := (c.hasAvx512F || c.hasAvx10_1) && c.osAvx512Enabled

/-! ### Elements of a vector register (R63) -/

/-- Source element `j`, bits `32j+31:32j`. -/
def singleAt (v : Zmm) (j : Nat) : Single := v.extractLsb' (32 * j) 32

/-- Destination element `j`, bits `16j+15:16j`. -/
def halfAt (v : Zmm) (j : Nat) : Half := v.extractLsb' (16 * j) 16

/-- Halves packed contiguously from bit 0, zero above them. -/
def packHalves : List Half → Zmm
  | [] => 0
  | h :: t => (packHalves t <<< 16) ||| h.setWidth 512

/-! ### Writemask (R44, R64) -/

/-- `en[j]`: element `j` is enabled. -/
def enabled (s : State) (m : Masking) (j : Nat) : Bool :=
  match m with
  | .unmasked => true
  | .merging k => s.k[k].getLsbD j
  | .zeroing k => s.k[k].getLsbD j

/-- `en[0]` to `en[kl-1]`. -/
def enables (s : State) (m : Masking) (kl : Nat) : List Bool := (List.range kl).map (enabled s m)

/-- What a disabled element of a register destination becomes: zero under zeroing-masking, else its old bits (R64). -/
def disabledHalf (m : Masking) (old : Zmm) (j : Nat) : Half :=
  match m with
  | .zeroing _ => 0
  | .merging _ => halfAt old j
  | .unmasked => halfAt old j

/-- The conversions of the `kl` elements of `src`; none for a disabled one, which is not converted (R62 step 5, R64). -/
def conversions (s : State) (kl : Nat) (m : Masking) (src : VReg) (imm : Byte) : List (Option Converted) :=
  (List.range kl).map fun j =>
    if enabled s m j then
      some (cvtOf s.cfg (singleAt s.v[src] j) (effectiveRounding imm s.mxcsr) (mxcsrDaz s.mxcsr))
    else none

/-- The conditions of the enabled elements, `C` of R82. -/
def conditions (rs : List (Option Converted)) : List Conds := rs.filterMap fun r => r.map (·.conds)

/-- The elements a register destination receives from element `j` on (R64). -/
def destHalves (m : Masking) (old : Zmm) : Nat → List (Option Converted) → List Half
  | _, [] => []
  | j, some r :: rs => r.half :: destHalves m old (j + 1) rs
  | j, none :: rs => disabledHalf m old j :: destHalves m old (j + 1) rs

/-! ### Effective address (R39, R40, R41) -/

/-- `DISP`: an 8-bit displacement is scaled by `n`, a 32-bit one never. -/
def dispValue (n : Nat) : Disp → Addr
  | .absent => 0
  | .d8 b => b.signExtend 64 * BitVec.ofNat 64 n
  | .d32 d => d.signExtend 64

/-- `INDEX`: number 4 means no index. -/
def indexValue (s : State) (i : GReg) (scale : BitVec 2) : Addr :=
  if i = 4 then 0 else s.g[i] * BitVec.ofNat 64 (2 ^ scale.toNat)

/-- The effective address, which is the linear address `A` (R27): `n` is the 8-bit displacement scale, `len` the
length of the instruction. -/
def effectiveAddress (s : State) (n len : Nat) : MemOperand → Addr
  | .based b d => s.g[b] + dispValue n d
  | .ripRel d => s.rip + BitVec.ofNat 64 len + d.signExtend 64
  | .sib b i scale d => s.g[b] + indexValue s i scale + dispValue n d
  | .sibNoBase i scale d => indexValue s i scale + d.signExtend 64

/-- The default segment is the stack segment: the base is RSP or RBP (R39, R27). -/
def stackBased : MemOperand → Bool
  | .based b _ => b == 4 || b == 5
  | .ripRel _ => false
  | .sib b _ _ _ => b == 4 || b == 5
  | .sibNoBase _ _ _ => false

/-- The byte addresses to be checked for a destination at `a` (R31): two per element from address `a` on, all of them,
or with fault suppression those of the enabled elements. Exact numbers, so that a range past 2^64 is seen. -/
def checkedBytes (suppress : Bool) : Nat → List Bool → List Nat
  | _, [] => []
  | a, en :: ens =>
    if en || !suppress then a :: (a + 1) :: checkedBytes suppress (a + 2) ens
    else checkedBytes suppress (a + 2) ens

end Sys2Proof.Machine
end

