-- ==== Sys2Proof/Machine/Ops.lean ====
section
/-!
DEFINITION. The operations over memory and registers, the admission of accesses (20_memory.md R26, R27, R30, R31),
fetching, taking an exception (60_exceptions.md R81 to R85), and the two shared operations of every form
(41_vcvtps2ph_forms.md R62).
-/
namespace Sys2Proof.Machine

/-! ### Memory (R20, R22) -/

/-- The byte at an address, if it holds a value. -/
def Memory.read (m : Memory) (a : Nat) : Option Byte :=
  match m with
  | [] => none
  | c :: t => if c.1 = a then some c.2 else Memory.read t a

/-- Write one byte, keeping the addresses rising. -/
def Memory.write (m : Memory) (a : Nat) (b : Byte) : Memory :=
  match m with
  | [] => [(a, b)]
  | c :: t =>
    if a < c.1 then (a, b) :: c :: t
    else if c.1 = a then (a, b) :: t
    else c :: Memory.write t a b

/-- Write a 16-bit element, low byte at `a` and high byte at `a + 1` (R22). -/
def Memory.writeHalf (m : Memory) (a : Nat) (h : Half) : Memory :=
  Memory.write (Memory.write m a (h.extractLsb' 0 8)) (a + 1) (h.extractLsb' 8 8)

/-- The write of R31: element `j` at `a + 2j` when it is enabled. -/
def Memory.writeElements (m : Memory) (a : Nat) : List (Option Converted) → Memory
  | [] => m
  | some r :: rs => Memory.writeElements (Memory.writeHalf m a r.half) (a + 2) rs
  | none :: rs => Memory.writeElements m (a + 2) rs

/-- Write consecutive bytes below 2^64. Only the loader `State.withFetchWord` uses it. -/
def Memory.writeBytes (m : Memory) (a : Nat) : List Byte → Memory
  | [] => m
  | b :: bs => if a < 2 ^ 64 then Memory.writeBytes (Memory.write m a b) (a + 1) bs else m

/-! ### Registers -/

/-- `V[n] <- x`, all bits. -/
def State.writeV (s : State) (n : VReg) (x : Zmm) : State := { s with v := s.v.set n x }

def State.setMxcsr (s : State) (x : BitVec 32) : State := { s with mxcsr := x }

def State.setMem (s : State) (m : Memory) : State := { s with mem := m }

/-- `RIP <- RIP + len` modulo 2^64 (R17). -/
def State.advance (s : State) (len : Nat) : State := { s with rip := s.rip + BitVec.ofNat 64 len }

/-- A free value has been drawn (log entry 10). -/
def State.drawn (s : State) : State := { s with draws := s.draws + 1 }

/-! ### Admission (R26, R27, R30) -/

/-- Bits `63:CANON_BITS-1` of the address are all equal. -/
def canonical (c : Config) (a : Nat) : Bool :=
  decide (a < 2 ^ (c.canonBits.bits - 1)) ||
    (decide (2 ^ 64 - 2 ^ (c.canonBits.bits - 1) ≤ a) && decide (a < 2 ^ 64))

/-- The address lies in a region of the kind. -/
def inRegion (c : Config) (kind : RegionKind) (a : Nat) : Bool :=
  c.regions.any fun r => r.kind == kind && decide (r.base ≤ a) && decide (a < r.base + r.size)

/-- `MemAdmit` for a write of the byte: canonical, in a data region, and no byte of the program text (R26, R30). -/
def writable (c : Config) (a : Nat) : Bool :=
  canonical c a && inRegion c .data a && !inRegion c .programText a

/-- `MemAdmit` for fetching the byte: canonical and in the program text (D5, D12). -/
def fetchable (c : Config) (a : Nat) : Bool := canonical c a && inRegion c .programText a

/-! ### Taking an exception (R78, R83, R85) -/

/-- The one way an exception is taken: the step ends with the fault outcome of R85, which carries the error code, the
address and the state `s` that the instruction leaves. RIP stays at the instruction. There is no return from an
exception (R86). -/
def takeException (e : Exception) (s : State) : Result :=
  match e with
  | .ud => .fault (.ud s)
  | .nm => .fault (.nm s)
  | .ss => .fault (.ss 0 s)
  | .gp => .fault (.gp 0 s)
  | .pf a => .fault (.pf (Config.pageFaultCode s.draws) a s.drawn)
  | .xm => .fault (.xm s)

/-- The vector number of a fault (R78). -/
def Fault.vector : Fault → Nat
  | .ud _ => 6
  | .nm _ => 7
  | .ss _ _ => 12
  | .gp _ _ => 13
  | .pf _ _ _ => 14
  | .xm _ => 19

/-- The error code of a fault, where R78 gives it one. -/
def Fault.errorCode : Fault → Option (BitVec 32)
  | .ud _ => none
  | .nm _ => none
  | .ss c _ => some c
  | .gp c _ => some c
  | .pf c _ _ => some c
  | .xm _ => none

/-- The faulting linear address, which only a `#PF` records (R78). -/
def Fault.address : Fault → Option Addr
  | .ud _ => none
  | .nm _ => none
  | .ss _ _ => none
  | .gp _ _ => none
  | .pf _ a _ => some a
  | .xm _ => none

/-- The machine state a fault leaves (R85). -/
def Fault.after : Fault → State
  | .ud s => s
  | .nm s => s
  | .ss _ s => s
  | .gp _ s => s
  | .pf _ _ s => s
  | .xm s => s

/-- MXCSR after a raised SIMD floating-point exception: at least its old bits and the flags of R82, at most the five
flags besides; what lies between is a free value (U7, D14, log entry 10). -/
def raisedMxcsr (s : State) (flags : BitVec 32) : BitVec 32 :=
  s.mxcsr ||| flags ||| (Config.freeSimdFlags s.draws &&& fiveFlags)

/-- R83: the flags stay set, the destination is not written, and the exception is `#XM` or `#UD`. -/
def takeSimdException (flags : BitVec 32) (s : State) : Result :=
  takeException (if s.cfg.osXmmExcpt then .xm else .ud) (s.setMxcsr (raisedMxcsr s flags)).drawn

/-- The memory fault of a store to the bytes `as`, if there is one (R81, R84): first `#SS(0)` or `#GP(0)`, then `#PF`
at the first byte that is not admitted. A range past 2^64 is `#GP(0)` whatever the base (log entry 13). -/
def storeFault (s : State) (stack : Bool) (as : List Nat) : Option Exception :=
  if as.any fun a => decide (2 ^ 64 ≤ a) then some .gp
  else if as.any fun a => !canonical s.cfg a then some (if stack then .ss else .gp)
  else (as.find? fun a => !writable s.cfg a).map fun a => .pf (BitVec.ofNat 64 a)

/-- What a decoding failure at RIP does: `#UD` for an illegal encoding (R79), a refusal by name otherwise (R46, R17). Which
of the two an illegal encoding with missing bytes is was settled by the decoder (log entry 24). -/
def decodeFailure (e : DecodeError) (s : State) : Result :=
  match e with
  | .invalidOpcode _ => takeException .ud s
  | .leftOutPrefix => .refused .leftOutPrefix
  | .notVcvtps2ph => .refused .notVcvtps2ph
  | .truncated => .refused .fetchNotAdmitted

/-! ### Fetching -/

/-- At most `n` bytes from address `a` on, as far as they are program text that holds a value (R17, R26, R30). -/
def fetchBytes (s : State) : Nat → Nat → List Byte
  | 0, _ => []
  | n + 1, a =>
    if fetchable s.cfg a then
      match Memory.read s.mem a with
      | some b => b :: fetchBytes s n (a + 1)
      | none => []
    else []

/-- The fetch window: at most 15 bytes from RIP on. PRESUMED (log entry 15). -/
def fetchWindow (s : State) : List Byte := fetchBytes s 15 s.rip.toNat

/-! ### The forms (R62) -/

/-- The SIMD floating-point report of an instruction: R82, or nothing with `{sae}` (R74). -/
def reportOf (sae : Bool) (s : State) (rs : List (Option Converted)) : FpReport :=
  if sae then .suppressed else simdReport s.mxcsr (conditions rs)

/-- R62 for a register destination: `available` is the form's predicate, `kl` its element count, `len` the length. -/
def convertToRegister (available : Bool) (kl : Nat) (sae : Bool) (dst : VReg) (m : Masking) (src : VReg)
    (imm : Byte) (len : Nat) (s : State) : Result :=
  if !available then takeException .ud s
  else if s.cfg.cr0TS then takeException .nm s
  else
    let rs := conversions s kl m src imm
    let fp := reportOf sae s rs
    if fp.raises then takeSimdException fp.flags s
    else
      .next (((s.setMxcsr (s.mxcsr ||| fp.flags)).writeV dst (packHalves (destHalves m s.v[dst] 0 rs))).advance len)

/-- R62 for a memory destination: `n` is the 8-bit displacement scale. The access is checked before the conversion and
before MXCSR changes (R31, R84). -/
def convertToMemory (available : Bool) (kl n : Nat) (dst : MemOperand) (m : Masking) (src : VReg)
    (imm : Byte) (len : Nat) (s : State) : Result :=
  if !available then takeException .ud s
  else if s.cfg.cr0TS then takeException .nm s
  else
    let a := (effectiveAddress s n len dst).toNat
    match storeFault s (stackBased dst) (checkedBytes s.cfg.maskFaultSuppression a (enables s m kl)) with
    | some e => takeException e s
    | none =>
      let rs := conversions s kl m src imm
      let fp := reportOf false s rs
      if fp.raises then takeSimdException fp.flags s
      else .next (((s.setMxcsr (s.mxcsr ||| fp.flags)).setMem (Memory.writeElements s.mem a rs)).advance len)

end Sys2Proof.Machine
end

