-- ==== Sys2Proof/Machine/Evex.lean ====
section
/-!
DEFINITION. The meanings of the EVEX forms (41_vcvtps2ph_forms.md R69 to R75): masked, tuple type Half Mem, so an 8-bit
displacement is scaled by the size of the memory operand (30_encoding.md R41).
-/
namespace Sys2Proof.Machine

/-- `VCVTPS2PH xmm1 {k1}{z}, xmm2, imm8` (R69). -/
def execEvex128Reg (dst : VReg) (mask : Masking) (src : VReg) (imm : Byte) (s : State) : Result :=
  convertToRegister (evexVlAvailable s.cfg) 4 false dst mask src imm
    (instrLength (.evex128Reg dst mask src imm)) s

/-- `VCVTPS2PH m64 {k1}, xmm2, imm8` (R70). -/
def execEvex128Mem (dst : MemOperand) (mask : Masking) (src : VReg) (imm : Byte) (s : State) : Result :=
  convertToMemory (evexVlAvailable s.cfg) 4 8 dst mask src imm
    (instrLength (.evex128Mem dst mask src imm)) s

/-- `VCVTPS2PH xmm1 {k1}{z}, ymm2, imm8` (R71). -/
def execEvex256Reg (dst : VReg) (mask : Masking) (src : VReg) (imm : Byte) (s : State) : Result :=
  convertToRegister (evexVlAvailable s.cfg) 8 false dst mask src imm
    (instrLength (.evex256Reg dst mask src imm)) s

/-- `VCVTPS2PH m128 {k1}, ymm2, imm8` (R72). -/
def execEvex256Mem (dst : MemOperand) (mask : Masking) (src : VReg) (imm : Byte) (s : State) : Result :=
  convertToMemory (evexVlAvailable s.cfg) 8 16 dst mask src imm
    (instrLength (.evex256Mem dst mask src imm)) s

/-- `VCVTPS2PH ymm1 {k1}{z}, zmm2, imm8` (R73). -/
def execEvex512Reg (dst : VReg) (mask : Masking) (src : VReg) (imm : Byte) (s : State) : Result :=
  convertToRegister (evex512Available s.cfg) 16 false dst mask src imm
    (instrLength (.evex512Reg dst mask src imm)) s

/-- `VCVTPS2PH ymm1 {k1}{z}, zmm2 {sae}, imm8` (R74): no flag is written and no SIMD exception can be raised. -/
def execEvex512RegSae (dst : VReg) (mask : Masking) (src : VReg) (imm : Byte) (s : State) : Result :=
  convertToRegister (evex512Available s.cfg) 16 true dst mask src imm
    (instrLength (.evex512RegSae dst mask src imm)) s

/-- `VCVTPS2PH m256 {k1}, zmm2, imm8` (R75). -/
def execEvex512Mem (dst : MemOperand) (mask : Masking) (src : VReg) (imm : Byte) (s : State) : Result :=
  convertToMemory (evex512Available s.cfg) 16 32 dst mask src imm
    (instrLength (.evex512Mem dst mask src imm)) s

end Sys2Proof.Machine
end

