-- ==== Sys2Proof/Machine/Vex.lean ====
section
/-!
DEFINITION. The meanings of the VEX forms (41_vcvtps2ph_forms.md R65 to R68): no mask, 8-bit displacements not scaled.
-/
namespace Sys2Proof.Machine

/-- `VCVTPS2PH xmm1, xmm2, imm8` (R65). -/
def execVex128Reg (dst src : VReg) (imm : Byte) (s : State) : Result :=
  convertToRegister (vexAvailable s.cfg) 4 false dst .unmasked src imm
    (instrLength (.vex128Reg dst src imm)) s

/-- `VCVTPS2PH m64, xmm2, imm8` (R66). -/
def execVex128Mem (dst : MemOperand) (src : VReg) (imm : Byte) (s : State) : Result :=
  convertToMemory (vexAvailable s.cfg) 4 1 dst .unmasked src imm
    (instrLength (.vex128Mem dst src imm)) s

/-- `VCVTPS2PH xmm1, ymm2, imm8` (R67). -/
def execVex256Reg (dst src : VReg) (imm : Byte) (s : State) : Result :=
  convertToRegister (vexAvailable s.cfg) 8 false dst .unmasked src imm
    (instrLength (.vex256Reg dst src imm)) s

/-- `VCVTPS2PH m128, ymm2, imm8` (R68). -/
def execVex256Mem (dst : MemOperand) (src : VReg) (imm : Byte) (s : State) : Result :=
  convertToMemory (vexAvailable s.cfg) 8 1 dst .unmasked src imm
    (instrLength (.vex256Mem dst src imm)) s

end Sys2Proof.Machine
end

