-- ==== Sys2Proof/Machine/Dispatch.lean ====
section
/-!
DEFINITION. One arm per constructor of Instr, each one call of its meaning.
-/
namespace Sys2Proof.Machine

def exec (i : Instr) (s : State) : Host.Outcome State Fault Refusal :=
  match i with
  | .vex128Reg dst src imm => Sys2Proof.Machine.execVex128Reg dst src imm s
  | .vex128Mem dst src imm => Sys2Proof.Machine.execVex128Mem dst src imm s
  | .vex256Reg dst src imm => Sys2Proof.Machine.execVex256Reg dst src imm s
  | .vex256Mem dst src imm => Sys2Proof.Machine.execVex256Mem dst src imm s
  | .evex128Reg dst mask src imm => Sys2Proof.Machine.execEvex128Reg dst mask src imm s
  | .evex128Mem dst mask src imm => Sys2Proof.Machine.execEvex128Mem dst mask src imm s
  | .evex256Reg dst mask src imm => Sys2Proof.Machine.execEvex256Reg dst mask src imm s
  | .evex256Mem dst mask src imm => Sys2Proof.Machine.execEvex256Mem dst mask src imm s
  | .evex512Reg dst mask src imm => Sys2Proof.Machine.execEvex512Reg dst mask src imm s
  | .evex512RegSae dst mask src imm => Sys2Proof.Machine.execEvex512RegSae dst mask src imm s
  | .evex512Mem dst mask src imm => Sys2Proof.Machine.execEvex512Mem dst mask src imm s

end Sys2Proof.Machine
end

