-- ==== Sys2Proof/Machine/Step.lean ====
section
/-!
DEFINITION. One step: fetch, decode, execute (41_vcvtps2ph_forms.md R62), and the loader the host uses.
-/
namespace Sys2Proof.Machine

/-- Decode the bytes at RIP and run the instruction. -/
def step (s : State) : Host.Outcome State Fault Refusal :=
  match decode (fetchWindow s) with
  | .ok (i, _) => exec i s
  | .error e => decodeFailure e s

/-- `s` with the instruction of a table word at RIP, as program text (log entry 6). -/
def State.withFetchWord (s : State) (nbits w : Nat) : State :=
  { s with
    mem := Memory.writeBytes s.mem s.rip.toNat (tableBytes nbits w)
    cfg := { s.cfg with regions := ⟨s.rip.toNat, longestInstr, .programText⟩ :: s.cfg.regions } }

end Sys2Proof.Machine
end

