-- ==== Sys2Proof/Safety.lean ====
section
/-!
DEFINITION. The terms the claims use: what a safe step is, the invariant of the machine, the forms as the spec tabulates
them, and the frame of an instruction.
-/
namespace Sys2Proof.Machine

/-! ### Safe steps -/

/-- The step completes: no fault and no refusal. -/
def Completes (s : State) : Prop := ∃ t, step s = .next t

/-- `n` steps complete one after another. -/
def SafeRun : Nat → State → Prop
  | 0, _ => True
  | n + 1, s => ∃ t, step s = .next t ∧ SafeRun n t

/-! ### The invariant -/

/-- A register file that holds only what exists: bits from `MAXVL` on and registers from `NVEC` on are zero (R6, R10). -/
def VectorsExist (s : State) : Prop :=
  (∀ n : VReg, ∀ b, s.cfg.maxvl ≤ b → s.v[n].getLsbD b = false) ∧ ∀ n : VReg, s.cfg.nvec ≤ n.val → s.v[n] = 0

/-- The invariant of the machine: memory is canonical, the reserved half of MXCSR reads as 0 (R13), and registers hold
nothing in bits that do not exist (R10, R12). -/
def State.Inv (s : State) : Prop :=
  Memory.wf s.mem ∧ s.mxcsr.extractLsb' 16 16 = 0 ∧ VectorsExist s ∧
    ∀ n : KReg, ∀ b, s.cfg.kw.bits ≤ b → s.k[n].getLsbD b = false

/-! ### Prefix bytes (R46) -/

/-- LOCK, 66H, F2H, F3H or REX, which R46 b makes `#UD`. -/
abbrev lockRepOrRex (p : Byte) : Prop :=
  p ∈ [0xF0#8, 0x66#8, 0xF2#8, 0xF3#8] ∨ (0x40 ≤ p.toNat ∧ p.toNat ≤ 0x4F)

/-- A segment override or 67H, which R46 c leaves out. -/
abbrev segmentOrAddressSize (p : Byte) : Prop :=
  p ∈ [0x26#8, 0x2E#8, 0x36#8, 0x3E#8, 0x64#8, 0x65#8, 0x67#8]

/-! ### The forms, as R2, R41, R62 to R75 tabulate them -/

/-- A form with a register destination. -/
structure RegForm where
  dst : VReg
  mask : Masking
  src : VReg
  imm : Byte
  elements : Nat
  sae : Bool
  length : Nat

/-- A form with a memory destination; `scale` multiplies an 8-bit displacement. -/
structure MemForm where
  dst : MemOperand
  mask : Masking
  src : VReg
  imm : Byte
  elements : Nat
  scale : Nat
  length : Nat

/-- The six register forms: R65, R67, R69, R71, R73, R74. -/
def regForm : Instr → Option RegForm
  | .vex128Reg d s imm => some ⟨d, .unmasked, s, imm, 4, false, 6⟩
  | .vex256Reg d s imm => some ⟨d, .unmasked, s, imm, 8, false, 6⟩
  | .evex128Reg d m s imm => some ⟨d, m, s, imm, 4, false, 7⟩
  | .evex256Reg d m s imm => some ⟨d, m, s, imm, 8, false, 7⟩
  | .evex512Reg d m s imm => some ⟨d, m, s, imm, 16, false, 7⟩
  | .evex512RegSae d m s imm => some ⟨d, m, s, imm, 16, true, 7⟩
  | .vex128Mem _ _ _ => none
  | .vex256Mem _ _ _ => none
  | .evex128Mem _ _ _ _ => none
  | .evex256Mem _ _ _ _ => none
  | .evex512Mem _ _ _ _ => none

/-- The five memory forms: R66, R68, R70, R72, R75. -/
def memForm : Instr → Option MemForm
  | .vex128Mem d s imm => some ⟨d, .unmasked, s, imm, 4, 1, 6 + memLength d⟩
  | .vex256Mem d s imm => some ⟨d, .unmasked, s, imm, 8, 1, 6 + memLength d⟩
  | .evex128Mem d m s imm => some ⟨d, m, s, imm, 4, 8, 7 + memLength d⟩
  | .evex256Mem d m s imm => some ⟨d, m, s, imm, 8, 16, 7 + memLength d⟩
  | .evex512Mem d m s imm => some ⟨d, m, s, imm, 16, 32, 7 + memLength d⟩
  | .vex128Reg _ _ _ => none
  | .vex256Reg _ _ _ => none
  | .evex128Reg _ _ _ _ => none
  | .evex256Reg _ _ _ _ => none
  | .evex512Reg _ _ _ _ => none
  | .evex512RegSae _ _ _ _ => none

/-- The source register of a form. -/
def sourceReg : Instr → VReg
  | .vex128Reg _ s _ => s
  | .vex128Mem _ s _ => s
  | .vex256Reg _ s _ => s
  | .vex256Mem _ s _ => s
  | .evex128Reg _ _ s _ => s
  | .evex128Mem _ _ s _ => s
  | .evex256Reg _ _ s _ => s
  | .evex256Mem _ _ s _ => s
  | .evex512Reg _ _ s _ => s
  | .evex512RegSae _ _ s _ => s
  | .evex512Mem _ _ s _ => s

/-- The masking of a form. -/
def maskOf : Instr → Masking
  | .vex128Reg _ _ _ => .unmasked
  | .vex128Mem _ _ _ => .unmasked
  | .vex256Reg _ _ _ => .unmasked
  | .vex256Mem _ _ _ => .unmasked
  | .evex128Reg _ m _ _ => m
  | .evex128Mem _ m _ _ => m
  | .evex256Reg _ m _ _ => m
  | .evex256Mem _ m _ _ => m
  | .evex512Reg _ m _ _ => m
  | .evex512RegSae _ m _ _ => m
  | .evex512Mem _ m _ _ => m

/-- `KL`, the number of elements of a form (R64). -/
def elementCount : Instr → Nat
  | .vex128Reg _ _ _ => 4
  | .vex128Mem _ _ _ => 4
  | .vex256Reg _ _ _ => 8
  | .vex256Mem _ _ _ => 8
  | .evex128Reg _ _ _ _ => 4
  | .evex128Mem _ _ _ _ => 4
  | .evex256Reg _ _ _ _ => 8
  | .evex256Mem _ _ _ _ => 8
  | .evex512Reg _ _ _ _ => 16
  | .evex512RegSae _ _ _ _ => 16
  | .evex512Mem _ _ _ _ => 16

/-- The same form with another immediate byte. -/
def withImm (b : Byte) : Instr → Instr
  | .vex128Reg d s _ => .vex128Reg d s b
  | .vex128Mem d s _ => .vex128Mem d s b
  | .vex256Reg d s _ => .vex256Reg d s b
  | .vex256Mem d s _ => .vex256Mem d s b
  | .evex128Reg d m s _ => .evex128Reg d m s b
  | .evex128Mem d m s _ => .evex128Mem d m s b
  | .evex256Reg d m s _ => .evex256Reg d m s b
  | .evex256Mem d m s _ => .evex256Mem d m s b
  | .evex512Reg d m s _ => .evex512Reg d m s b
  | .evex512RegSae d m s _ => .evex512RegSae d m s b
  | .evex512Mem d m s _ => .evex512Mem d m s b

/-- The size in bytes of the memory operand, `m64`, `m128` or `m256` (R24); a register form has none. -/
def operandBytes : Instr → Nat
  | .vex128Reg _ _ _ => 0
  | .vex128Mem _ _ _ => 8
  | .vex256Reg _ _ _ => 0
  | .vex256Mem _ _ _ => 16
  | .evex128Reg _ _ _ _ => 0
  | .evex128Mem _ _ _ _ => 8
  | .evex256Reg _ _ _ _ => 0
  | .evex256Mem _ _ _ _ => 16
  | .evex512Reg _ _ _ _ => 0
  | .evex512RegSae _ _ _ _ => 0
  | .evex512Mem _ _ _ _ => 32

/-- The feature and OS-enable predicate of a form, from the CPUID column of R2 and from R79 d. -/
def formAvailable (c : Config) : Instr → Bool
  | .vex128Reg _ _ _ => c.hasF16C && c.osAvxEnabled
  | .vex128Mem _ _ _ => c.hasF16C && c.osAvxEnabled
  | .vex256Reg _ _ _ => c.hasF16C && c.osAvxEnabled
  | .vex256Mem _ _ _ => c.hasF16C && c.osAvxEnabled
  | .evex128Reg _ _ _ _ => ((c.hasAvx512VL && c.hasAvx512F) || c.hasAvx10_1) && c.osAvx512Enabled
  | .evex128Mem _ _ _ _ => ((c.hasAvx512VL && c.hasAvx512F) || c.hasAvx10_1) && c.osAvx512Enabled
  | .evex256Reg _ _ _ _ => ((c.hasAvx512VL && c.hasAvx512F) || c.hasAvx10_1) && c.osAvx512Enabled
  | .evex256Mem _ _ _ _ => ((c.hasAvx512VL && c.hasAvx512F) || c.hasAvx10_1) && c.osAvx512Enabled
  | .evex512Reg _ _ _ _ => (c.hasAvx512F || c.hasAvx10_1) && c.osAvx512Enabled
  | .evex512RegSae _ _ _ _ => (c.hasAvx512F || c.hasAvx10_1) && c.osAvx512Enabled
  | .evex512Mem _ _ _ _ => (c.hasAvx512F || c.hasAvx10_1) && c.osAvx512Enabled

/-- The form may run: available and not trapped by `CR0_TS` (R79, R80). -/
def Runnable (s : State) (i : Instr) : Prop := formAvailable s.cfg i = true ∧ s.cfg.cr0TS = false

/-! ### Elements -/

/-- The conversion of source element `j` (R52, R62 step 5). -/
def elementResult (s : State) (src : VReg) (imm : Byte) (j : Nat) : Converted :=
  cvtOf s.cfg (singleAt s.v[src] j) (effectiveRounding imm s.mxcsr) (mxcsrDaz s.mxcsr)

/-- The conditions of the enabled elements, `C` of R82. -/
def enabledConds (s : State) (m : Masking) (src : VReg) (imm : Byte) (kl : Nat) : List Conds :=
  ((List.range kl).filter (enabled s m)).map fun j => (elementResult s src imm j).conds

/-- The report of R82 for a register form, or nothing with `{sae}` (R74). -/
def RegForm.report (f : RegForm) (s : State) : FpReport :=
  if f.sae then ⟨0, false⟩ else simdReport s.mxcsr (enabledConds s f.mask f.src f.imm f.elements)

/-- The report of R82 for a memory form. -/
def MemForm.report (f : MemForm) (s : State) : FpReport :=
  simdReport s.mxcsr (enabledConds s f.mask f.src f.imm f.elements)

/-! ### Memory operands -/

/-- `A`, the linear address of the memory operand (R39, R27). -/
def MemForm.address (f : MemForm) (s : State) : Nat := (effectiveAddress s f.scale f.length f.dst).toNat

/-- The byte at `a` is stored to: it belongs to an enabled element (R31). -/
def MemForm.stores (f : MemForm) (s : State) (a : Nat) : Prop :=
  ∃ j < f.elements, enabled s f.mask j = true ∧ (a = f.address s + 2 * j ∨ a = f.address s + 2 * j + 1)

/-- The byte at `a` is checked: it belongs to an enabled element, or to any without fault suppression (R31, D19). -/
def MemForm.checks (f : MemForm) (s : State) (a : Nat) : Prop :=
  ∃ j < f.elements, (enabled s f.mask j = true ∨ s.cfg.maskFaultSuppression = false) ∧
    (a = f.address s + 2 * j ∨ a = f.address s + 2 * j + 1)

/-- The access is admitted: every checked byte is writable (R26, R31). -/
def MemForm.admitted (f : MemForm) (s : State) : Prop := ∀ a, f.checks s a → writable s.cfg a = true

/-! ### Frames -/

/-- Nothing but vector registers, MXCSR flags, RIP and memory differs. -/
def SameSystem (s t : State) : Prop :=
  t.k = s.k ∧ t.g = s.g ∧ t.eflags = s.eflags ∧ t.cfg = s.cfg ∧ t.draws = s.draws ∧
    t.mxcsr &&& ~~~fiveFlags = s.mxcsr &&& ~~~fiveFlags

/-- The value lies between `lo` and `hi`, bit by bit. -/
def BitsBetween {w : Nat} (lo x hi : BitVec w) : Prop := lo ||| x = x ∧ x ||| hi = hi

/-- The outcome with its state changed by `f`. -/
def mapOutcome (f : State → State) : Result → Result
  | .next t => .next (f t)
  | .fault (.ud t) => .fault (.ud (f t))
  | .fault (.nm t) => .fault (.nm (f t))
  | .fault (.ss c t) => .fault (.ss c (f t))
  | .fault (.gp c t) => .fault (.gp c (f t))
  | .fault (.pf c a t) => .fault (.pf c a (f t))
  | .fault (.xm t) => .fault (.xm (f t))
  | .refused r => .refused r

/-! ### Values of the two formats (R51), in units of 2^-159 -/

/-- The magnitude of a finite binary32. -/
def singleMagnitude (x : Single) : Nat :=
  if singleExp x = 0 then (singleFrac x).toNat * 2 ^ 10 else (2 ^ 23 + (singleFrac x).toNat) * 2 ^ (singleExp x + 9)

/-- The magnitude of the binary16 with lower 15 bits `n`; infinity (7C00H) counts as 2^16, the next step of the grid. -/
def halfMagnitude (n : Nat) : Nat :=
  if n / 1024 = 0 then n % 1024 * 2 ^ 135 else (1024 + n % 1024) * 2 ^ (n / 1024 + 134)

end Sys2Proof.Machine
end

