-- ==== Sys2Proof/WellFormed.lean ====
section
/-!
DEFINITION. Which terms of `Instr` stand for an encodable instruction: every way one can fail to has a name (spec
30_encoding.md R37, R39, R44).
-/
namespace Sys2Proof

/-- Why a term of `Instr` stands for no encoding. -/
inductive IllFormed where
  | vexRegisterAbove15    -- a VEX form reaches V[0..15] only (R37)
  | maskRegisterIsK0      -- aaa = 000B means no mask (R44)
  | zeroingMemory         -- zeroing-masking exists only for a register destination (R44, C7)
  | baseNeedsSib          -- rm = 100B announces a SIB byte (R39)
  | baseNeedsDisplacement -- mod = 00B with rm or SIB.base = 101B means no base (R39)
deriving DecidableEq, Repr

/-- The 3-bit field that holds the low part of a general register number. -/
def lowField (r : GReg) : Nat := r.val % 8

/-- What is wrong with the register of a VEX form. -/
def illVexReg (r : VReg) : List IllFormed := if r.val < 16 then [] else [.vexRegisterAbove15]

/-- What is wrong with the mask of a register form. -/
def illMaskReg : Masking → List IllFormed
  | .unmasked => []
  | .merging k => if k = 0 then [.maskRegisterIsK0] else []
  | .zeroing k => if k = 0 then [.maskRegisterIsK0] else []

/-- What is wrong with the mask of a memory form. -/
def illMaskMem : Masking → List IllFormed
  | .unmasked => []
  | .merging k => if k = 0 then [.maskRegisterIsK0] else []
  | .zeroing _ => [.zeroingMemory]

/-- What is wrong with a memory operand. -/
def illMem : MemOperand → List IllFormed
  | .based b d =>
    if lowField b = 4 then [.baseNeedsSib]
    else if lowField b = 5 ∧ d = .absent then [.baseNeedsDisplacement] else []
  | .ripRel _ => []
  | .sib b _ _ d => if lowField b = 5 ∧ d = .absent then [.baseNeedsDisplacement] else []
  | .sibNoBase _ _ _ => []

/-- Everything that is wrong with an instruction. -/
def Instr.illFormed : Instr → List IllFormed
  | .vex128Reg d s _ => illVexReg d ++ illVexReg s
  | .vex128Mem d s _ => illMem d ++ illVexReg s
  | .vex256Reg d s _ => illVexReg d ++ illVexReg s
  | .vex256Mem d s _ => illMem d ++ illVexReg s
  | .evex128Reg _ m _ _ => illMaskReg m
  | .evex128Mem d m _ _ => illMem d ++ illMaskMem m
  | .evex256Reg _ m _ _ => illMaskReg m
  | .evex256Mem d m _ _ => illMem d ++ illMaskMem m
  | .evex512Reg _ m _ _ => illMaskReg m
  | .evex512RegSae _ m _ _ => illMaskReg m
  | .evex512Mem d m _ _ => illMem d ++ illMaskMem m

/-- The instruction has an encoding. -/
abbrev Instr.WellFormed (i : Instr) : Prop := i.illFormed = []

end Sys2Proof
end

