-- ==== Sys2Proof/Certificates/Slice0/Obligations.lean ====
section
/-!
DEFINITION. The statements for the provers, each with the rules of spec/ it formalises or rests on. `regForm` and
`memForm` of Safety.lean tabulate the six register forms (vex128Reg, vex256Reg, evex128Reg, evex256Reg, evex512Reg,
evex512RegSae) and the five memory forms (vex128Mem, vex256Mem, evex128Mem, evex256Mem, evex512Mem).
-/
open Sys2Proof Sys2Proof.Machine

/-! ## Encoding -/

/-- Every well-formed instruction decodes from its encoding, whatever bytes follow (R32 to R45). -/
def Obligations.DecodeEncodeRoundTrip : Prop :=
  ∀ (i : Instr) (rest : List Byte), i.WellFormed → decode (encode i ++ rest) = .ok (i, rest)

/-- What the decoder accepts is well-formed, and the bytes it takes are as many as the instruction's length (R32). -/
def Obligations.DecodedIsWellFormedAndMeasured : Prop :=
  ∀ (bs : List Byte) (i : Instr) (rest : List Byte), decode bs = .ok (i, rest) →
    i.WellFormed ∧ bs.length = instrLength i + rest.length ∧ rest = bs.drop (instrLength i)

/-- R43: with this opcode, `VEX.W` = 1 raises `#UD`, and so does a stored `vvvv` other than 1111B in either format. That it
does so also when bytes after the opcode cannot be fetched (`rest` too short), where R17 and D5 refuse the instruction, is
the model's choice, log entry 24. -/
def Obligations.IllegalEncodingsRaiseUd : Prop :=
  (∀ (s : State) (b1 b2 : Byte) (rest : List Byte),
    fetchWindow s = 0xC4 :: b1 :: b2 :: 0x1D :: rest →
    b1.extractLsb' 0 5 = 3#5 → b2.extractLsb' 0 2 = 1#2 →
    (b2.getLsbD 7 = true ∨ b2.extractLsb' 3 4 ≠ 15#4) → step s = .fault (.ud s)) ∧
  ∀ (s : State) (b1 b2 b3 : Byte) (rest : List Byte),
    fetchWindow s = 0x62 :: b1 :: b2 :: b3 :: 0x1D :: rest →
    b1.extractLsb' 0 3 = 3#3 → b2.extractLsb' 0 2 = 1#2 →
    b2.extractLsb' 3 4 ≠ 15#4 → step s = .fault (.ud s)

/-- R44, R45, R46 a: the reserved EVEX bits and combinations raise `#UD`. That they do so also when bytes after ModRM
cannot be fetched (`rest` too short), where R17 and D5 refuse the instruction, is the model's choice, log entry 24. -/
def Obligations.EvexReservedEncodingsRaiseUd : Prop :=
  ∀ (s : State) (b1 b2 b3 modrm : Byte) (rest : List Byte),
    fetchWindow s = 0x62 :: b1 :: b2 :: b3 :: 0x1D :: modrm :: rest →
    b1.extractLsb' 0 3 = 3#3 → b2.extractLsb' 0 2 = 1#2 →
    (b1.getLsbD 3 = true ∨ b2.getLsbD 2 = false ∨ b2.getLsbD 7 = true ∨ b3.getLsbD 3 = false ∨
      (b3.getLsbD 7 = true ∧ b3.extractLsb' 0 3 = 0#3) ∨
      (b3.getLsbD 7 = true ∧ modrm.extractLsb' 6 2 ≠ 3#2) ∨
      (b3.getLsbD 4 = true ∧ modrm.extractLsb' 6 2 ≠ 3#2) ∨
      (b3.getLsbD 4 = false ∧ b3.extractLsb' 5 2 = 3#2)) →
    step s = .fault (.ud s)

/-- R45: with `b` = 1 and a register destination, `L'L` changes nothing and the form is the `{sae}` one. -/
def Obligations.SaeIgnoresVectorLength : Prop :=
  ∀ (b1 b2 modrm imm : Byte) (p2 : EvexP2) (ll : BitVec 2) (rest : List Byte),
    p2.b = true → modrm.extractLsb' 6 2 = 3#2 →
    decode (0x62 :: b1 :: b2 :: EvexP2.toByte { p2 with ll := ll } :: 0x1D :: modrm :: imm :: rest) =
      decode (0x62 :: b1 :: b2 :: EvexP2.toByte p2 :: 0x1D :: modrm :: imm :: rest) ∧
    ∀ (i : Instr) (r : List Byte),
      decode (0x62 :: b1 :: b2 :: EvexP2.toByte p2 :: 0x1D :: modrm :: imm :: rest) = .ok (i, r) →
      ∃ d m src, i = .evex512RegSae d m src imm ∧ r = rest

/-- R46 b and c, R79 e: prefix bytes `ps` before `bs`, in any number. When an instruction follows, one LOCK, 66H, F2H, F3H
or REX among them makes the step raise `#UD`, and segment overrides or 67H alone make it a refused one; before an
illegal encoding it stays `#UD`. That the first kind wins over the second, and an illegal encoding over both, is the
model's choice, log entry 14; that an illegal encoding is `#UD` also when later bytes of it cannot be fetched, where R17
and D5 refuse it, is the model's choice, log entry 24. -/
def Obligations.PrefixBytesRejectTheInstruction : Prop :=
  ∀ (s : State) (ps bs : List Byte), fetchWindow s = ps ++ bs →
    (∀ p ∈ ps, lockRepOrRex p ∨ segmentOrAddressSize p) →
    (∀ (i : Instr) (rest : List Byte), decode bs = .ok (i, rest) → (∃ p ∈ ps, lockRepOrRex p) →
      decode (ps ++ bs) = .error (.invalidOpcode .legacyPrefix) ∧ step s = .fault (.ud s)) ∧
    (∀ (i : Instr) (rest : List Byte), decode bs = .ok (i, rest) → ps ≠ [] → (∀ p ∈ ps, segmentOrAddressSize p) →
      decode (ps ++ bs) = .error .leftOutPrefix ∧ step s = .refused .leftOutPrefix) ∧
    ∀ c : UdCause, decode bs = .error (.invalidOpcode c) → step s = .fault (.ud s)

/-- R35, R46 e: another opcode map, implied prefix or opcode byte, or another first byte, is refused by name. That it has
this name also when later bytes cannot be fetched is the model's choice, log entry 24. -/
def Obligations.OtherInstructionsAreRefused : Prop :=
  (∀ (s : State) (b1 b2 op : Byte) (rest : List Byte), fetchWindow s = 0xC4 :: b1 :: b2 :: op :: rest →
    (b1.extractLsb' 0 5 ≠ 3#5 ∨ b2.extractLsb' 0 2 ≠ 1#2 ∨ op ≠ 0x1D#8) → step s = .refused .notVcvtps2ph) ∧
  (∀ (s : State) (b1 b2 b3 op : Byte) (rest : List Byte), fetchWindow s = 0x62 :: b1 :: b2 :: b3 :: op :: rest →
    (b1.extractLsb' 0 3 ≠ 3#3 ∨ b2.extractLsb' 0 2 ≠ 1#2 ∨ op ≠ 0x1D#8) → step s = .refused .notVcvtps2ph) ∧
  ∀ (s : State) (b : Byte) (rest : List Byte), fetchWindow s = b :: rest →
    b ∉ [0xC4#8, 0x62#8, 0xF0#8, 0x66#8, 0xF2#8, 0xF3#8, 0x26#8, 0x2E#8, 0x36#8, 0x3E#8, 0x64#8, 0x65#8, 0x67#8] →
    ¬(0x40 ≤ b.toNat ∧ b.toNat ≤ 0x4F) → step s = .refused .notVcvtps2ph

/-- Words of 95_test_vectors.md (vD1, vD11, vD9's format with `L` = 1, vD27, vD8, vD35) decode as the spec lists them. -/
def Obligations.SpecWordsDecode : Prop :=
  decode [0xC4, 0xE3, 0x79, 0x1D, 0xE4, 0x02] = .ok (.vex128Reg 4 4 0x02, []) ∧
  decode [0xC4, 0xA3, 0x79, 0x1D, 0x04, 0x88, 0x00] = .ok (.vex128Mem (.sib 0 9 2 .absent) 0 0x00, []) ∧
  decode [0xC4, 0xE3, 0x7D, 0x1D, 0xE4, 0x02] = .ok (.vex256Reg 4 4 0x02, []) ∧
  decode [0x62, 0x03, 0x7D, 0x4D, 0x1D, 0xC8, 0x07] = .ok (.evex512Reg 24 (.merging 5) 25 0x07, []) ∧
  decode [0x62, 0xF3, 0x7D, 0x18, 0x1D, 0xEE, 0xAB] = .ok (.evex512RegSae 6 .unmasked 5 0xAB, []) ∧
  decode [0x62, 0xE3, 0x7D, 0x29, 0x1D, 0x54, 0x4B, 0x04, 0x01] =
    .ok (.evex256Mem (.sib 3 1 1 (.d8 0x04)) (.merging 1) 18 0x01, [])

/-! ## The step -/

/-- When the bytes at RIP decode to an instruction, the step is that instruction's execution (R62 step 1). -/
def Obligations.StepRunsDecodedInstruction : Prop :=
  ∀ (s : State) (i : Instr) (rest : List Byte), decode (fetchWindow s) = .ok (i, rest) → step s = exec i s

/-- An instruction that stands at RIP as program text is the one that runs (R26, R30, R62). -/
def Obligations.ProgramTextAtRipRuns : Prop :=
  ∀ (s : State) (i : Instr), i.WellFormed →
    (∀ n < instrLength i, fetchable s.cfg (s.rip.toNat + n) = true ∧
      Memory.read s.mem (s.rip.toNat + n) = (encode i)[n]?) →
    step s = exec i s

/-- R17, D5, D12: what is fetched is canonical program text below 2^64. An instruction of which a byte, the first or a
later one, cannot be fetched or holds no value is refused, under the name of log entry 16. -/
def Obligations.FetchOutsideProgramTextIsRefused : Prop :=
  (∀ (c : Config) (a : Nat), fetchable c a = true →
    a < 2 ^ 64 ∧ canonical c a = true ∧ inRegion c .programText a = true) ∧
  (∀ s : State, fetchable s.cfg s.rip.toNat = false → step s = .refused .fetchNotAdmitted) ∧
  ∀ (s : State) (i : Instr) (k : Nat), i.WellFormed → k < instrLength i →
    (∀ n < k, fetchable s.cfg (s.rip.toNat + n) = true ∧
      Memory.read s.mem (s.rip.toNat + n) = (encode i)[n]?) →
    (fetchable s.cfg (s.rip.toNat + k) = false ∨ Memory.read s.mem (s.rip.toNat + k) = none) →
    step s = .refused .fetchNotAdmitted

/-! ## What the forms do -/

/-- The six register forms complete when they may run and no unmasked condition arises, and write what R64 to R67, R69,
R71, R73 and R74 say: enabled elements are converted, disabled ones kept or zeroed, the rest of the register is zero. -/
def Obligations.RegisterFormsComplete : Prop :=
  ∀ (i : Instr) (f : RegForm) (s : State), regForm i = some f → Runnable s i → (f.report s).raises = false →
    ∃ t, exec i s = .next t ∧
      (∀ j < f.elements, enabled s f.mask j = true →
        halfAt t.v[f.dst] j = (elementResult s f.src f.imm j).half) ∧
      (∀ j < f.elements, enabled s f.mask j = false →
        (∀ k, f.mask = .zeroing k → halfAt t.v[f.dst] j = 0) ∧
        (∀ k, f.mask = .merging k → halfAt t.v[f.dst] j = halfAt s.v[f.dst] j)) ∧
      (∀ b, 16 * f.elements ≤ b → t.v[f.dst].getLsbD b = false) ∧
      t.mxcsr = s.mxcsr ||| (f.report s).flags ∧
      t.rip = s.rip + BitVec.ofNat 64 f.length

/-- The VEX.128 register form as the source's pseudocode writes it (R65). -/
def Obligations.Vex128RegWritesPseudocodeResult : Prop :=
  ∀ (s : State) (d src : VReg) (imm : Byte), s.cfg.hasF16C = true → s.cfg.osAvxEnabled = true →
    s.cfg.cr0TS = false →
    (simdReport s.mxcsr ((List.range 4).map fun j => (elementResult s src imm j).conds)).raises = false →
    ∃ t, exec (.vex128Reg d src imm) s = .next t ∧
      t.v[d] = 0#448 ++ (elementResult s src imm 3).half ++ (elementResult s src imm 2).half ++
        (elementResult s src imm 1).half ++ (elementResult s src imm 0).half

/-- The VEX.256 register form as the source's pseudocode writes it (R67). -/
def Obligations.Vex256RegWritesPseudocodeResult : Prop :=
  ∀ (s : State) (d src : VReg) (imm : Byte), s.cfg.hasF16C = true → s.cfg.osAvxEnabled = true →
    s.cfg.cr0TS = false →
    (simdReport s.mxcsr ((List.range 8).map fun j => (elementResult s src imm j).conds)).raises = false →
    ∃ t, exec (.vex256Reg d src imm) s = .next t ∧
      t.v[d] = 0#384 ++ (elementResult s src imm 7).half ++ (elementResult s src imm 6).half ++
        (elementResult s src imm 5).half ++ (elementResult s src imm 4).half ++
        (elementResult s src imm 3).half ++ (elementResult s src imm 2).half ++
        (elementResult s src imm 1).half ++ (elementResult s src imm 0).half

/-- The five memory forms complete when they may run, the access is admitted and no unmasked condition arises, and store
every enabled element, low byte first (R22, R24, R31, R64, R66, R68, R70, R72, R75). -/
def Obligations.MemoryFormsComplete : Prop :=
  ∀ (i : Instr) (f : MemForm) (s : State), memForm i = some f → Runnable s i → f.admitted s →
    (f.report s).raises = false →
    ∃ t, exec i s = .next t ∧
      (∀ j < f.elements, enabled s f.mask j = true →
        Memory.read t.mem (f.address s + 2 * j) = some ((elementResult s f.src f.imm j).half.extractLsb' 0 8) ∧
        Memory.read t.mem (f.address s + 2 * j + 1) = some ((elementResult s f.src f.imm j).half.extractLsb' 8 8)) ∧
      t.mxcsr = s.mxcsr ||| (f.report s).flags ∧
      t.rip = s.rip + BitVec.ofNat 64 f.length

/-- Frame of the register forms (R11, R14, R18, R65, R67, R69, R71, R73, R74): nothing changes but the destination
register, RIP and the five MXCSR flags, and with `{sae}` no MXCSR bit at all. -/
def Obligations.RegisterFormsFrame : Prop :=
  ∀ (i : Instr) (f : RegForm) (s t : State), regForm i = some f → exec i s = .next t →
    (∀ n : VReg, n ≠ f.dst → t.v[n] = s.v[n]) ∧ SameSystem s t ∧ (f.sae = true → t.mxcsr = s.mxcsr) ∧
    ∀ a, Memory.read t.mem a = Memory.read s.mem a

/-- Frame of the memory forms (R11, R24, R25, R66, R68, R70, R72, R75): no register but RIP and the five MXCSR flags
changes, and every byte outside the enabled elements reads as before. -/
def Obligations.MemoryFormsFrame : Prop :=
  ∀ (i : Instr) (f : MemForm) (s t : State), memForm i = some f → exec i s = .next t →
    (∀ n : VReg, t.v[n] = s.v[n]) ∧ SameSystem s t ∧
    ∀ a, ¬f.stores s a → Memory.read t.mem a = Memory.read s.mem a

/-- R63: source element `j` stands at bits 32j+31:32j and its value at destination bits 16j+15:16j, in order and packed
from bit 0, with the rest of a register zero. Of a memory operand those bits are the two bytes at A+2j and A+2j+1, low
byte first (R22, D6), and no byte outside the elements is written. -/
def Obligations.ElementsArePlacedInOrder : Prop :=
  (∀ (i : Instr) (f : RegForm) (s t : State), regForm i = some f → exec i s = .next t →
    (∀ j < f.elements, enabled s f.mask j = true →
      t.v[f.dst].extractLsb' (16 * j) 16 =
        (cvtOf s.cfg (s.v[f.src].extractLsb' (32 * j) 32) (effectiveRounding f.imm s.mxcsr) (mxcsrDaz s.mxcsr)).half) ∧
    ∀ b, 16 * f.elements ≤ b → t.v[f.dst].getLsbD b = false) ∧
  ∀ (i : Instr) (f : MemForm) (s t : State), memForm i = some f → exec i s = .next t →
    (∀ j < f.elements, enabled s f.mask j = true → ∃ lo hi : Byte,
      Memory.read t.mem (f.address s + 2 * j) = some lo ∧ Memory.read t.mem (f.address s + 2 * j + 1) = some hi ∧
      hi ++ lo =
        (cvtOf s.cfg (s.v[f.src].extractLsb' (32 * j) 32) (effectiveRounding f.imm s.mxcsr) (mxcsrDaz s.mxcsr)).half) ∧
    ∀ a, (a < f.address s ∨ f.address s + 2 * f.elements ≤ a) → Memory.read t.mem a = Memory.read s.mem a

/-- R24: no form loads data. With another memory a form does the same, in every field but memory: a register form
carries the other memory along, a memory form stores the same bytes to the same addresses. The bytes of a memory form
are A .. A+7 (m64), A .. A+15 (m128) or A .. A+31 (m256) when every element is enabled, and else the two bytes at A+2j
of the elements whose mask bit is set; each of them is written and a masked-off one is not. -/
def Obligations.StoresAreTheOperandAndNothingIsLoaded : Prop :=
  (∀ (i : Instr) (s : State) (m : Memory), (∃ f, regForm i = some f) ∨ (∃ e, exec i s = .fault e) →
    exec i { s with mem := m } = mapOutcome (fun t => { t with mem := m }) (exec i s)) ∧
  (∀ (i : Instr) (f : MemForm) (s t : State) (m : Memory), memForm i = some f → exec i s = .next t →
    ∃ t' : State, exec i { s with mem := m } = .next t' ∧ t' = { t with mem := t'.mem } ∧
      ∀ a, (f.stores s a → ∃ b, Memory.read t.mem a = some b ∧ Memory.read t'.mem a = some b) ∧
        (¬f.stores s a → Memory.read t'.mem a = Memory.read m a)) ∧
  (∀ (i : Instr) (f : MemForm) (s : State), memForm i = some f → (∀ j < f.elements, enabled s f.mask j = true) →
    ∀ a, f.stores s a ↔ f.address s ≤ a ∧ a < f.address s + operandBytes i) ∧
  ∀ (i : Instr) (f : MemForm) (s t : State) (j : Nat), memForm i = some f → exec i s = .next t → j < f.elements →
    enabled s f.mask j = false →
    Memory.read t.mem (f.address s + 2 * j) = Memory.read s.mem (f.address s + 2 * j) ∧
      Memory.read t.mem (f.address s + 2 * j + 1) = Memory.read s.mem (f.address s + 2 * j + 1)

/-- R74: with `{sae}` the form completes whatever the masks and the elements, and MXCSR keeps its value. -/
def Obligations.SaeFormAlwaysCompletes : Prop :=
  ∀ (s : State) (d : VReg) (m : Masking) (src : VReg) (imm : Byte),
    (s.cfg.hasAvx512F = true ∨ s.cfg.hasAvx10_1 = true) → s.cfg.osAvx512Enabled = true → s.cfg.cr0TS = false →
    ∃ t, exec (.evex512RegSae d m src imm) s = .next t ∧ t.mxcsr = s.mxcsr ∧
      t.rip = s.rip + 7 ∧
      ∀ j < 16, enabled s m j = true → halfAt t.v[d] j = (elementResult s src imm j).half

/-- R82: with all five masks set no element can stop a form, so every form that may run and whose access is admitted
completes. -/
def Obligations.MaskedExceptionsNeverStop : Prop :=
  ∀ (i : Instr) (s : State), Runnable s i → (∀ f, memForm i = some f → f.admitted s) →
    mxcsrIm s.mxcsr = true → mxcsrDm s.mxcsr = true → mxcsrOm s.mxcsr = true → mxcsrUm s.mxcsr = true →
    mxcsrPm s.mxcsr = true → ∃ t, exec i s = .next t

/-- R31, R27: with fault suppression an all-zero mask makes no access and cannot fault, whatever the address: only RIP
moves. -/
def Obligations.AllZeroMaskStoresNothing : Prop :=
  ∀ (i : Instr) (f : MemForm) (s : State), memForm i = some f → Runnable s i → s.cfg.maskFaultSuppression = true →
    (∀ j < f.elements, enabled s f.mask j = false) → exec i s = .next (s.advance f.length)

/-! ## Exceptions -/

/-- R79 c and d: a form whose feature or OS-enable predicate is false raises `#UD` and changes nothing. -/
def Obligations.AbsentFeatureRaisesUd : Prop :=
  ∀ (i : Instr) (s : State), formAvailable s.cfg i = false → exec i s = .fault (.ud s)

/-- R80: an available form raises `#NM` while `CR0_TS` is set, before any memory access, and changes nothing. -/
def Obligations.TaskSwitchedRaisesNm : Prop :=
  ∀ (i : Instr) (s : State), formAvailable s.cfg i = true → s.cfg.cr0TS = true → exec i s = .fault (.nm s)

/-- R81: a checked byte past 2^64 raises `#GP(0)`; otherwise a checked byte that is not canonical raises `#SS(0)` when
the base is RSP or RBP and `#GP(0)` when not. That a range past 2^64 gives `#GP(0)` with those bases too is the model's
reading (log entry 13). -/
def Obligations.NonCanonicalStoreRaisesSsOrGp : Prop :=
  ∀ (i : Instr) (f : MemForm) (s : State), memForm i = some f → Runnable s i →
    ((∃ a, f.checks s a ∧ 2 ^ 64 ≤ a) → exec i s = .fault (.gp 0 s)) ∧
    ((∀ a, f.checks s a → a < 2 ^ 64) → (∃ a, f.checks s a ∧ canonical s.cfg a = false) →
      exec i s = if stackBased f.dst then .fault (.ss 0 s) else .fault (.gp 0 s))

/-- R81, R84: when every checked byte is canonical and one is not admitted, the form raises `#PF` at the first such byte;
no register, flag or byte changes. That the address is the first such byte is log entry 23. -/
def Obligations.UnadmittedStoreRaisesPf : Prop :=
  ∀ (i : Instr) (f : MemForm) (s : State) (a : Nat), memForm i = some f → Runnable s i →
    (∀ x, f.checks s x → canonical s.cfg x = true) → f.checks s a → writable s.cfg a = false →
    (∀ x, f.checks s x → x < a → writable s.cfg x = true) →
    ∃ code, exec i s = .fault (.pf code (BitVec.ofNat 64 a) s.drawn)

/-- R82, R83: an unmasked condition of an enabled element raises `#XM`, or `#UD` while `OSXMMEXCPT` is false; the state
left differs from the one before in MXCSR (and the model's counter) alone, and MXCSR gains at least the flags of R82 and
at most the five flags. How much more is the free value of log entry 10. -/
def Obligations.UnmaskedConditionRaisesSimdException : Prop :=
  (∀ (i : Instr) (f : RegForm) (s : State), regForm i = some f → Runnable s i → (f.report s).raises = true →
    ∃ t : State, exec i s = .fault (if s.cfg.osXmmExcpt then .xm t else .ud t) ∧
      t = { s with mxcsr := t.mxcsr, draws := t.draws } ∧
      BitsBetween (s.mxcsr ||| (f.report s).flags) t.mxcsr (s.mxcsr ||| fiveFlags)) ∧
  ∀ (i : Instr) (f : MemForm) (s : State), memForm i = some f → Runnable s i → f.admitted s →
    (f.report s).raises = true →
    ∃ t : State, exec i s = .fault (if s.cfg.osXmmExcpt then .xm t else .ud t) ∧
      t = { s with mxcsr := t.mxcsr, draws := t.draws } ∧
      BitsBetween (s.mxcsr ||| (f.report s).flags) t.mxcsr (s.mxcsr ||| fiveFlags)

/-- The source's sentence (R60, R82, C8): an enabled denormal source element, with DAZ = 0, DM masked and UM or PM
unmasked, raises a SIMD exception with DE, UE and PE set, in a register form without `{sae}` and in a memory form whose
access is admitted. No enabled element may be an unmasked invalid one: R82 then raises before it looks at UM and PM.
Of `cvt` this needs R60's {D, T, X} for the element, which the default body gives. -/
def Obligations.DenormalSourceRaisesWithDeUePe : Prop :=
  let Denormal := fun (s : State) (src : VReg) (imm : Byte) (j : Nat) =>
    singleExp (singleAt s.v[src] j) = 0 ∧ singleFrac (singleAt s.v[src] j) ≠ 0 ∧ mxcsrDaz s.mxcsr = false ∧
      (s.cfg.cvt = .standard ∨ (elementResult s src imm j).conds = ⟨false, true, false, true, true⟩)
  let Unmasked := fun (s : State) (m : Masking) (src : VReg) (imm : Byte) (kl : Nat) =>
    mxcsrDm s.mxcsr = true ∧ (mxcsrUm s.mxcsr = false ∨ mxcsrPm s.mxcsr = false) ∧
      (mxcsrIm s.mxcsr = true ∨
        ∀ j < kl, enabled s m j = true → (elementResult s src imm j).conds.invalid = false)
  let Raises := fun (i : Instr) (s : State) =>
    ∃ t : State, exec i s = .fault (if s.cfg.osXmmExcpt then .xm t else .ud t) ∧
      t.mxcsr.getLsbD 1 = true ∧ t.mxcsr.getLsbD 4 = true ∧ t.mxcsr.getLsbD 5 = true ∧
      t.v = s.v ∧ t.mem = s.mem ∧ t.rip = s.rip
  (∀ (i : Instr) (f : RegForm) (s : State) (j : Nat), regForm i = some f → f.sae = false → Runnable s i →
    j < f.elements → enabled s f.mask j = true → Denormal s f.src f.imm j →
    Unmasked s f.mask f.src f.imm f.elements → Raises i s) ∧
  ∀ (i : Instr) (f : MemForm) (s : State) (j : Nat), memForm i = some f → Runnable s i → f.admitted s →
    j < f.elements → enabled s f.mask j = true → Denormal s f.src f.imm j →
    Unmasked s f.mask f.src f.imm f.elements → Raises i s

/-- R85: exceptions are precise. Whatever fault a step ends in, the state it leaves is the state before, but for MXCSR
flags set and the model's counter; flags are set only by a SIMD floating-point exception. `#NM`, `#SS`, `#GP`, `#PF`, a
`#UD` of an encoding or of an unavailable form, and every `#UD` while `OSXMMEXCPT` is true keep MXCSR (R79, R80, R81);
all of them but `#PF`, whose error code draws a free value, leave the state as it was. -/
def Obligations.FaultsArePrecise : Prop :=
  ∀ (s : State) (f : Fault), step s = .fault f →
    f.after = { s with mxcsr := f.after.mxcsr, draws := f.after.draws } ∧
    BitsBetween s.mxcsr f.after.mxcsr (s.mxcsr ||| fiveFlags) ∧
    (f.vector = 14 → f.after.mxcsr = s.mxcsr) ∧
    (f.vector = 7 ∨ f.vector = 12 ∨ f.vector = 13 → f.after = s) ∧
    (f.vector = 6 → s.cfg.osXmmExcpt = true → f.after = s) ∧
    (∀ e, decode (fetchWindow s) = .error e → f = .ud s) ∧
    ∀ (i : Instr) (rest : List Byte), decode (fetchWindow s) = .ok (i, rest) → formAvailable s.cfg i = false →
      f = .ud s

/-- No meaning refuses: every instruction the decoder gives runs or takes an exception (R62). -/
def Obligations.MeaningsNeverRefuse : Prop :=
  ∀ (i : Instr) (s : State) (r : Refusal), exec i s ≠ .refused r

/-! ## The whole machine -/

/-- Every step keeps the invariant: memory canonical, MXCSR bits 31:16 zero (R13), nothing in vector bits from MAXVL on,
in registers from NVEC on or in opmask bits from KW on (R6, R10, R12). -/
def Obligations.StepKeepsInv : Prop :=
  ∀ s t : State, s.Inv → step s = .next t → t.Inv

/-- The state a fault leaves meets the invariant too. -/
def Obligations.FaultKeepsInv : Prop :=
  ∀ (s : State) (f : Fault), s.Inv → step s = .fault f → f.after.Inv

/-- The reset state meets the invariant. -/
def Obligations.ResetMeetsInv : Prop := State.reset.Inv

/-- What reset leaves (R93): vector and opmask registers 0, MXCSR 1F80H, EFLAGS 2; and no memory listed (log entry 7).
The values of the general registers, of RIP and of the configuration are log entries 2 to 5 and are not stated here. -/
def Obligations.ResetValues : Prop :=
  (∀ n : VReg, State.reset.v[n] = 0) ∧ (∀ n : KReg, State.reset.k[n] = 0) ∧
    State.reset.mxcsr = 0x00001F80 ∧ State.reset.eflags = 0x00000002 ∧ State.reset.mem = []

/-- R30: the program text is immutable. No step changes a byte of it, nor which bytes it is. -/
def Obligations.ProgramTextIsImmutable : Prop :=
  ∀ s t : State, step s = .next t → t.cfg = s.cfg ∧
    ∀ a, inRegion s.cfg .programText a = true → Memory.read t.mem a = Memory.read s.mem a

/-- Over every completed step (R11, R12, R14, R16, R18, D3): opmask registers, general registers, EFLAGS and the
configuration keep their values, at most one vector register changes, and if one does, memory does not. -/
def Obligations.StepFrame : Prop :=
  ∀ s t : State, step s = .next t → SameSystem s t ∧
    ((∀ n : VReg, t.v[n] = s.v[n]) ∨
      (t.mem = s.mem ∧ ∃ d : VReg, ∀ n : VReg, n ≠ d → t.v[n] = s.v[n]))

/-- R14: MXCSR flags are sticky, and no bit but the five flags ever changes, whether the instruction completes or
faults. -/
def Obligations.MxcsrFlagsAreSticky : Prop :=
  ∀ (i : Instr) (s : State),
    (∀ t, exec i s = .next t → BitsBetween s.mxcsr t.mxcsr (s.mxcsr ||| fiveFlags)) ∧
    ∀ f, exec i s = .fault f → BitsBetween s.mxcsr f.after.mxcsr (s.mxcsr ||| fiveFlags)

/-- R76, R17: a completed instruction falls through to the byte after it, and one that raises an exception leaves RIP. -/
def Obligations.ControlFallsThroughOrStays : Prop :=
  ∀ (s : State) (i : Instr) (rest : List Byte), decode (fetchWindow s) = .ok (i, rest) →
    (∃ t, step s = .next t ∧ t.rip = s.rip + BitVec.ofNat 64 ((fetchWindow s).length - rest.length)) ∨
    (∃ f, step s = .fault f ∧ f.after.rip = s.rip)

/-! ## What an instruction does not depend on -/

/-- R50: the effective rounding control is `Imm[1:0]` under `Imm[2]` = 0 and `MXCSR.RC` under `Imm[2]` = 1, with the
codes of Table 5-3. -/
def Obligations.EffectiveRoundingFollowsTable : Prop :=
  (∀ (imm : Byte) (m : BitVec 32), imm.getLsbD 2 = false →
    effectiveRounding imm m = [Rounding.nearest, .down, .up, .truncate][imm.toNat % 4]'(by simp; omega)) ∧
  ∀ (imm : Byte) (m : BitVec 32), imm.getLsbD 2 = true →
    effectiveRounding imm m = [Rounding.nearest, .down, .up, .truncate][m.toNat / 2 ^ 13 % 4]'(by simp; omega)

/-- R50, U1: every form depends on the immediate only through `Imm[2:0]`, and under `Imm[2]` = 1 not on `Imm[1:0]`. -/
def Obligations.OnlyLowImmediateBitsMatter : Prop :=
  ∀ (i : Instr) (s : State) (b b' : Byte),
    (b.extractLsb' 0 3 = b'.extractLsb' 0 3 ∨ (b.getLsbD 2 = true ∧ b'.getLsbD 2 = true)) →
    exec (withImm b i) s = exec (withImm b' i) s

/-- R14, R52: MXCSR.FTZ is ignored. Flipping it flips it in the outcome and changes nothing else. -/
def Obligations.FtzIsIgnored : Prop :=
  ∀ (i : Instr) (s : State),
    exec i { s with mxcsr := s.mxcsr ^^^ 0x8000 } =
      mapOutcome (fun t => { t with mxcsr := t.mxcsr ^^^ 0x8000 }) (exec i s)

/-- R18: no bit of EFLAGS is read (the outcome carries any other value along) or written; the only flags written are the
five of MXCSR, and the opmask registers, the only predicate registers, keep their values. -/
def Obligations.EflagsAreNeitherReadNorWritten : Prop :=
  (∀ (i : Instr) (s : State) (e : BitVec 32),
    exec i { s with eflags := e } = mapOutcome (fun t => { t with eflags := e }) (exec i s)) ∧
  (∀ (i : Instr) (s t : State), exec i s = .next t →
    t.eflags = s.eflags ∧ t.k = s.k ∧ BitsBetween s.mxcsr t.mxcsr (s.mxcsr ||| fiveFlags)) ∧
  ∀ (i : Instr) (s : State) (f : Fault), exec i s = .fault f →
    f.after.eflags = s.eflags ∧ f.after.k = s.k ∧ BitsBetween s.mxcsr f.after.mxcsr (s.mxcsr ||| fiveFlags)

/-- R11, R64, D26: what a disabled source element or a source bit above the elements holds does not matter. A register
form whose destination is its own source is left to RegisterFormsComplete, which says what it writes. -/
def Obligations.DisabledSourceElementsDoNotMatter : Prop :=
  ∀ (i : Instr) (s : State) (x : Zmm), (∀ f, regForm i = some f → f.dst ≠ f.src) →
    (∀ j < elementCount i, enabled s (maskOf i) j = true → singleAt x j = singleAt s.v[sourceReg i] j) →
    exec i (s.writeV (sourceReg i) x) = mapOutcome (fun t => t.writeV (sourceReg i) x) (exec i s)

/-- R12, R64: of the opmask registers a form reads the low `KL` bits of the one it names, and nothing else. -/
def Obligations.OnlyNamedMaskBitsMatter : Prop :=
  ∀ (i : Instr) (s : State) (k' : Vector (BitVec 64) 8),
    (∀ (n : KReg) (j : Nat), maskOf i = .merging n ∨ maskOf i = .zeroing n → j < elementCount i →
      k'[n].getLsbD j = s.k[n].getLsbD j) →
    exec i { s with k := k' } = mapOutcome (fun t => { t with k := k' }) (exec i s)

/-! ## Addresses -/

/-- R39, R40, R41, R61 b: the effective address as exact arithmetic, reduced modulo 2^64 once: displacements are signed,
an 8-bit one is scaled, index number 4 is no index, and RIP-relative counts from the end of the instruction. -/
def Obligations.EffectiveAddressIsExactModulo : Prop :=
  ∀ (s : State) (n len : Nat),
    let disp : Disp → Int := fun d => match d with
      | .absent => 0
      | .d8 b => b.toInt * n
      | .d32 d => d.toInt
    let index : GReg → BitVec 2 → Int := fun i sc => if i.val = 4 then 0 else s.g[i].toNat * 2 ^ sc.toNat
    (∀ b d, ((effectiveAddress s n len (.based b d)).toNat : Int) = (s.g[b].toNat + disp d) % 2 ^ 64) ∧
    (∀ d, ((effectiveAddress s n len (.ripRel d)).toNat : Int) = (s.rip.toNat + len + d.toInt) % 2 ^ 64) ∧
    (∀ b i sc d, ((effectiveAddress s n len (.sib b i sc d)).toNat : Int) =
      (s.g[b].toNat + index i sc + disp d) % 2 ^ 64) ∧
    (∀ i sc d, ((effectiveAddress s n len (.sibNoBase i sc d)).toNat : Int) = (index i sc + d.toInt) % 2 ^ 64)

/-! ## The conversion of one element (the default body of `cvt`, log entry 12)

The statements about forms above hold of every `cvt`: `elementResult` is the function that the configuration selects. -/

/-- R51 to R60 (vA1): the sign is always kept. -/
def Obligations.ConversionKeepsSign : Prop :=
  ∀ (x : Single) (rc : Rounding) (daz : Bool), (cvtDefault x rc daz).half.getLsbD 15 = x.getLsbD 31

/-- R54, R55, R53: NaN, infinity, zero and, with DAZ, denormal sources. -/
def Obligations.SpecialSourcesConvert : Prop :=
  ∀ (x : Single) (rc : Rounding) (daz : Bool),
    (singleExp x = 255 → singleFrac x ≠ 0 →
      (cvtDefault x rc daz).half.toNat =
        x.toNat / 2 ^ 31 * 2 ^ 15 + 0x7C00 + 0x200 + x.toNat / 2 ^ 13 % 2 ^ 9 ∧
      (cvtDefault x rc daz).conds = ⟨!x.getLsbD 22, false, false, false, false⟩) ∧
    (singleExp x = 255 → singleFrac x = 0 →
      cvtDefault x rc daz = ⟨if x.getLsbD 31 then 0xFC00 else 0x7C00, .quiet⟩) ∧
    (singleExp x = 0 → (singleFrac x = 0 ∨ daz = true) →
      cvtDefault x rc daz = ⟨if x.getLsbD 31 then 0x8000 else 0x0000, .quiet⟩)

/-- R60: a denormal source with DAZ = 0, and every other source below 2^-25, is tiny and inexact and gives zero or the
smallest denormal by the rounding control and the sign; only the denormal one has D. -/
def Obligations.VerySmallSourcesConvert : Prop :=
  ∀ (x : Single) (rc : Rounding) (daz : Bool), singleExp x ≠ 255 → singleMagnitude x ≠ 0 →
    singleMagnitude x < 2 ^ 134 → (singleExp x = 0 → daz = false) →
    cvtDefault x rc daz =
      ⟨if x.getLsbD 31 then (if rc = .down then 0x8001 else 0x8000) else (if rc = .up then 0x0001 else 0x0000),
        ⟨false, decide (singleExp x = 0), false, true, true⟩⟩

/-- R58: which finite sources overflow under which rounding control, what is delivered, and when it is inexact. `m` is the
source without its sign; a directed mode that points away from zero overflows right above 65504. -/
def Obligations.OverflowThresholds : Prop :=
  ∀ (x : Single) (rc : Rounding) (daz : Bool), singleExp x ≠ 255 →
    let m := x.toNat % 2 ^ 31
    let away := (rc = .up ∧ x.getLsbD 31 = false) ∨ (rc = .down ∧ x.getLsbD 31 = true)
    ((cvtDefault x rc daz).conds.overflow = true ↔
      (rc = .nearest ∧ 0x477FF000 ≤ m) ∨ (away ∧ 0x477FE001 ≤ m) ∨ 0x47800000 ≤ m) ∧
    ((cvtDefault x rc daz).conds.overflow = true →
      (cvtDefault x rc daz).half.toNat % 2 ^ 15 = (if rc = .nearest ∨ away then 0x7C00 else 0x7BFF) ∧
      ((cvtDefault x rc daz).conds.inexact = true ↔ m % 2 ^ 13 ≠ 0))

/-- R84 (within one element, vA3): an invalid element has no other condition, a denormal one is tiny and inexact too, and
overflow and tiny exclude each other. -/
def Obligations.ConditionsExcludeEachOther : Prop :=
  ∀ (x : Single) (rc : Rounding) (daz : Bool),
    let c := (cvtDefault x rc daz).conds
    (c.invalid = true → c = ⟨true, false, false, false, false⟩) ∧
    (c.denormal = true → c = ⟨false, true, false, true, true⟩) ∧
    ¬(c.overflow = true ∧ c.tiny = true)

/-- R59's equivalent description: for a normal source whose result is normal, keep the sign, subtract 112 from the
exponent field, keep `f[22:13]`, and round on the 13 dropped bits, letting the carry run into the exponent. -/
def Obligations.NormalResultIsShiftAndRound : Prop :=
  ∀ (x : Single) (rc : Rounding) (daz : Bool), singleExp x ≠ 0 → singleExp x ≠ 255 →
    (cvtDefault x rc daz).conds.overflow = false → (cvtDefault x rc daz).conds.tiny = false →
    let kept := x.toNat % 2 ^ 31 / 2 ^ 13 - 112 * 2 ^ 10
    let dropped := x.toNat % 2 ^ 13
    let up : Bool := match rc with
      | .nearest => decide (0x1000 < dropped) || (decide (dropped = 0x1000) && decide (kept % 2 = 1))
      | .down => x.getLsbD 31 && decide (dropped ≠ 0)
      | .up => !x.getLsbD 31 && decide (dropped ≠ 0)
      | .truncate => false
    (cvtDefault x rc daz).half.toNat = x.toNat / 2 ^ 31 * 2 ^ 15 + kept + (if up then 1 else 0) ∧
      (cvtDefault x rc daz).conds.inexact = decide (dropped ≠ 0)

/-- R56 to R59: the conversion rounds correctly. Of all half-precision magnitudes up to 2^16, it delivers the largest not
above the source where the rounding points toward zero, the smallest not below it where the rounding points away from
zero, and a nearest one, the even one of two, under round to nearest. -/
def Obligations.ConversionRoundsCorrectly : Prop :=
  ∀ (x : Single) (rc : Rounding) (daz : Bool), singleExp x ≠ 255 → (singleExp x = 0 → daz = false) →
    (cvtDefault x rc daz).conds.overflow = false →
    let h := (cvtDefault x rc daz).half.toNat % 2 ^ 15
    let r : Int := halfMagnitude h
    let v : Int := singleMagnitude x
    let away := (rc = .up ∧ x.getLsbD 31 = false) ∨ (rc = .down ∧ x.getLsbD 31 = true)
    (away → v ≤ r ∧ ∀ n ≤ 0x7C00, v ≤ halfMagnitude n → r ≤ halfMagnitude n) ∧
    (¬away → rc ≠ .nearest → r ≤ v ∧ ∀ n ≤ 0x7C00, (halfMagnitude n : Int) ≤ v → halfMagnitude n ≤ r) ∧
    (rc = .nearest → ∀ n ≤ 0x7C00, |r - v| ≤ |(halfMagnitude n : Int) - v| ∧
      (|r - v| = |(halfMagnitude n : Int) - v| → n = h ∨ h % 2 = 0))

/-- R52 (vA2): a finite element that does not overflow is exact when and only when the delivered half has the magnitude
of the source. -/
def Obligations.InexactIffValueChanged : Prop :=
  ∀ (x : Single) (rc : Rounding) (daz : Bool), singleExp x ≠ 255 → (singleExp x = 0 → daz = false) →
    (cvtDefault x rc daz).conds.overflow = false →
    ((cvtDefault x rc daz).conds.inexact = false ↔
      halfMagnitude ((cvtDefault x rc daz).half.toNat % 2 ^ 15) = singleMagnitude x)

/-- R50, R56 (vA4): for a finite source the results under the four rounding controls are ordered: truncation is the
directed mode that points toward zero, and round to nearest lies between the two directed modes. -/
def Obligations.RoundingModesAreOrdered : Prop :=
  ∀ (x : Single) (daz : Bool), singleExp x ≠ 255 →
    let h : Rounding → Nat := fun rc => (cvtDefault x rc daz).half.toNat
    (x.getLsbD 31 = false → h .down = h .truncate ∧ h .truncate ≤ h .nearest ∧ h .nearest ≤ h .up) ∧
    (x.getLsbD 31 = true → h .up = h .truncate ∧ h .truncate ≤ h .nearest ∧ h .nearest ≤ h .down)
end

