-- ==== Sys2Proof/Laws/Decode.lean ====
section
/-!
SUPPORT. The bytes of the encoding are their fields, the register numbers are their bits, and a memory operand's bytes
decode to it.
-/
namespace Sys2Proof

/-! ### Bytes and their fields -/

@[simp] theorem ModRM.ofByte_toByte (m : ModRM) : ModRM.ofByte m.toByte = m := by
  obtain ⟨mod, reg, rm⟩ := m
  revert mod reg rm
  decide

@[simp] theorem Sib.ofByte_toByte (s : Sib) : Sib.ofByte s.toByte = s := by
  obtain ⟨scale, index, base⟩ := s
  revert scale index base
  decide

@[simp] theorem VexP1.ofByte_toByte (p : VexP1) : VexP1.ofByte p.toByte = p := by
  obtain ⟨r, x, b, mmmmm⟩ := p
  revert r x b mmmmm
  decide

@[simp] theorem VexP2.ofByte_toByte (p : VexP2) : VexP2.ofByte p.toByte = p := by
  obtain ⟨w, vvvv, l, pp⟩ := p
  revert w vvvv l pp
  decide

@[simp] theorem EvexP0.ofByte_toByte (p : EvexP0) : EvexP0.ofByte p.toByte = p := by
  obtain ⟨r, x, b, r', reserved, mmm⟩ := p
  revert r x b r' reserved mmm
  decide

@[simp] theorem EvexP1.ofByte_toByte (p : EvexP1) : EvexP1.ofByte p.toByte = p := by
  obtain ⟨w, vvvv, fixed, pp⟩ := p
  revert w vvvv fixed pp
  decide

@[simp] theorem EvexP2.ofByte_toByte (p : EvexP2) : EvexP2.ofByte p.toByte = p := by
  obtain ⟨z, ll, b, v', aaa⟩ := p
  revert z ll b v' aaa
  decide

/-! ### Register numbers and their bits (R37) -/

@[simp] theorem gregOf_bits (r : GReg) : gregOf (r.val.testBit 3) (field3 r.val) = r := by
  revert r
  decide

@[simp] theorem vregOf_bits (r : VReg) : vregOf (r.val.testBit 4) (r.val.testBit 3) (field3 r.val) = r := by
  revert r
  decide

/-- A register that a VEX form reaches has no fifth bit. -/
theorem vregOf_bits_vex {r : VReg} (h : r.val < 16) : vregOf false (r.val.testBit 3) (field3 r.val) = r := by
  revert r
  decide

/-- The 3-bit field of a general register as a number. -/
theorem field3_eq_iff (r : GReg) (n : Nat) (h : n < 8) : field3 r.val = BitVec.ofNat 3 n ↔ lowField r = n := by
  have hr : lowField r < 8 := Nat.mod_lt _ (by decide)
  constructor
  · intro e
    have := congrArg BitVec.toNat e
    simp only [field3, BitVec.toNat_ofNat] at this
    simp only [lowField] at hr ⊢
    omega
  · intro e
    apply BitVec.eq_of_toNat_eq
    simp only [field3, BitVec.toNat_ofNat]
    simp only [lowField] at hr e
    omega

/-! ### Displacements and memory operands (R39) -/

@[simp] theorem takeDisp32_bytes (d : BitVec 32) (rest : List Byte) : takeDisp32 (disp32Bytes d ++ rest) = some (d, rest) := by
  simp only [disp32Bytes, List.cons_append, List.nil_append, takeDisp32, Option.some.injEq, Prod.mk.injEq, and_true]
  ext i hi
  simp only [BitVec.getElem_append, BitVec.getElem_extractLsb']
  simp only [← BitVec.getLsbD_eq_getElem hi]
  split
  · congr 1; omega
  · split
    · congr 1; omega
    · split
      · congr 1; omega
      · congr 1; omega

@[simp] theorem takeDisp_bytes (d : Disp) (rest : List Byte) : takeDisp (dispMod d) (dispBytes d ++ rest) = some (d, rest) := by
  cases d <;> simp [takeDisp, dispMod, dispBytes]

/-- The bytes of an encodable memory operand decode to it. -/
theorem decodeMem_memBytes {mem : MemOperand} (h : illMem mem = []) (reg : BitVec 3) (rest : List Byte) :
    ∃ modrm tail, memBytes reg mem = modrm :: tail ∧ (ModRM.ofByte modrm).mod ≠ 3#2 ∧ (ModRM.ofByte modrm).reg = reg ∧
      decodeMem (memX mem) (memB mem) (ModRM.ofByte modrm) (tail ++ rest) = some (mem, rest) := by
  have hmod : ∀ d : Disp, dispMod d ≠ 3#2 := by intro d; cases d <;> simp [dispMod]
  have hmod0 : ∀ d : Disp, dispMod d = 0#2 ↔ d = .absent := by intro d; cases d <;> simp [dispMod]
  cases mem with
  | based b d =>
    have h4 : lowField b ≠ 4 := fun e => by simp [illMem, e] at h
    have h5 : ¬(lowField b = 5 ∧ d = .absent) := fun e => by simp [illMem, e] at h
    refine ⟨_, _, rfl, by simpa using hmod d, by simp, ?_⟩
    have f4 : field3 b.val ≠ 4#3 := fun e => h4 ((field3_eq_iff b 4 (by decide)).1 e)
    have f5 : dispMod d = 0#2 → field3 b.val ≠ 5#3 := fun e0 e =>
      h5 ⟨(field3_eq_iff b 5 (by decide)).1 e, (hmod0 d).1 e0⟩
    simpa [decodeMem, f4, memB] using f5
  | ripRel d =>
    refine ⟨_, _, rfl, by simp, by simp, ?_⟩
    simp [decodeMem]
  | sib b i scale d =>
    have h5 : ¬(lowField b = 5 ∧ d = .absent) := fun e => by simp [illMem, e] at h
    have f5 : dispMod d = 0#2 → field3 b.val ≠ 5#3 := fun e0 e =>
      h5 ⟨(field3_eq_iff b 5 (by decide)).1 e, (hmod0 d).1 e0⟩
    refine ⟨_, _, rfl, by simpa using hmod d, by simp, ?_⟩
    simpa [decodeMem, memX, memB] using f5
  | sibNoBase i scale d =>
    refine ⟨_, _, rfl, by simp, by simp, ?_⟩
    simp [decodeMem, memX]

/-! ### Lengths (R32) -/

@[simp] theorem dispBytes_length (d : Disp) : (dispBytes d).length = dispLength d := by
  cases d <;> rfl

/-- ModRM and what the operand adds. -/
@[simp] theorem memBytes_length (reg : BitVec 3) (mem : MemOperand) : (memBytes reg mem).length = 1 + memLength mem := by
  cases mem <;> simp [memBytes, memLength, disp32Bytes] <;> omega

end Sys2Proof
end

