-- ==== Sys2Proof/Laws/Elements.lean ====
section
/-!
SUPPORT. The elements of an instruction: how many there are, what each is, where it stands in a packed register, and
which bytes a memory form checks.
-/
namespace Sys2Proof.Machine

variable (s : State) (kl : Nat) (m : Masking) (src : VReg) (imm : Byte)

/-! ### The function `cvt` of a configuration (R6) -/

theorem cvtOf_standard {c : Config} (h : c.cvt = .standard) : cvtOf c = cvtDefault := by rw [cvtOf, h]

theorem cvtOf_other {c : Config} {n : Nat} (h : c.cvt = .other n) : cvtOf c = Config.otherCvt n := by rw [cvtOf, h]

/-! ### Conversions (R62 step 5, R64) -/

@[simp] theorem conversions_length : (conversions s kl m src imm).length = kl := by simp [conversions]

/-- Element `j` is converted exactly when it is enabled. -/
theorem conversions_getElem {j : Nat} (h : j < (conversions s kl m src imm).length) :
    (conversions s kl m src imm)[j] =
      if enabled s m j then
        some (cvtOf s.cfg (singleAt s.v[src] j) (effectiveRounding imm s.mxcsr) (mxcsrDaz s.mxcsr))
      else none := by
  simp [conversions]

/-- The conditions of an instruction are those of its enabled elements, in order. -/
theorem conditions_conversions :
    conditions (conversions s kl m src imm) =
      ((List.range kl).filter (enabled s m)).map fun j =>
        (cvtOf s.cfg (singleAt s.v[src] j) (effectiveRounding imm s.mxcsr) (mxcsrDaz s.mxcsr)).conds := by
  simp only [conditions, conversions]
  induction List.range kl with
  | nil => rfl
  | cons j js ih => by_cases h : enabled s m j <;> simp_all

/-! ### Destination elements (R64) -/

@[simp] theorem destHalves_length (old : Zmm) (rs : List (Option Converted)) (j : Nat) :
    (destHalves m old j rs).length = rs.length := by
  induction rs generalizing j with
  | nil => rfl
  | cons r rs ih => cases r <;> simp [destHalves, ih]

/-- Element `i` of the list is the conversion of an enabled element, and what a disabled one becomes otherwise. -/
theorem destHalves_getElem (old : Zmm) (rs : List (Option Converted)) (j i : Nat) (h : i < rs.length) :
    (destHalves m old j rs)[i]'(by simpa using h) =
      match rs[i] with
      | some r => r.half
      | none => disabledHalf m old (j + i) := by
  induction rs generalizing j i with
  | nil => simp at h
  | cons r rs ih =>
    cases i with
    | zero => cases r <;> simp [destHalves]
    | succ i =>
      have e : j + (i + 1) = j + 1 + i := by omega
      cases r <;> simpa [destHalves, e] using ih (j + 1) i (by simpa using h)

/-! ### Packing (R63) -/

/-- Bit `b` of a packed register is bit `b % 16` of element `b / 16`. -/
theorem packHalves_bit (l : List Half) (b : Nat) (hb : b < 512) :
    (packHalves l).getLsbD b = (l[b / 16]?.getD 0).getLsbD (b % 16) := by
  induction l generalizing b with
  | nil => simp [packHalves]
  | cons h t ih =>
    rw [packHalves, BitVec.getLsbD_or, BitVec.getLsbD_shiftLeft, BitVec.getLsbD_setWidth]
    by_cases hlt : b < 16
    · simp [hlt, Nat.div_eq_of_lt hlt, Nat.mod_eq_of_lt hlt, hb]
    · have e : b / 16 = (b - 16) / 16 + 1 := by omega
      have e' : b % 16 = (b - 16) % 16 := by omega
      have hz : h.getLsbD b = false := BitVec.getLsbD_of_ge h b (by omega)
      rw [ih (b - 16) (by omega), e, e']
      simp [hlt, hb, hz]

/-- Element `j` of a packed register. -/
theorem halfAt_packHalves (l : List Half) (j : Nat) (hj : j < 32) : halfAt (packHalves l) j = l[j]?.getD 0 := by
  ext i hi
  have hd : (16 * j + i) / 16 = j := by omega
  have hm : (16 * j + i) % 16 = i := by omega
  have := packHalves_bit l (16 * j + i) (by omega)
  rw [hd, hm] at this
  simpa [halfAt, BitVec.getElem_extractLsb', BitVec.getLsbD_eq_getElem hi] using this

/-- Above its elements a packed register is zero. -/
theorem packHalves_upper (l : List Half) (b : Nat) (hb : 16 * l.length ≤ b) : (packHalves l).getLsbD b = false := by
  by_cases h : b < 512
  · rw [packHalves_bit l b h, List.getElem?_eq_none (by omega)]
    simp
  · exact BitVec.getLsbD_of_ge _ b (by omega)

/-! ### The bytes a memory form checks (R31) -/

/-- A checked byte is one of the two bytes of an element that is enabled, or of any element without suppression. -/
theorem mem_checkedBytes (suppress : Bool) (a x : Nat) (ens : List Bool) :
    x ∈ checkedBytes suppress a ens ↔
      ∃ j, ∃ h : j < ens.length, (ens[j] = true ∨ suppress = false) ∧ (x = a + 2 * j ∨ x = a + 2 * j + 1) := by
  induction ens generalizing a with
  | nil => simp [checkedBytes]
  | cons e es ih =>
    have key : (∃ j, ∃ h : j < (e :: es).length, ((e :: es)[j] = true ∨ suppress = false) ∧
        (x = a + 2 * j ∨ x = a + 2 * j + 1)) ↔
        ((e = true ∨ suppress = false) ∧ (x = a ∨ x = a + 1)) ∨ x ∈ checkedBytes suppress (a + 2) es := by
      rw [ih]
      constructor
      · rintro ⟨j, h, hen, hx⟩
        cases j with
        | zero => exact .inl ⟨by simpa using hen, by omega⟩
        | succ j => exact .inr ⟨j, by simpa using h, by simpa using hen, by omega⟩
      · rintro (⟨hen, hx⟩ | ⟨j, h, hen, hx⟩)
        · exact ⟨0, by simp, by simpa using hen, by omega⟩
        · exact ⟨j + 1, by simpa using h, by simpa using hen, by omega⟩
    rw [key]
    cases e <;> cases suppress <;> simp [checkedBytes, or_assoc]

/-- The checked bytes of a form with its own enables. -/
theorem mem_checkedBytes_enables (suppress : Bool) (a x : Nat) :
    x ∈ checkedBytes suppress a (enables s m kl) ↔
      ∃ j, j < kl ∧ (enabled s m j = true ∨ suppress = false) ∧ (x = a + 2 * j ∨ x = a + 2 * j + 1) := by
  rw [mem_checkedBytes]
  simpa [enables] using exists_congr fun _ => and_left_comm

end Sys2Proof.Machine
end

