-- ==== Sys2Proof/Laws/Flags.lean ====
section
/-!
SUPPORT. The flags a SIMD floating-point report can set, and MXCSR after a raised exception.
-/
namespace Sys2Proof.Machine

/-- Any choice of the five flags lies inside them. -/
theorem flagBits_or_fiveFlags (ie de oe ue pe : Bool) : flagBits ie de oe ue pe ||| fiveFlags = fiveFlags := by
  cases ie <;> cases de <;> cases oe <;> cases ue <;> cases pe <;> decide

/-- R82 sets no bit but the five flags. -/
theorem simdReport_flags_le (mxcsr : BitVec 32) (cs : List Conds) :
    (simdReport mxcsr cs).flags ||| fiveFlags = fiveFlags := by
  simp only [simdReport]
  split
  · exact flagBits_or_fiveFlags ..
  · rw [BitVec.or_assoc, postReport, flagBits_or_fiveFlags]
    exact flagBits_or_fiveFlags ..

/-- An instruction's report sets no bit but the five flags. -/
theorem reportOf_flags_le (sae : Bool) (s : State) (rs : List (Option Converted)) :
    (reportOf sae s rs).flags ||| fiveFlags = fiveFlags := by
  cases sae
  · exact simdReport_flags_le ..
  · exact BitVec.zero_or

/-- With `{sae}` nothing is set and nothing raised. -/
@[simp] theorem reportOf_sae (s : State) (rs : List (Option Converted)) : reportOf true s rs = .suppressed := rfl

@[simp] theorem reportOf_plain (s : State) (rs : List (Option Converted)) :
    reportOf false s rs = simdReport s.mxcsr (conditions rs) := rfl

/-- A bit outside the five flags is set by no value that lies inside them. -/
theorem getLsbD_of_le_fiveFlags {x : BitVec 32} (h : x ||| fiveFlags = fiveFlags) {b : Nat}
    (hb : fiveFlags.getLsbD b = false) : x.getLsbD b = false := by
  have hx : (x ||| fiveFlags).getLsbD b = fiveFlags.getLsbD b := by rw [h]
  simpa [BitVec.getLsbD_or, hb] using hx

/-- MXCSR after a raised exception holds its old bits and the flags of R82. -/
theorem raisedMxcsr_ge (s : State) (flags : BitVec 32) :
    (s.mxcsr ||| flags) ||| raisedMxcsr s flags = raisedMxcsr s flags := by
  simp only [raisedMxcsr]
  ext i hi
  simp

/-- MXCSR after a raised exception holds nothing but its old bits and the five flags. -/
theorem raisedMxcsr_le (s : State) {flags : BitVec 32} (h : flags ||| fiveFlags = fiveFlags) :
    raisedMxcsr s flags ||| (s.mxcsr ||| fiveFlags) = s.mxcsr ||| fiveFlags := by
  ext i hi
  have hf : (flags ||| fiveFlags)[i] = fiveFlags[i] := by rw [h]
  simp only [raisedMxcsr, BitVec.getElem_or, BitVec.getElem_and] at hf ⊢
  revert hf
  cases s.mxcsr[i] <;> cases flags[i] <;> cases fiveFlags[i] <;> simp

end Sys2Proof.Machine
end

