-- ==== Sys2Proof/Laws/State.lean ====
section
/-!
SUPPORT. One lemma per field of State per update, so that no later proof unfolds a record update; and the state that a
fault carries.
-/
namespace Sys2Proof.Machine

variable (s : State)

@[simp] theorem State.writeV_v (n : VReg) (x : Zmm) : (s.writeV n x).v = s.v.set n x := rfl
@[simp] theorem State.writeV_k (n : VReg) (x : Zmm) : (s.writeV n x).k = s.k := rfl
@[simp] theorem State.writeV_mxcsr (n : VReg) (x : Zmm) : (s.writeV n x).mxcsr = s.mxcsr := rfl
@[simp] theorem State.writeV_g (n : VReg) (x : Zmm) : (s.writeV n x).g = s.g := rfl
@[simp] theorem State.writeV_rip (n : VReg) (x : Zmm) : (s.writeV n x).rip = s.rip := rfl
@[simp] theorem State.writeV_eflags (n : VReg) (x : Zmm) : (s.writeV n x).eflags = s.eflags := rfl
@[simp] theorem State.writeV_mem (n : VReg) (x : Zmm) : (s.writeV n x).mem = s.mem := rfl
@[simp] theorem State.writeV_cfg (n : VReg) (x : Zmm) : (s.writeV n x).cfg = s.cfg := rfl
@[simp] theorem State.writeV_draws (n : VReg) (x : Zmm) : (s.writeV n x).draws = s.draws := rfl

@[simp] theorem State.setMxcsr_v (x : BitVec 32) : (s.setMxcsr x).v = s.v := rfl
@[simp] theorem State.setMxcsr_k (x : BitVec 32) : (s.setMxcsr x).k = s.k := rfl
@[simp] theorem State.setMxcsr_mxcsr (x : BitVec 32) : (s.setMxcsr x).mxcsr = x := rfl
@[simp] theorem State.setMxcsr_g (x : BitVec 32) : (s.setMxcsr x).g = s.g := rfl
@[simp] theorem State.setMxcsr_rip (x : BitVec 32) : (s.setMxcsr x).rip = s.rip := rfl
@[simp] theorem State.setMxcsr_eflags (x : BitVec 32) : (s.setMxcsr x).eflags = s.eflags := rfl
@[simp] theorem State.setMxcsr_mem (x : BitVec 32) : (s.setMxcsr x).mem = s.mem := rfl
@[simp] theorem State.setMxcsr_cfg (x : BitVec 32) : (s.setMxcsr x).cfg = s.cfg := rfl
@[simp] theorem State.setMxcsr_draws (x : BitVec 32) : (s.setMxcsr x).draws = s.draws := rfl

@[simp] theorem State.setMem_v (m : Memory) : (s.setMem m).v = s.v := rfl
@[simp] theorem State.setMem_k (m : Memory) : (s.setMem m).k = s.k := rfl
@[simp] theorem State.setMem_mxcsr (m : Memory) : (s.setMem m).mxcsr = s.mxcsr := rfl
@[simp] theorem State.setMem_g (m : Memory) : (s.setMem m).g = s.g := rfl
@[simp] theorem State.setMem_rip (m : Memory) : (s.setMem m).rip = s.rip := rfl
@[simp] theorem State.setMem_eflags (m : Memory) : (s.setMem m).eflags = s.eflags := rfl
@[simp] theorem State.setMem_mem (m : Memory) : (s.setMem m).mem = m := rfl
@[simp] theorem State.setMem_cfg (m : Memory) : (s.setMem m).cfg = s.cfg := rfl
@[simp] theorem State.setMem_draws (m : Memory) : (s.setMem m).draws = s.draws := rfl

@[simp] theorem State.advance_v (len : Nat) : (s.advance len).v = s.v := rfl
@[simp] theorem State.advance_k (len : Nat) : (s.advance len).k = s.k := rfl
@[simp] theorem State.advance_mxcsr (len : Nat) : (s.advance len).mxcsr = s.mxcsr := rfl
@[simp] theorem State.advance_g (len : Nat) : (s.advance len).g = s.g := rfl
@[simp] theorem State.advance_rip (len : Nat) : (s.advance len).rip = s.rip + BitVec.ofNat 64 len := rfl
@[simp] theorem State.advance_eflags (len : Nat) : (s.advance len).eflags = s.eflags := rfl
@[simp] theorem State.advance_mem (len : Nat) : (s.advance len).mem = s.mem := rfl
@[simp] theorem State.advance_cfg (len : Nat) : (s.advance len).cfg = s.cfg := rfl
@[simp] theorem State.advance_draws (len : Nat) : (s.advance len).draws = s.draws := rfl

@[simp] theorem State.drawn_v : s.drawn.v = s.v := rfl
@[simp] theorem State.drawn_k : s.drawn.k = s.k := rfl
@[simp] theorem State.drawn_mxcsr : s.drawn.mxcsr = s.mxcsr := rfl
@[simp] theorem State.drawn_g : s.drawn.g = s.g := rfl
@[simp] theorem State.drawn_rip : s.drawn.rip = s.rip := rfl
@[simp] theorem State.drawn_eflags : s.drawn.eflags = s.eflags := rfl
@[simp] theorem State.drawn_mem : s.drawn.mem = s.mem := rfl
@[simp] theorem State.drawn_cfg : s.drawn.cfg = s.cfg := rfl
@[simp] theorem State.drawn_draws : s.drawn.draws = s.draws + 1 := rfl

@[simp] theorem Fault.after_ud : (Fault.ud s).after = s := rfl
@[simp] theorem Fault.after_nm : (Fault.nm s).after = s := rfl
@[simp] theorem Fault.after_ss (c : BitVec 32) : (Fault.ss c s).after = s := rfl
@[simp] theorem Fault.after_gp (c : BitVec 32) : (Fault.gp c s).after = s := rfl
@[simp] theorem Fault.after_pf (c : BitVec 32) (a : Addr) : (Fault.pf c a s).after = s := rfl
@[simp] theorem Fault.after_xm : (Fault.xm s).after = s := rfl

/-- The register just written reads as written. -/
@[simp] theorem State.writeV_get_self (n : VReg) (x : Zmm) : (s.writeV n x).v[n] = x := by simp

/-- A write to another register is not seen. -/
theorem State.writeV_get_other {n m : VReg} (h : m ≠ n) (x : Zmm) : (s.writeV n x).v[m] = s.v[m] := by
  have : n.val ≠ m.val := fun e => h (Fin.ext e.symm)
  simp [Vector.getElem_set_ne, this]

end Sys2Proof.Machine
end

