-- ==== Sys2Proof/Laws/Ops.lean ====
section
/-!
SUPPORT. Everything the shared operations can do, one lemma each: taking an exception, the memory check, and the two
operations behind every form.
-/
namespace Sys2Proof.Machine

/-! ### Exceptions (R83, R85) -/

/-- Taking an exception ends the step; the state it leaves differs at most in the counter of free values. -/
theorem takeException_fault (e : Exception) (s : State) :
    ∃ f, takeException e s = .fault f ∧ (f.after = s ∨ f.after = s.drawn) := by
  cases e <;> simp [takeException]

/-- A SIMD exception is `#XM` or `#UD`, and the state it leaves differs in MXCSR and the counter alone. -/
theorem takeSimdException_eq (flags : BitVec 32) (s : State) :
    takeSimdException flags s =
      .fault ((if s.cfg.osXmmExcpt then Fault.xm else Fault.ud) (s.setMxcsr (raisedMxcsr s flags)).drawn) := by
  simp only [takeSimdException]
  split <;> rfl

/-! ### The memory check (R81, R84) -/

/-- No memory fault: every byte is writable, so canonical, and has a 64-bit address. -/
theorem storeFault_none {s : State} {stack : Bool} {as : List Nat} :
    storeFault s stack as = none ↔ ∀ a ∈ as, a < 2 ^ 64 ∧ canonical s.cfg a = true ∧ writable s.cfg a = true := by
  simp only [storeFault]
  split
  · rename_i h
    obtain ⟨a, ha, h⟩ := List.any_eq_true.1 h
    simp only [reduceCtorEq, false_iff, not_forall]
    refine ⟨a, ha, fun hh => ?_⟩
    have h' := of_decide_eq_true h
    omega
  · rename_i h
    split
    · rename_i h2
      obtain ⟨a, ha, h2⟩ := List.any_eq_true.1 h2
      simp only [reduceCtorEq, false_iff, not_forall]
      exact ⟨a, ha, fun hh => by simp [hh.2.1] at h2⟩
    · rename_i h2
      simp only [Option.map_eq_none_iff, List.find?_eq_none]
      simp only [List.any_eq_true, not_exists, not_and, decide_eq_true_eq, Nat.not_le] at h h2
      constructor
      · exact fun h3 a ha => ⟨h a ha, by simpa using h2 a ha, by simpa using h3 a ha⟩
      · exact fun h3 a ha => by simp [(h3 a ha).2.2]

/-! ### The forms (R62) -/

/-- Everything a register form can do. -/
theorem convertToRegister_cases (available : Bool) (kl : Nat) (sae : Bool) (dst : VReg) (m : Masking)
    (src : VReg) (imm : Byte) (len : Nat) (s : State) :
    let r := convertToRegister available kl sae dst m src imm len s
    let rs := conversions s kl m src imm
    let fp := reportOf sae s rs
    (available = false ∧ r = .fault (.ud s)) ∨
    (available = true ∧ s.cfg.cr0TS = true ∧ r = .fault (.nm s)) ∨
    (available = true ∧ s.cfg.cr0TS = false ∧ fp.raises = true ∧ r = takeSimdException fp.flags s) ∨
    (available = true ∧ s.cfg.cr0TS = false ∧ fp.raises = false ∧
      r = .next (((s.setMxcsr (s.mxcsr ||| fp.flags)).writeV dst
        (packHalves (destHalves m s.v[dst] 0 rs))).advance len)) := by
  intro r rs fp
  simp only [r, convertToRegister]
  cases available
  · simp [takeException]
  · cases hts : s.cfg.cr0TS
    · cases hfp : fp.raises <;> simp [fp, rs] at hfp ⊢
    · simp [takeException]

/-- Everything a memory form can do. -/
theorem convertToMemory_cases (available : Bool) (kl n : Nat) (dst : MemOperand) (m : Masking) (src : VReg)
    (imm : Byte) (len : Nat) (s : State) :
    let r := convertToMemory available kl n dst m src imm len s
    let a := (effectiveAddress s n len dst).toNat
    let mf := storeFault s (stackBased dst) (checkedBytes s.cfg.maskFaultSuppression a (enables s m kl))
    let rs := conversions s kl m src imm
    let fp := reportOf false s rs
    (available = false ∧ r = .fault (.ud s)) ∨
    (available = true ∧ s.cfg.cr0TS = true ∧ r = .fault (.nm s)) ∨
    (available = true ∧ s.cfg.cr0TS = false ∧ ∃ e, mf = some e ∧ r = takeException e s) ∨
    (available = true ∧ s.cfg.cr0TS = false ∧ mf = none ∧ fp.raises = true ∧ r = takeSimdException fp.flags s) ∨
    (available = true ∧ s.cfg.cr0TS = false ∧ mf = none ∧ fp.raises = false ∧
      r = .next (((s.setMxcsr (s.mxcsr ||| fp.flags)).setMem (Memory.writeElements s.mem a rs)).advance len)) := by
  intro r a mf rs fp
  simp only [r, convertToMemory]
  cases available
  · simp [takeException]
  · cases hts : s.cfg.cr0TS
    · cases hmf : mf with
      | some e => simp [mf, a] at hmf ⊢; simp [hmf]
      | none => cases hfp : fp.raises <;> simp [fp, rs, mf, a] at hfp hmf ⊢ <;> simp [hmf]
    · simp [takeException]

end Sys2Proof.Machine
end

