-- ==== Sys2Proof/Laws/Forms.lean ====
section
/-!
SUPPORT. Every instruction is one of the two shared operations on the parameters that `regForm` and `memForm` tabulate
(R2, R41, R62 to R75), and a memory form's access is admitted exactly when the operation finds no memory fault.
-/
namespace Sys2Proof.Machine

/-- An instruction is a register form or a memory form. -/
theorem form_cases (i : Instr) :
    (∃ f, regForm i = some f ∧ memForm i = none) ∨ (∃ f, memForm i = some f ∧ regForm i = none) := by
  cases i <;> simp [regForm, memForm]

/-- A register form is `convertToRegister` on its row. -/
theorem exec_regForm {i : Instr} {f : RegForm} (h : regForm i = some f) (s : State) :
    exec i s = convertToRegister (formAvailable s.cfg i) f.elements f.sae f.dst f.mask f.src f.imm f.length s := by
  cases i <;> simp only [regForm, Option.some.injEq, reduceCtorEq] at h <;> subst h <;> rfl

/-- A memory form is `convertToMemory` on its row. -/
theorem exec_memForm {i : Instr} {f : MemForm} (h : memForm i = some f) (s : State) :
    exec i s = convertToMemory (formAvailable s.cfg i) f.elements f.scale f.dst f.mask f.src f.imm f.length s := by
  cases i <;> simp only [memForm, Option.some.injEq, reduceCtorEq] at h <;> subst h <;> rfl

/-- The length in a form's row is the instruction's length. -/
theorem regForm_length {i : Instr} {f : RegForm} (h : regForm i = some f) : f.length = instrLength i := by
  cases i <;> simp only [regForm, Option.some.injEq, reduceCtorEq] at h <;> subst h <;> rfl

theorem memForm_length {i : Instr} {f : MemForm} (h : memForm i = some f) : f.length = instrLength i := by
  cases i <;> simp only [memForm, Option.some.injEq, reduceCtorEq] at h <;> subst h <;> rfl

/-- The report of a register form's row is what its meaning computes. -/
theorem RegForm.report_eq (f : RegForm) (s : State) :
    f.report s = reportOf f.sae s (conversions s f.elements f.mask f.src f.imm) := by
  cases h : f.sae
  · simp only [RegForm.report, h, reportOf_plain, conditions_conversions, enabledConds, elementResult]
    rfl
  · simp only [RegForm.report, h, reportOf_sae]
    rfl

/-- The report of a memory form's row is what its meaning computes. -/
theorem MemForm.report_eq (f : MemForm) (s : State) :
    f.report s = reportOf false s (conversions s f.elements f.mask f.src f.imm) := by
  simp only [MemForm.report, reportOf_plain, conditions_conversions, enabledConds, elementResult]

/-! ### The bytes of a memory form -/

/-- The bytes a memory form checks, as the list its meaning computes. -/
def MemForm.checkedList (f : MemForm) (s : State) : List Nat :=
  checkedBytes s.cfg.maskFaultSuppression (f.address s) (enables s f.mask f.elements)

theorem MemForm.checks_iff (f : MemForm) (s : State) (a : Nat) : f.checks s a ↔ a ∈ f.checkedList s := by
  rw [MemForm.checkedList, mem_checkedBytes_enables]
  rfl

/-- An address that a region admits for writing is canonical, and a canonical one has 64 bits. -/
theorem canonical_of_writable {c : Config} {a : Nat} (h : writable c a = true) : canonical c a = true := by
  simp only [writable, Bool.and_eq_true] at h
  exact h.1.1

theorem lt_of_canonical {c : Config} {a : Nat} (h : canonical c a = true) : a < 2 ^ 64 := by
  simp only [canonical, CanonBits.bits] at h
  cases hc : c.canonBits <;> simp [hc] at h <;> omega

/-- The access is admitted exactly when its meaning finds no memory fault (R31, R81). -/
theorem MemForm.admitted_iff (f : MemForm) (s : State) :
    f.admitted s ↔ storeFault s (stackBased f.dst) (f.checkedList s) = none := by
  simp only [MemForm.admitted, MemForm.checks_iff, storeFault_none]
  exact ⟨fun h a ha => ⟨lt_of_canonical (canonical_of_writable (h a ha)), canonical_of_writable (h a ha), h a ha⟩,
    fun h a ha => (h a ha).2.2⟩

end Sys2Proof.Machine
end

