-- ==== Sys2Proof/Laws/Memory.lean ====
section
/-!
SUPPORT. What a write does to every later read, for each memory operation, and that each keeps the canonical form.
-/
namespace Sys2Proof.Machine

/-! ### One byte -/

theorem Memory.read_write_self (m : Memory) (a : Nat) (b : Byte) : Memory.read (Memory.write m a b) a = some b := by
  induction m with
  | nil => simp [Memory.write, Memory.read]
  | cons c t ih =>
    simp only [Memory.write]
    split
    · simp [Memory.read]
    · split
      · simp [Memory.read]
      · rename_i h
        simp [Memory.read, h, ih]

theorem Memory.read_write_other (m : Memory) {a x : Nat} (b : Byte) (h : x ≠ a) :
    Memory.read (Memory.write m a b) x = Memory.read m x := by
  have h' : a ≠ x := fun e => h e.symm
  induction m with
  | nil => simp [Memory.write, Memory.read, h']
  | cons c t ih =>
    simp only [Memory.write]
    split
    · simp [Memory.read, h']
    · split
      · rename_i hc
        simp [Memory.read, h', hc]
      · simp [Memory.read, ih]

/-- Reading any address after writing one byte. -/
theorem Memory.read_write (m : Memory) (a x : Nat) (b : Byte) :
    Memory.read (Memory.write m a b) x = if x = a then some b else Memory.read m x := by
  split
  · rename_i h
    rw [h, Memory.read_write_self]
  · rename_i h
    exact Memory.read_write_other m b h

/-- A write lists the address written and the addresses listed before. -/
theorem Memory.mem_write {m : Memory} {a : Nat} {b : Byte} {c : Host.Cell} (h : c ∈ Memory.write m a b) :
    c = (a, b) ∨ c ∈ m := by
  induction m with
  | nil => simpa [Memory.write] using h
  | cons d t ih =>
    simp only [Memory.write] at h
    split at h
    · simpa using h
    · split at h
      · rcases List.mem_cons.1 h with h | h
        · exact .inl h
        · exact .inr (List.mem_cons_of_mem _ h)
      · rcases List.mem_cons.1 h with h | h
        · exact .inr (h ▸ List.mem_cons_self)
        · exact (ih h).imp id (List.mem_cons_of_mem _)

/-- The empty memory is canonical. -/
theorem Memory.wf_nil : Memory.wf [] := ⟨.nil, by simp⟩

/-- A write keeps the canonical form. -/
theorem Memory.wf_write {m : Memory} {a : Nat} (b : Byte) (hm : m.wf) (ha : a < 2 ^ 64) :
    (Memory.write m a b).wf := by
  refine ⟨?_, fun c hc => ?_⟩
  · obtain ⟨hp, -⟩ := hm
    induction m with
    | nil => simp [Memory.write]
    | cons d t ih =>
      have hp' := List.pairwise_cons.1 hp
      simp only [Memory.write]
      split
      · rename_i hlt
        refine List.pairwise_cons.2 ⟨fun c hc => ?_, hp⟩
        rcases List.mem_cons.1 hc with rfl | hc
        · exact hlt
        · exact Nat.lt_trans hlt (hp'.1 c hc)
      · split
        · rename_i heq
          exact List.pairwise_cons.2 ⟨fun c hc => heq ▸ hp'.1 c hc, hp'.2⟩
        · rename_i hge hne
          refine List.pairwise_cons.2 ⟨fun c hc => ?_, ih hp'.2⟩
          rcases Memory.mem_write hc with rfl | hc
          · exact Nat.lt_of_le_of_ne (Nat.le_of_not_lt hge) hne
          · exact hp'.1 c hc
  · rcases Memory.mem_write hc with rfl | hc
    · exact ha
    · exact hm.2 c hc

/-! ### One element -/

/-- Reading any address after writing one element. -/
theorem Memory.read_writeHalf (m : Memory) (a x : Nat) (h : Half) :
    Memory.read (Memory.writeHalf m a h) x =
      if x = a then some (h.extractLsb' 0 8) else if x = a + 1 then some (h.extractLsb' 8 8) else Memory.read m x := by
  simp only [Memory.writeHalf, Memory.read_write]
  by_cases h1 : x = a
  · subst h1
    simp
  · simp [h1]

theorem Memory.wf_writeHalf {m : Memory} {a : Nat} (h : Half) (hm : m.wf) (ha : a + 1 < 2 ^ 64) :
    (Memory.writeHalf m a h).wf :=
  Memory.wf_write _ (Memory.wf_write _ hm (by omega)) ha

/-! ### All enabled elements -/

/-- An address that no enabled element covers reads as before. -/
theorem Memory.read_writeElements_outside (rs : List (Option Converted)) (m : Memory) (a x : Nat)
    (h : ∀ j (hj : j < rs.length), rs[j] ≠ none → x ≠ a + 2 * j ∧ x ≠ a + 2 * j + 1) :
    Memory.read (Memory.writeElements m a rs) x = Memory.read m x := by
  induction rs generalizing m a with
  | nil => rfl
  | cons r rs ih =>
    have ht : ∀ j (hj : j < rs.length), rs[j] ≠ none → x ≠ a + 2 + 2 * j ∧ x ≠ a + 2 + 2 * j + 1 := by
      intro j hj hne
      have := h (j + 1) (by simpa using hj) (by simpa using hne)
      omega
    cases r with
    | none => simpa [Memory.writeElements] using ih m (a + 2) ht
    | some c =>
      have h0 := h 0 (by simp) (by simp)
      simp only [Memory.writeElements, ih _ _ ht, Memory.read_writeHalf]
      simp_all

/-- An enabled element stands at its two bytes, low byte first. -/
theorem Memory.read_writeElements_at (rs : List (Option Converted)) (m : Memory) (a j : Nat) (c : Converted)
    (h : rs[j]? = some (some c)) :
    Memory.read (Memory.writeElements m a rs) (a + 2 * j) = some (c.half.extractLsb' 0 8) ∧
      Memory.read (Memory.writeElements m a rs) (a + 2 * j + 1) = some (c.half.extractLsb' 8 8) := by
  induction rs generalizing m a j with
  | nil => simp at h
  | cons r rs ih =>
    cases j with
    | zero =>
      obtain rfl : r = some c := by simpa using h
      simp only [Memory.writeElements]
      constructor <;>
      · rw [Memory.read_writeElements_outside _ _ _ _ (by intros; omega)]
        simp [Memory.read_writeHalf]
    | succ j =>
      have h' : rs[j]? = some (some c) := by simpa using h
      have e : a + 2 * (j + 1) = a + 2 + 2 * j := by omega
      rw [e]
      cases r with
      | none => exact ih m (a + 2) j h'
      | some d => exact ih _ (a + 2) j h'

/-- Writing the enabled elements keeps the canonical form when every byte written has a 64-bit address. -/
theorem Memory.wf_writeElements (rs : List (Option Converted)) (m : Memory) (a : Nat) (hm : m.wf)
    (h : ∀ j (hj : j < rs.length), rs[j] ≠ none → a + 2 * j + 1 < 2 ^ 64) : (Memory.writeElements m a rs).wf := by
  induction rs generalizing m a with
  | nil => exact hm
  | cons r rs ih =>
    have ht : ∀ j (hj : j < rs.length), rs[j] ≠ none → a + 2 + 2 * j + 1 < 2 ^ 64 := by
      intro j hj hne
      have := h (j + 1) (by simpa using hj) (by simpa using hne)
      omega
    cases r with
    | none => exact ih m (a + 2) hm ht
    | some c => exact ih _ (a + 2) (Memory.wf_writeHalf _ hm (by simpa using h 0 (by simp) (by simp))) ht

/-! ### The loader -/

theorem Memory.wf_writeBytes (bs : List Byte) (m : Memory) (a : Nat) (hm : m.wf) : (Memory.writeBytes m a bs).wf := by
  induction bs generalizing m a with
  | nil => exact hm
  | cons b bs ih =>
    simp only [Memory.writeBytes]
    split
    · rename_i ha
      exact ih _ _ (Memory.wf_write b hm ha)
    · exact hm

end Sys2Proof.Machine
end

