-- ==== Sys2Proof/Laws/PerInstr.lean ====
section
/-!
SUPPORT. What holds of every instruction as syntax, one lemma per constructor: the encoder writes as many bytes as the
instruction's length says, and there are 6 to 12 of them (R32).
-/
namespace Sys2Proof.Laws.EncodedLength

/-- The encoding has the instruction's length, which is the table's shortest to longest (R32, R65 to R75). -/
def Statement (i : Instr) : Prop :=
  (encode i).length = instrLength i ∧ 6 ≤ instrLength i ∧ instrLength i ≤ longestInstr

/-- A memory operand adds at most a SIB byte and four displacement bytes (R39). -/
theorem memLength_le (m : MemOperand) : memLength m ≤ 5 := by
  have hd : ∀ d, dispLength d ≤ 4 := fun d => by cases d <;> simp [dispLength]
  cases m with
  | based b d => exact Nat.le_succ_of_le (hd d)
  | ripRel d => simp [memLength]
  | sib b i scale d => have := hd d; simp only [memLength]; omega
  | sibNoBase i scale d => simp [memLength]

theorem vex128Reg (d : VReg) (src : VReg) (imm : Byte) : Statement (.vex128Reg d src imm) := by
  simp [Statement, instrLength, longestInstr, encode, encodeVexReg, vexHead]

theorem vex128Mem (d : MemOperand) (src : VReg) (imm : Byte) : Statement (.vex128Mem d src imm) := by
  have := memLength_le d
  simp only [Statement, instrLength, longestInstr, encode, encodeVexMem, vexHead, List.length_append, List.length_cons,
    List.length_nil, memBytes_length]
  omega

theorem vex256Reg (d : VReg) (src : VReg) (imm : Byte) : Statement (.vex256Reg d src imm) := by
  simp [Statement, instrLength, longestInstr, encode, encodeVexReg, vexHead]

theorem vex256Mem (d : MemOperand) (src : VReg) (imm : Byte) : Statement (.vex256Mem d src imm) := by
  have := memLength_le d
  simp only [Statement, instrLength, longestInstr, encode, encodeVexMem, vexHead, List.length_append, List.length_cons,
    List.length_nil, memBytes_length]
  omega

theorem evex128Reg (d : VReg) (m : Masking) (src : VReg) (imm : Byte) : Statement (.evex128Reg d m src imm) := by
  simp [Statement, instrLength, longestInstr, encode, encodeEvexReg, evexHead]

theorem evex128Mem (d : MemOperand) (m : Masking) (src : VReg) (imm : Byte) : Statement (.evex128Mem d m src imm) := by
  have := memLength_le d
  simp only [Statement, instrLength, longestInstr, encode, encodeEvexMem, evexHead, List.length_append, List.length_cons,
    List.length_nil, memBytes_length]
  omega

theorem evex256Reg (d : VReg) (m : Masking) (src : VReg) (imm : Byte) : Statement (.evex256Reg d m src imm) := by
  simp [Statement, instrLength, longestInstr, encode, encodeEvexReg, evexHead]

theorem evex256Mem (d : MemOperand) (m : Masking) (src : VReg) (imm : Byte) : Statement (.evex256Mem d m src imm) := by
  have := memLength_le d
  simp only [Statement, instrLength, longestInstr, encode, encodeEvexMem, evexHead, List.length_append, List.length_cons,
    List.length_nil, memBytes_length]
  omega

theorem evex512Reg (d : VReg) (m : Masking) (src : VReg) (imm : Byte) : Statement (.evex512Reg d m src imm) := by
  simp [Statement, instrLength, longestInstr, encode, encodeEvexReg, evexHead]

theorem evex512RegSae (d : VReg) (m : Masking) (src : VReg) (imm : Byte) : Statement (.evex512RegSae d m src imm) := by
  simp [Statement, instrLength, longestInstr, encode, encodeEvexReg, evexHead]

theorem evex512Mem (d : MemOperand) (m : Masking) (src : VReg) (imm : Byte) : Statement (.evex512Mem d m src imm) := by
  have := memLength_le d
  simp only [Statement, instrLength, longestInstr, encode, encodeEvexMem, evexHead, List.length_append, List.length_cons,
    List.length_nil, memBytes_length]
  omega

end Sys2Proof.Laws.EncodedLength
end

