-- ==== Sys2Proof/Tests/Slice0.lean ====
section
/-!
SUPPORT. The model's own tests: ill-formed terms, words written out from the spec's encodings and vectors of
95_test_vectors.md (each theorem names its vectors), then a witness for every statement that has hypotheses.
-/
namespace Sys2Proof.Tests

-- one theorem after another: each evaluation in a thread of its own would need too much memory
set_option Elab.async false

open Sys2Proof Sys2Proof.Machine

/-! ### Small states and what is looked at -/

/-- A vector register from its 32-bit elements, element 0 first. -/
def vecOf : List Single → Zmm
  | [] => 0
  | x :: xs => (vecOf xs <<< 32) ||| x.setWidth 512

/-- Every bit set: a destination's old contents. -/
def ones : Zmm := BitVec.allOnes 512

/-- RIP at 1000H in 16 bytes of program text, and 2000H to 5FFFH admitted for writing; otherwise the default
configuration of 95_test_vectors.md and the reset values. -/
def start : State :=
  { State.reset with
    rip := 0x1000
    cfg := { Config.launch with regions := [⟨0x1000, 16, .programText⟩, ⟨0x2000, 0x4000, .data⟩] } }

/-- The same with another data region. -/
def admitting (base size : Nat) : State :=
  { start with cfg := { start.cfg with regions := [⟨0x1000, 16, .programText⟩, ⟨base, size, .data⟩] } }

/-- Instruction bytes at RIP. -/
def withCode (bs : List Byte) (s : State) : State := { s with mem := Memory.writeBytes s.mem s.rip.toNat bs }

def withG (n : GReg) (x : Addr) (s : State) : State := { s with g := s.g.set n x }

def withK (n : KReg) (x : BitVec 64) (s : State) : State := { s with k := s.k.set n x }

def withMxcsr (x : BitVec 32) (s : State) : State := s.setMxcsr x

def withV (n : VReg) (xs : List Single) (s : State) : State := s.writeV n (vecOf xs)

/-- A memory that holds CCH at `n` addresses from `a` on. -/
def withCC (a n : Nat) (s : State) : State := { s with mem := Memory.writeBytes s.mem a (List.replicate n 0xCC) }

def isNext : Result → Bool
  | .next _ => true
  | .fault _ => false
  | .refused _ => false

/-- The vector number of the fault (R78). -/
def vectorOf : Result → Option Nat
  | .next _ => none
  | .fault f => some f.vector
  | .refused _ => none

def refusalOf : Result → Option Refusal
  | .next _ => none
  | .fault _ => none
  | .refused r => some r

/-- The state an outcome leaves. -/
def leaves : Result → Option State
  | .next t => some t
  | .fault f => some f.after
  | .refused _ => none

def vAfter (r : Result) (n : VReg) : Option Zmm := (leaves r).map (·.v[n])

def mxcsrAfter (r : Result) : Option (BitVec 32) := (leaves r).map (·.mxcsr)

def ripAfter (r : Result) : Option Addr := (leaves r).map (·.rip)

/-- `n` bytes from address `a` on. -/
def bytesAfter (r : Result) (a n : Nat) : Option (List (Option Byte)) :=
  (leaves r).map fun t => (List.range n).map fun j => Memory.read t.mem (a + j)

theorem exists_next {r : Result} (h : isNext r = true) : ∃ t, r = .next t := by
  cases r with
  | next t => exact ⟨t, rfl⟩
  | fault f => cases h
  | refused e => cases h

theorem exists_fault {r : Result} {n : Nat} (h : vectorOf r = some n) : ∃ f, r = .fault f := by
  cases r with
  | next t => cases h
  | fault f => exact ⟨f, rfl⟩
  | refused e => cases h

/-! ### Ill-formed terms, one for each check -/

theorem test_illFormed_vexRegister : (Instr.vex128Reg 16 0 0).illFormed = [.vexRegisterAbove15] := by decide

theorem test_illFormed_maskK0 : (Instr.evex128Reg 0 (.merging 0) 0 0).illFormed = [.maskRegisterIsK0] := by decide

theorem test_illFormed_zeroingMemory :
    (Instr.evex512Mem (.based 0 .absent) (.zeroing 1) 0 0).illFormed = [.zeroingMemory] := by decide

theorem test_illFormed_baseNeedsSib :
    (Instr.vex256Mem (.based 12 (.d8 0)) 0 0).illFormed = [.baseNeedsSib] := by decide

theorem test_illFormed_baseNeedsDisplacement :
    (Instr.vex128Mem (.sib 13 0 0 .absent) 0 0).illFormed = [.baseNeedsDisplacement] := by decide

/-! ### A decoding for every constructor, from the words of vD1 to vD8, vD21 to vD23, vD34 to vD36 -/

theorem test_decode_vex128Reg : decode [0xC4, 0xE3, 0x79, 0x1D, 0xE4, 0x02] = .ok (.vex128Reg 4 4 0x02, []) := by decide

theorem test_decode_vex128Mem :
    decode [0xC4, 0xE3, 0x79, 0x1D, 0x21, 0x02] = .ok (.vex128Mem (.based 1 .absent) 4 0x02, []) := by decide

theorem test_decode_vex256Reg : decode [0xC4, 0xE3, 0x7D, 0x1D, 0xE4, 0x02] = .ok (.vex256Reg 4 4 0x02, []) := by decide

theorem test_decode_vex256Mem :
    decode [0xC4, 0xE3, 0x7D, 0x1D, 0x21, 0x02] = .ok (.vex256Mem (.based 1 .absent) 4 0x02, []) := by decide

theorem test_decode_evex128Reg :
    decode [0x62, 0xF3, 0x7D, 0x09, 0x1D, 0xD1, 0x00] = .ok (.evex128Reg 1 (.merging 1) 2 0x00, []) := by decide

theorem test_decode_evex128Mem :
    decode [0x62, 0xF3, 0x7D, 0x08, 0x1D, 0x40, 0x01, 0x00] =
      .ok (.evex128Mem (.based 0 (.d8 0x01)) .unmasked 0 0x00, []) := by decide

theorem test_decode_evex256Reg :
    decode [0x62, 0xA3, 0x7D, 0xAA, 0x1D, 0xD1, 0x02] = .ok (.evex256Reg 17 (.zeroing 2) 18 0x02, []) := by decide

theorem test_decode_evex256Mem :
    decode [0x62, 0xE3, 0x7D, 0x29, 0x1D, 0x54, 0x4B, 0x04, 0x01] =
      .ok (.evex256Mem (.sib 3 1 1 (.d8 0x04)) (.merging 1) 18 0x01, []) := by decide

theorem test_decode_evex512Reg :
    decode [0x62, 0xF3, 0x7D, 0xCF, 0x1D, 0xEE, 0xAB] = .ok (.evex512Reg 6 (.zeroing 7) 5 0xAB, []) := by decide

theorem test_decode_evex512RegSae :
    decode [0x62, 0xF3, 0x7D, 0x9A, 0x1D, 0xEE, 0x00] = .ok (.evex512RegSae 6 (.zeroing 2) 5 0x00, []) := by decide

theorem test_decode_evex512Mem :
    decode [0x62, 0x63, 0x7D, 0x4B, 0x1D, 0x7F, 0xFF, 0x00] =
      .ok (.evex512Mem (.based 7 (.d8 0xFF)) (.merging 3) 31 0x00, []) := by decide

/-- vD9, vD10, vD26, vD27: every extension bit of a register number. -/
theorem test_decode_registerExtensions :
    decode [0xC4, 0xC3, 0x79, 0x1D, 0xC7, 0x00] = .ok (.vex128Reg 15 0 0x00, []) ∧
    decode [0xC4, 0x63, 0x79, 0x1D, 0xF9, 0x00] = .ok (.vex128Reg 1 15 0x00, []) ∧
    decode [0x62, 0x93, 0x7D, 0x48, 0x1D, 0xF7, 0x00] = .ok (.evex512Reg 31 .unmasked 6 0x00, []) ∧
    decode [0x62, 0x03, 0x7D, 0x4D, 0x1D, 0xC8, 0x07] = .ok (.evex512Reg 24 (.merging 5) 25 0x07, []) := by decide

/-- vD11, vD12, vD14 to vD16: SIB, no base, displacements, base 5 with `mod` = 01B. -/
theorem test_decode_memoryOperands :
    decode [0xC4, 0xA3, 0x79, 0x1D, 0x04, 0x88, 0x00] = .ok (.vex128Mem (.sib 0 9 2 .absent) 0 0x00, []) ∧
    decode [0xC4, 0xE3, 0x79, 0x1D, 0x04, 0x25, 0x00, 0x30, 0x00, 0x00, 0x05] =
      .ok (.vex128Mem (.sibNoBase 4 0 0x3000) 0 0x05, []) ∧
    decode [0xC4, 0xE3, 0x79, 0x1D, 0x80, 0x00, 0x01, 0x00, 0x00, 0x00] =
      .ok (.vex128Mem (.based 0 (.d32 0x100)) 0 0x00, []) ∧
    decode [0xC4, 0xE3, 0x79, 0x1D, 0x45, 0x00, 0x00] = .ok (.vex128Mem (.based 5 (.d8 0)) 0 0x00, []) ∧
    decode [0xC4, 0xC3, 0x79, 0x1D, 0x45, 0x08, 0x00] = .ok (.vex128Mem (.based 13 (.d8 8)) 0 0x00, []) := by decide

/-- vD18 to vD20, vD28, vD33: R12 through a SIB byte, no index, RIP-relative, index extended by `X`. -/
theorem test_decode_sibAndRipRelative :
    decode [0xC4, 0xC3, 0x79, 0x1D, 0x04, 0x24, 0x00] = .ok (.vex128Mem (.sib 12 4 0 .absent) 0 0x00, []) ∧
    decode [0xC4, 0xE3, 0x79, 0x1D, 0x44, 0x65, 0x10, 0x00] = .ok (.vex128Mem (.sib 5 4 1 (.d8 0x10)) 0 0x00, []) ∧
    decode [0xC4, 0xE3, 0x79, 0x1D, 0x15, 0x10, 0x00, 0x00, 0x00, 0x00] =
      .ok (.vex128Mem (.ripRel 0x10) 2 0x00, []) ∧
    decode [0x62, 0xB3, 0x7D, 0x08, 0x1D, 0x04, 0xF0, 0x00] =
      .ok (.evex128Mem (.sib 0 14 3 .absent) .unmasked 0 0x00, []) ∧
    decode [0x62, 0xF3, 0x7D, 0x08, 0x1D, 0x15, 0x10, 0x00, 0x00, 0x00, 0x01] =
      .ok (.evex128Mem (.ripRel 0x10) .unmasked 2 0x01, []) := by decide

/-- The table's words of R65 and R75 in its own bit numbering: `match` with the bits above it zero. -/
theorem test_decodeTableWord :
    decodeTableWord 40 0xC01D7903C4 = some (.vex128Reg 8 8 0) ∧
    decodeTableWord 48 0x001D487D0362 = some (.evex512Mem (.based 8 .absent) .unmasked 24 0) := by decide

/-! ### Encodings that raise `#UD` (vE1 to vE15) and encodings that are refused (vE16 to vE23) -/

theorem test_decode_invalidVex :
    [[0xC4, 0xE3, 0xF9, 0x1D, 0xC8, 0x00], [0xC4, 0xE3, 0x71, 0x1D, 0xC8, 0x00], [0xC4, 0xE3, 0x39, 0x1D, 0xC8, 0x00],
      [0x66, 0xC4, 0xE3, 0x79, 0x1D, 0xC8, 0x00], [0x48, 0xC4, 0xE3, 0x79, 0x1D, 0xC8, 0x00]].map decode =
    [.error (.invalidOpcode .vexW), .error (.invalidOpcode .vvvv), .error (.invalidOpcode .vvvv),
      .error (.invalidOpcode .legacyPrefix), .error (.invalidOpcode .legacyPrefix)] := by decide

theorem test_decode_invalidEvex :
    [[0x62, 0xF3, 0x75, 0x08, 0x1D, 0xC8, 0x00], [0x62, 0xF3, 0xFD, 0x08, 0x1D, 0xC8, 0x00],
      [0x62, 0xF3, 0x7D, 0x00, 0x1D, 0xC8, 0x00], [0x62, 0xF3, 0x7D, 0x68, 0x1D, 0xC8, 0x00],
      [0x62, 0xF3, 0x7D, 0x88, 0x1D, 0xC8, 0x00], [0x62, 0xF3, 0x7D, 0x89, 0x1D, 0x08, 0x00],
      [0x62, 0xF3, 0x7D, 0x18, 0x1D, 0x08, 0x00], [0x62, 0xFB, 0x7D, 0x08, 0x1D, 0xC8, 0x00],
      [0x62, 0xF3, 0x79, 0x08, 0x1D, 0xC8, 0x00], [0xF0, 0x62, 0xF3, 0x7D, 0x08, 0x1D, 0x08, 0x00]].map decode =
    [.error (.invalidOpcode .vvvv), .error (.invalidOpcode .evexW), .error (.invalidOpcode .evexVPrime),
      .error (.invalidOpcode .reservedLength), .error (.invalidOpcode .zeroingUnmasked),
      .error (.invalidOpcode .zeroingMemory), .error (.invalidOpcode .broadcastMemory),
      .error (.invalidOpcode .evexReservedBit), .error (.invalidOpcode .evexFixedBit),
      .error (.invalidOpcode .legacyPrefix)] := by decide

theorem test_decode_refused :
    [[0x67, 0xC4, 0xE3, 0x79, 0x1D, 0x08, 0x00], [0x64, 0xC4, 0xE3, 0x79, 0x1D, 0x08, 0x00]].map decode =
      [.error .leftOutPrefix, .error .leftOutPrefix] ∧
    ∀ bs ∈ [[0x66, 0x0F, 0x3A, 0x1D, 0xC8, 0x00], [0xC5, 0xF9, 0x1D, 0xC8, 0x00], [0xC4, 0xE2, 0x79, 0x1D, 0xC8, 0x00],
      [0xC4, 0xE3, 0x78, 0x1D, 0xC8, 0x00], [0xC4, 0xE3, 0x7A, 0x1D, 0xC8, 0x00], [0x62, 0xF2, 0x7D, 0x08, 0x1D, 0xC8, 0x00],
      [0x62, 0xF3, 0x7C, 0x08, 0x1D, 0xC8, 0x00], [0xC4, 0xE3, 0x79, 0x1C, 0xC8, 0x00]],
      decode bs = .error .notVcvtps2ph := by decide

/-! ### The conversion of one element (95 §A: 3FFFF000H, 477FF000H, C7800000H, 387FE000H, 387FF000H, B3000000H; R54) -/

/-- The results under the rounding controls 00B, 01B, 10B, 11B. -/
def halves (x : Single) : List Half :=
  [(cvtDefault x .nearest false).half, (cvtDefault x .down false).half, (cvtDefault x .up false).half,
    (cvtDefault x .truncate false).half]

/-- The conditions I, D, O, T, X under the same. -/
def condsOf (x : Single) : List Conds :=
  [(cvtDefault x .nearest false).conds, (cvtDefault x .down false).conds, (cvtDefault x .up false).conds,
    (cvtDefault x .truncate false).conds]

def condX : Conds := ⟨false, false, false, false, true⟩
def condO : Conds := ⟨false, false, true, false, false⟩
def condOX : Conds := ⟨false, false, true, false, true⟩
def condTX : Conds := ⟨false, false, false, true, true⟩

theorem test_convert_halves :
    [0x3FFFF000, 0x477FF000, 0xC7800000, 0x387FE000, 0x387FF000, 0xB3000000].map halves =
      [[0x4000, 0x3FFF, 0x4000, 0x3FFF], [0x7C00, 0x7BFF, 0x7C00, 0x7BFF], [0xFC00, 0xFC00, 0xFBFF, 0xFBFF],
        [0x0400, 0x03FF, 0x0400, 0x03FF], [0x0400, 0x03FF, 0x0400, 0x03FF], [0x8000, 0x8001, 0x8000, 0x8000]] := by
  decide +kernel

theorem test_convert_conditions :
    [0x3FFFF000, 0x477FF000, 0xC7800000, 0x387FE000, 0x387FF000].map condsOf =
      [[condX, condX, condX, condX], [condOX, condX, condOX, condX], [condO, condO, condO, condO],
        [condTX, condTX, condTX, condTX], [condX, condTX, condX, condTX]] := by decide +kernel

theorem test_convert_nan :
    [0x7FC00000, 0x7F800001, 0x7FA00000, 0xFFFFFFFF, 0x7FC02000].map
      (fun x => ((cvtDefault x .up false).half, (cvtDefault x .up false).conds.invalid)) =
      [(0x7E00, false), (0x7E00, true), (0x7F00, true), (0xFFFF, false), (0x7E01, false)] := by decide +kernel

/-! ### One step of every form (95 §F), with the vectors vF1 to vF12 -/

theorem test_vex128Reg :
    let r := step (withCode [0xC4, 0xE3, 0x79, 0x1D, 0xD1, 0x00]
      (withV 2 [0x3F800000, 0xC0000000, 0x477FF000, 0x33000001] (start.writeV 1 ones)))
    vAfter r 1 = some 0x00017C00C0003C00 ∧ mxcsrAfter r = some 0x1FB8 ∧ ripAfter r = some 0x1006 := by decide +kernel

/-- vF12: the destination is the source. -/
theorem test_vex128Reg_inPlace :
    vAfter (step (withCode [0xC4, 0xE3, 0x79, 0x1D, 0xC0, 0x00]
      (withV 0 [0x3F800000, 0x40000000, 0x40400000, 0x40800000] start))) 0 = some 0x4400420040003C00 := by decide +kernel

theorem test_vex128Mem :
    let r := step (withCode [0xC4, 0xE3, 0x79, 0x1D, 0x10, 0x03] (withG 0 0x2001 (withCC 0x2000 10
      (withV 2 [0x3F800000, 0xC0000000, 0x477FF000, 0x33000001] start))))
    bytesAfter r 0x2000 10 = some [some 0xCC, some 0x00, some 0x3C, some 0x00, some 0xC0, some 0xFF, some 0x7B,
      some 0x00, some 0x00, some 0xCC] ∧ mxcsrAfter r = some 0x1FB0 := by decide +kernel

/-- vH2: the first byte that is not admitted is 3000H; nothing is stored. -/
theorem test_vex128Mem_pageFault :
    let r := step (withCode [0xC4, 0xE3, 0x79, 0x1D, 0x10, 0x00] (withG 0 0x2FFC
      (withV 2 [0x3F800000] (admitting 0x2FFC 4))))
    vectorOf r = some 14 ∧ (match r with | .fault f => f.address | _ => none) = some 0x3000 ∧
      bytesAfter r 0x2FFC 2 = some [none, none] ∧ mxcsrAfter r = some 0x1F80 := by decide +kernel

theorem test_vex256Reg :
    let r := step (withCode [0xC4, 0xE3, 0x7D, 0x1D, 0xD1, 0x03] (withV 2 [0x3F801000, 0xBF801000, 0x40490FDB, 0x477FEFFF,
      0x387FF000, 0x7F800000, 0x80000000, 0x7FC00000] (start.writeV 1 ones)))
    vAfter r 1 = some 0x7E0080007C0003FF7BFF4248BC003C00 ∧ mxcsrAfter r = some 0x1FB0 := by decide +kernel

/-- vF4: `MXCSR.RC` rounds, since `Imm[2]` = 1. -/
theorem test_vex256Mem :
    let r := step (withCode [0xC4, 0xE3, 0x7D, 0x1D, 0x58, 0x08, 0x04] (withG 0 0x2000 (withMxcsr 0x3F80
      (withV 3 [0x3F800001, 0xBF800001, 0x3DCCCCCD, 0x3EAAAAAB, 0x42F6E979, 0x38D1B717, 0x3A83126F, 0x47800000] start))))
    bytesAfter r 0x2008 16 = some [some 0x00, some 0x3C, some 0x01, some 0xBC, some 0x66, some 0x2E, some 0x55, some 0x35,
      some 0xB7, some 0x57, some 0x8D, some 0x06, some 0x18, some 0x14, some 0xFF, some 0x7B] ∧
      mxcsrAfter r = some 0x3FA8 := by decide +kernel

/-- vF5: merging. -/
theorem test_evex128Reg_merging :
    let r := step (withCode [0x62, 0xF3, 0x7D, 0x09, 0x1D, 0xD1, 0x00] (withK 1 5
      (withV 2 [0x3F800000, 0x7F800001, 0x40000000, 0x00000001] (start.writeV 1 0xFFFFAAAABBBBCCCCDDDD))))
    vAfter r 1 = some 0xAAAA4000CCCC3C00 ∧ mxcsrAfter r = some 0x1F80 := by decide +kernel

/-- vF5z: zeroing. -/
theorem test_evex128Reg_zeroing :
    vAfter (step (withCode [0x62, 0xF3, 0x7D, 0x89, 0x1D, 0xD1, 0x00] (withK 1 5
      (withV 2 [0x3F800000, 0x7F800001, 0x40000000, 0x00000001] (start.writeV 1 ones))))) 1 =
      some 0x0000400000003C00 := by decide +kernel

theorem test_evex128Mem :
    let r := step (withCode [0x62, 0xF3, 0x7D, 0x09, 0x1D, 0x50, 0x02, 0x00] (withG 0 0x3000 (withK 1 0xA
      (withCC 0x3010 8 (withV 2 [0x3F800000, 0x40000000, 0x40400000, 0x40800000] start)))))
    bytesAfter r 0x3010 8 = some [some 0xCC, some 0xCC, some 0x00, some 0x40, some 0xCC, some 0xCC, some 0x00, some 0x44] ∧
      mxcsrAfter r = some 0x1F80 := by decide +kernel

/-- vH7, vH8 with fault suppression: masked-off elements are not checked. -/
theorem test_evex128Mem_faultSuppression :
    isNext (step (withCode [0x62, 0xF3, 0x7D, 0x09, 0x1D, 0x10, 0x00] (withG 0 0x2FFC (withK 1 3
      (admitting 0x2FFC 4))))) = true ∧
    ripAfter (step (withCode [0x62, 0xF3, 0x7D, 0x09, 0x1D, 0x10, 0x00] (withG 0 0x800000000000 start))) =
      some 0x1007 := by decide +kernel

theorem test_evex256Reg :
    let r := step (withCode [0x62, 0xA3, 0x7D, 0xAA, 0x1D, 0xD1, 0x02] (withK 2 0xB1 (withV 18 [0x3F800001, 0x3F800001,
      0x3F800001, 0x3F800001, 0xBF800001, 0xBF800001, 0xBF800001, 0xBF800001] (start.writeV 17 ones))))
    vAfter r 17 = some 0xBC000000BC00BC000000000000003C01 ∧ mxcsrAfter r = some 0x1FA0 := by decide +kernel

theorem test_evex256Mem :
    let r := step (withCode [0x62, 0xE3, 0x7D, 0x29, 0x1D, 0x54, 0x4B, 0x04, 0x01] (withG 3 0x4000 (withG 1 0x10
      (withK 1 0x0F (withCC 0x4060 10 (withV 18 [0x3F800001, 0xBF800001, 0x33000000, 0xB3000000, 0x7F800001] start))))))
    bytesAfter r 0x4060 10 = some [some 0x00, some 0x3C, some 0x01, some 0xBC, some 0x00, some 0x00, some 0x01, some 0x80,
      some 0xCC, some 0xCC] ∧ mxcsrAfter r = some 0x1FB0 := by decide +kernel

/-- The source of vF9 and vF10, with everything unmasked. -/
def unmaskedSource : State :=
  withMxcsr 0 (withV 5 ([0x7F800001, 0x00000001, 0x7F7FFFFF, 0x3F801000] ++ List.replicate 12 0x3F800000)
    (start.writeV 6 ones))

/-- vF9: `#XM`, the destination and RIP unchanged. -/
theorem test_evex512Reg :
    let r := step (withCode [0x62, 0xF3, 0x7D, 0x48, 0x1D, 0xEE, 0x00] unmaskedSource)
    vectorOf r = some 19 ∧ vAfter r 6 = some ones ∧ ripAfter r = some 0x1000 := by decide +kernel

/-- vF10: the same elements with `{sae}`. -/
theorem test_evex512RegSae :
    let r := step (withCode [0x62, 0xF3, 0x7D, 0x18, 0x1D, 0xEE, 0x00] unmaskedSource)
    vAfter r 6 = some 0x3C003C003C003C003C003C003C003C003C003C003C003C003C007C0000007E00 ∧
      mxcsrAfter r = some 0 ∧ ripAfter r = some 0x1007 := by decide +kernel

theorem test_evex512Mem :
    let r := step (withCode [0x62, 0x63, 0x7D, 0x4B, 0x1D, 0x7F, 0xFF, 0x00] (withG 7 0x5020 (withK 3 0x8001
      (withCC 0x5000 4 (withV 31 ([0x3F800000] ++ List.replicate 14 0x7F800001 ++ [0xC0490FDB]) start)))))
    bytesAfter r 0x5000 4 = some [some 0x00, some 0x3C, some 0xCC, some 0xCC] ∧
      bytesAfter r 0x501E 2 = some [some 0x48, some 0xC2] ∧ mxcsrAfter r = some 0x1FA0 := by decide +kernel

/-! ### Flags (95 §C) and configuration (95 §G) -/

/-- The report of R82 on `C4 E3 79 1D D1 00` with the given element 0 and MXCSR. -/
def reportFor (x : Single) (mxcsr : BitVec 32) : FpReport :=
  simdReport mxcsr [(cvtDefault x .nearest (mxcsrDaz mxcsr)).conds]

/-- vC2, vC5, vC6, vC11 to vC16, vC22: the flags to be set, and whether an exception is raised. -/
theorem test_flags :
    [reportFor 0x7F800001 0x1F00, reportFor 0x00000001 0x1E80, reportFor 0x00000001 0x1780, reportFor 0x47800000 0x1F80,
      reportFor 0x47800000 0x1B80, reportFor 0x47800000 0x0F80, reportFor 0x477FF000 0x1B80, reportFor 0x33800000 0x1F80,
      reportFor 0x33800000 0x1780, reportFor 0x3F800000 0x0000] =
    [⟨0x01, true⟩, ⟨0x02, true⟩, ⟨0x32, true⟩, ⟨0x28, false⟩, ⟨0x08, true⟩, ⟨0x28, true⟩, ⟨0x28, true⟩, ⟨0x00, false⟩,
      ⟨0x10, true⟩, ⟨0x00, false⟩] := by decide +kernel

/-- vG5, vG6: without AVX512VL and AVX10.1 the 512-bit form runs and the 128-bit one raises `#UD`. -/
theorem test_availability :
    let s := { start with cfg := { start.cfg with hasAvx512VL := false, hasAvx10_1 := false } }
    vectorOf (step (withCode [0x62, 0xF3, 0x7D, 0x08, 0x1D, 0xD1, 0x00] s)) = some 6 ∧
      isNext (step (withCode [0x62, 0xF3, 0x7D, 0x48, 0x1D, 0xD1, 0x00] s)) = true := by decide +kernel

/-- The very next step after placing a table word runs it. -/
theorem test_withFetchWord :
    ripAfter (step (State.reset.withFetchWord 40 0xC01D7903C4)) = some 0xFFFFFFF6 ∧
      ripAfter (step (State.reset.withFetchWord 48 0x001D487D0362)) = some 0xFFFFFFF7 := by decide +kernel

/-! ### Witnesses: a concrete state and operands for the hypotheses of each statement, clause by clause

The name of each says which statement of Certificates/Slice0/Obligations.lean it is for. -/

/-- One register form of each kind, with masks of each kind and `dst` = `src` once. -/
def someRegForms : List Instr :=
  [.vex128Reg 1 2 0, .vex256Reg 15 15 4, .evex128Reg 31 (.merging 1) 2 1, .evex256Reg 1 (.zeroing 7) 2 2,
    .evex512Reg 1 .unmasked 2 3, .evex512RegSae 1 (.merging 2) 31 7]

/-- One memory form of each kind, one per kind of operand and once more with RSP; all addresses lie in 2000H to 5FFFH of
`wide`. -/
def someMemForms : List Instr :=
  [.vex128Mem (.based 0 .absent) 2 0, .vex256Mem (.ripRel 0x1000) 2 4, .evex128Mem (.sib 4 4 0 (.d8 0x7F)) (.merging 1) 2 1,
    .evex256Mem (.sibNoBase 4 3 0x3000) .unmasked 2 2, .evex512Mem (.based 8 (.d8 0x80)) (.merging 2) 31 3]

/-- Bases inside the data region, a mask with some elements enabled, elements with masked conditions. -/
def wide : State :=
  withG 0 0x2000 (withG 4 0x2000 (withG 8 0x4000 (withK 1 0x5 (withK 2 0xFF0F
    (withV 2 [0x3F801000, 0x00000001, 0x7F800001, 0x47800000] start)))))

/-- The hypotheses of the statements about a register form that completes, as a computation. -/
def regReady (s : State) (i : Instr) : Bool :=
  match regForm i with
  | some f => formAvailable s.cfg i && !s.cfg.cr0TS && !(f.report s).raises
  | none => false

/-- The same for a memory form. -/
def memReady (s : State) (i : Instr) : Bool :=
  match memForm i with
  | some f =>
    formAvailable s.cfg i && !s.cfg.cr0TS && !(f.report s).raises &&
      decide (storeFault s (stackBased f.dst) (f.checkedList s) = none)
  | none => false

theorem regReady_spec {s : State} {i : Instr} (h : regReady s i = true) :
    ∃ f, regForm i = some f ∧ Runnable s i ∧ (f.report s).raises = false := by
  unfold regReady at h
  split at h
  · rename_i f hf
    exact ⟨f, hf, by simpa [Runnable, and_assoc] using h⟩
  · cases h

theorem memReady_spec {s : State} {i : Instr} (h : memReady s i = true) :
    ∃ f, memForm i = some f ∧ Runnable s i ∧ f.admitted s ∧ (f.report s).raises = false := by
  unfold memReady at h
  split at h
  · rename_i f hf
    simp only [Bool.and_eq_true, Bool.not_eq_true', decide_eq_true_eq] at h
    exact ⟨f, hf, ⟨h.1.1.1, h.1.1.2⟩, f.admitted_iff s |>.2 h.2, h.1.2⟩
  · cases h

theorem test_witness_DecodeEncodeRoundTrip :
    (∀ i ∈ someRegForms, i.WellFormed) ∧ (∀ i ∈ someMemForms, i.WellFormed) := by decide

theorem test_witness_DecodedIsWellFormedAndMeasured :
    decode [0x62, 0xF3, 0x7D, 0x28, 0x1D, 0x40, 0x01, 0x00, 0xC4] =
      .ok (.evex256Mem (.based 0 (.d8 1)) .unmasked 0 0, [0xC4]) := by decide

theorem test_witness_IllegalEncodingsRaiseUd_vex :
    fetchWindow (withCode [0xC4, 0xE3, 0xF9, 0x1D, 0xC8, 0x00] start) = [0xC4, 0xE3, 0xF9, 0x1D, 0xC8, 0x00] ∧
    fetchWindow (withCode [0xC4, 0xE3, 0x71, 0x1D, 0xC8, 0x00] start) = [0xC4, 0xE3, 0x71, 0x1D, 0xC8, 0x00] ∧
    (0xE3#8).extractLsb' 0 5 = 3#5 ∧ (0xF9#8).extractLsb' 0 2 = 1#2 ∧ (0xF9#8).getLsbD 7 = true ∧
    (0x71#8).extractLsb' 0 2 = 1#2 ∧ (0x71#8).extractLsb' 3 4 ≠ 15#4 := by decide +kernel

theorem test_witness_IllegalEncodingsRaiseUd_evex :
    fetchWindow (withCode [0x62, 0xF3, 0x75, 0x08, 0x1D, 0xC8, 0x00] start) = [0x62, 0xF3, 0x75, 0x08, 0x1D, 0xC8, 0x00] ∧
    (0xF3#8).extractLsb' 0 3 = 3#3 ∧ (0x75#8).extractLsb' 0 2 = 1#2 ∧ (0x75#8).extractLsb' 3 4 ≠ 15#4 := by
  decide +kernel

/-- One word for each of the eight clauses, and what it makes the step do. -/
theorem test_witness_EvexReservedEncodingsRaiseUd :
    (∀ w ∈ [[0x62, 0xFB, 0x7D, 0x08, 0x1D, 0xC8, 0x00], [0x62, 0xF3, 0x79, 0x08, 0x1D, 0xC8, 0x00],
      [0x62, 0xF3, 0xFD, 0x08, 0x1D, 0xC8, 0x00], [0x62, 0xF3, 0x7D, 0x00, 0x1D, 0xC8, 0x00],
      [0x62, 0xF3, 0x7D, 0x88, 0x1D, 0xC8, 0x00], [0x62, 0xF3, 0x7D, 0x89, 0x1D, 0x08, 0x00],
      [0x62, 0xF3, 0x7D, 0x18, 0x1D, 0x08, 0x00], [0x62, 0xF3, 0x7D, 0x68, 0x1D, 0xC8, 0x00]],
      fetchWindow (withCode w start) = w ∧ vectorOf (step (withCode w start)) = some 6) ∧
    (0xFB#8).getLsbD 3 = true ∧ (0x79#8).getLsbD 2 = false ∧ (0xFD#8).getLsbD 7 = true ∧ (0x00#8).getLsbD 3 = false ∧
    ((0x88#8).getLsbD 7 = true ∧ (0x88#8).extractLsb' 0 3 = 0#3) ∧
    ((0x89#8).getLsbD 7 = true ∧ (0x08#8).extractLsb' 6 2 ≠ 3#2) ∧
    ((0x18#8).getLsbD 4 = true ∧ (0x08#8).extractLsb' 6 2 ≠ 3#2) ∧
    ((0x68#8).getLsbD 4 = false ∧ (0x68#8).extractLsb' 5 2 = 3#2) := by decide +kernel

/-- vD29 to vD31. -/
theorem test_witness_SaeIgnoresVectorLength :
    (EvexP2.ofByte 0x18).b = true ∧ (0xEE#8).extractLsb' 6 2 = 3#2 ∧
    ∀ b ∈ [0x18, 0x38, 0x58, 0x78],
      decode [0x62, 0xF3, 0x7D, b, 0x1D, 0xEE, 0x00] = .ok (.evex512RegSae 6 .unmasked 5 0x00, []) := by decide +kernel

/-- F0H, 40H and 4FH, a segment override after 66H, 67H with 64H, and a segment override before vE1 (illegal). -/
theorem test_witness_PrefixBytesRejectTheInstruction :
    let bs : List Byte := [0xC4, 0xE3, 0x79, 0x1D, 0xC8, 0x00]
    let ill : List Byte := [0xC4, 0xE3, 0xF9, 0x1D, 0xC8, 0x00]
    decode bs = .ok (.vex128Reg 0 1 0, []) ∧ decode ill = .error (.invalidOpcode .vexW) ∧
    (∀ ps ∈ [[0xF0], [0x40], [0x4F], [0x66, 0x2E]], fetchWindow (withCode (ps ++ bs) start) = ps ++ bs ∧
      (∃ p ∈ ps, lockRepOrRex p) ∧ (∀ p ∈ ps, lockRepOrRex p ∨ segmentOrAddressSize p) ∧
      vectorOf (step (withCode (ps ++ bs) start)) = some 6) ∧
    (∀ ps ∈ [[0x26], [0x67, 0x64]], fetchWindow (withCode (ps ++ bs) start) = ps ++ bs ∧
      (∀ p ∈ ps, segmentOrAddressSize p) ∧ refusalOf (step (withCode (ps ++ bs) start)) = some .leftOutPrefix) ∧
    fetchWindow (withCode ([0x2E] ++ ill) start) = [0x2E] ++ ill ∧
    vectorOf (step (withCode ([0x2E] ++ ill) start)) = some 6 := by decide +kernel

theorem test_witness_OtherInstructionsAreRefused :
    ∀ w ∈ [[0xC4, 0xE2, 0x79, 0x1D, 0xC8, 0x00], [0xC4, 0xE3, 0x78, 0x1D, 0xC8, 0x00], [0xC4, 0xE3, 0x79, 0x1C, 0xC8, 0x00],
      [0x62, 0xF2, 0x7D, 0x08, 0x1D, 0xC8, 0x00], [0x62, 0xF3, 0x7C, 0x08, 0x1D, 0xC8, 0x00],
      [0x62, 0xF3, 0x7D, 0x08, 0x1C, 0xC8, 0x00], [0xC5, 0xF9, 0x1D, 0xC8, 0x00]],
      fetchWindow (withCode w start) = w ∧ refusalOf (step (withCode w start)) = some .notVcvtps2ph := by decide +kernel

theorem test_witness_StepRunsDecodedInstruction :
    decode (fetchWindow (withCode [0xC4, 0xE3, 0x79, 0x1D, 0xC8, 0x00, 0x90] start)) =
      .ok (.vex128Reg 0 1 0, [0x90]) := by decide +kernel

theorem test_witness_ProgramTextAtRipRuns :
    let i : Instr := .evex512Mem (.sib 4 9 2 (.d32 0x10)) (.merging 2) 31 3
    let s := withCode (encode i) start
    i.WellFormed ∧ ∀ n < instrLength i, fetchable s.cfg (s.rip.toNat + n) = true ∧
      Memory.read s.mem (s.rip.toNat + n) = (encode i)[n]? := by decide +kernel

theorem test_witness_FetchOutsideProgramTextIsRefused :
    fetchable State.reset.cfg State.reset.rip.toNat = false ∧ fetchable start.cfg 0x100F = true ∧
      refusalOf (step State.reset) = some .fetchNotAdmitted := by decide +kernel

/-- The third clause: the last byte lies past the program text, and the last byte holds no value. -/
theorem test_witness_FetchOutsideProgramTextIsRefused_later :
    let i : Instr := .vex128Reg 1 2 0
    let s := withCode (encode i) { start with rip := 0x100B }
    let s' := withCode ((encode i).take 5) start
    i.WellFormed ∧ instrLength i = 6 ∧
    (∀ n < 5, fetchable s.cfg (s.rip.toNat + n) = true ∧ Memory.read s.mem (s.rip.toNat + n) = (encode i)[n]?) ∧
    fetchable s.cfg (s.rip.toNat + 5) = false ∧ refusalOf (step s) = some .fetchNotAdmitted ∧
    (∀ n < 5, fetchable s'.cfg (s'.rip.toNat + n) = true ∧ Memory.read s'.mem (s'.rip.toNat + n) = (encode i)[n]?) ∧
    Memory.read s'.mem (s'.rip.toNat + 5) = none ∧ refusalOf (step s') = some .fetchNotAdmitted := by decide +kernel

/-- The choice of log entry 24: VEX.W = 1 is told before the bytes run out. -/
theorem test_truncatedIllegalEncoding :
    vectorOf (step (withCode [0xC4, 0xE3, 0xF9, 0x1D] start)) = some 6 ∧
      refusalOf (step (withCode [0xC4, 0xE3, 0xF9] start)) = some .fetchNotAdmitted := by decide +kernel

/-- For each register form: the hypotheses, an enabled element and, under both masks, a disabled one. -/
theorem test_witness_RegisterFormsComplete :
    (∀ i ∈ someRegForms, regReady wide i = true) ∧
    enabled wide (.merging 1) 0 = true ∧ enabled wide (.merging 1) 3 = false ∧ enabled wide (.zeroing 7) 7 = false := by
  decide +kernel

theorem test_witness_Vex128RegWritesPseudocodeResult :
    wide.cfg.hasF16C = true ∧ wide.cfg.osAvxEnabled = true ∧ wide.cfg.cr0TS = false ∧
    (simdReport wide.mxcsr ((List.range 4).map fun j => (elementResult wide 2 0 j).conds)).raises = false := by
  decide +kernel

theorem test_witness_Vex256RegWritesPseudocodeResult :
    wide.cfg.hasF16C = true ∧ wide.cfg.osAvxEnabled = true ∧ wide.cfg.cr0TS = false ∧
    (simdReport wide.mxcsr ((List.range 8).map fun j => (elementResult wide 2 7 j).conds)).raises = false := by
  decide +kernel

/-- For each memory form. -/
theorem test_witness_MemoryFormsComplete : ∀ i ∈ someMemForms, memReady wide i = true := by decide +kernel

/-- The forms of RegisterFormsFrame and of the first clause of ElementsArePlacedInOrder. -/
theorem test_witness_RegisterFormsFrame :
    ∀ i ∈ someRegForms, (∃ f, regForm i = some f) ∧ ∃ t, exec i wide = .next t := by
  have h : ∀ i ∈ someRegForms, (regForm i).isSome = true ∧ isNext (exec i wide) = true := by decide +kernel
  exact fun i hi => ⟨Option.isSome_iff_exists.1 (h i hi).1, exists_next (h i hi).2⟩

/-- The forms of MemoryFormsFrame; and a byte that is not stored to. -/
theorem test_witness_MemoryFormsFrame :
    (∀ i ∈ someMemForms, (∃ f, memForm i = some f) ∧ ∃ t, exec i wide = .next t) ∧
    ∀ f, memForm (.evex128Mem (.based 0 .absent) (.merging 1) 2 1) = some f → ¬f.stores wide 0x2002 := by
  have h : ∀ i ∈ someMemForms, (memForm i).isSome = true ∧ isNext (exec i wide) = true := by decide +kernel
  refine ⟨fun i hi => ⟨Option.isSome_iff_exists.1 (h i hi).1, exists_next (h i hi).2⟩, fun f hf => ?_⟩
  cases hf
  unfold MemForm.stores
  decide +kernel

/-- For ElementsArePlacedInOrder and StoresAreTheOperandAndNothingIsLoaded: both kinds of form complete, elements 0 and 2
of the masked store are enabled and 1 and 3 are not, and a form faults. -/
theorem test_witness_ElementsArePlacedInOrder :
    (∃ t, exec (.vex128Reg 1 2 0) wide = .next t) ∧
    (∃ t, exec (.vex128Mem (.based 0 .absent) 2 0) wide = .next t) ∧
    (∃ t, exec (.evex128Mem (.based 0 .absent) (.merging 1) 2 0) wide = .next t) ∧
    bytesAfter (exec (.vex128Mem (.based 0 .absent) 2 0) wide) 0x2006 2 = some [some 0x00, some 0x7C] ∧
    ((List.range 4).map (enabled wide (.merging 1))) = [true, false, true, false] ∧
    ∃ e, exec (.evex512Reg 6 .unmasked 5 0) unmaskedSource = .fault e := by
  refine ⟨exists_next (by decide +kernel), exists_next (by decide +kernel), exists_next (by decide +kernel),
    by decide +kernel, by decide +kernel, exists_fault (n := 19) (by decide +kernel)⟩

/-- With everything unmasked, and with a `cvt` of which nothing is known. -/
theorem test_witness_SaeFormAlwaysCompletes :
    let s := { unmaskedSource with cfg := { unmaskedSource.cfg with cvt := .other 0 } }
    s.mxcsr = 0 ∧ s.cfg.hasAvx512F = true ∧ s.cfg.osAvx512Enabled = true ∧ s.cfg.cr0TS = false ∧
    enabled s .unmasked 15 = true := by decide

theorem test_witness_MaskedExceptionsNeverStop :
    (∀ i ∈ someMemForms, Runnable wide i ∧ ∃ f, memForm i = some f ∧ f.admitted wide) ∧
    mxcsrIm wide.mxcsr = true ∧ mxcsrDm wide.mxcsr = true ∧ mxcsrOm wide.mxcsr = true ∧ mxcsrUm wide.mxcsr = true ∧
    mxcsrPm wide.mxcsr = true := by
  refine ⟨fun i hi => ?_, by decide⟩
  obtain ⟨f, h1, h2, h3, -⟩ := memReady_spec (test_witness_MemoryFormsComplete i hi)
  exact ⟨h2, f, h1, h3⟩

/-- vH8: a non-canonical address. -/
theorem test_witness_AllZeroMaskStoresNothing :
    let s := withG 0 0x800000000000 start
    let i : Instr := .evex128Mem (.based 0 .absent) (.merging 1) 2 0
    (formAvailable s.cfg i = true ∧ s.cfg.cr0TS = false) ∧ s.cfg.maskFaultSuppression = true ∧
    ∀ j < 4, enabled s (.merging 1) j = false := by decide +kernel

/-- `CR4.OSXSAVE` = 0: no form is available. -/
theorem test_witness_AbsentFeatureRaisesUd :
    let c := { start.cfg with osAvxEnabled := false, osAvx512Enabled := false }
    ∀ i ∈ someRegForms ++ someMemForms, formAvailable c i = false := by decide

theorem test_witness_TaskSwitchedRaisesNm :
    let s := { start with cfg := { start.cfg with cr0TS := true } }
    (∀ i ∈ someRegForms ++ someMemForms, formAvailable s.cfg i = true) ∧ s.cfg.cr0TS = true ∧
    vectorOf (exec (.vex128Reg 1 2 0) s) = some 7 := by decide +kernel

/-- `vcvtps2ph [rbp], xmm2, 0` and `vcvtps2ph [rax], xmm2, 0`. -/
def storeRbp : Instr := .vex128Mem (.based 5 (.d8 0)) 2 0
def storeRax : Instr := .vex128Mem (.based 0 .absent) 2 0

/-- vH3 to vH6: past 2^64 by one byte and exactly up to it, then a non-canonical byte with and without RBP. -/
theorem test_witness_NonCanonicalStoreRaisesSsOrGp :
    (∃ f, memForm storeRax = some f ∧ ∃ a, f.checks (withG 0 0xFFFFFFFFFFFFFFF9 start) a ∧ 2 ^ 64 ≤ a) ∧
    vectorOf (exec storeRax (withG 0 0xFFFFFFFFFFFFFFF9 start)) = some 13 ∧
    vectorOf (exec storeRax (withG 0 0xFFFFFFFFFFFFFFF8 start)) = some 14 ∧
    (∃ f, memForm storeRax = some f ∧ ∃ a, f.checks (withG 0 0x7FFFFFFFFFFC start) a ∧
      canonical start.cfg a = false) ∧
    vectorOf (exec storeRax (withG 0 0x7FFFFFFFFFFC start)) = some 13 ∧
    vectorOf (exec storeRbp (withG 5 0x7FFFFFFFFFFC start)) = some 12 ∧
    vectorOf (exec storeRbp (withG 5 0xFFFF7FFFFFFFFFFF start)) = some 12 := by
  refine ⟨⟨_, rfl, 2 ^ 64, ⟨3, by decide +kernel⟩, by decide⟩, by decide +kernel, by decide +kernel,
    ⟨_, rfl, 0x800000000000, ⟨2, by decide +kernel⟩, by decide⟩, by decide +kernel, by decide +kernel, by decide +kernel⟩

/-- vH2: 2FFCH to 2FFFH are admitted, 3000H is the first byte that is not. -/
theorem test_witness_UnadmittedStoreRaisesPf :
    ∃ f, memForm storeRax = some f ∧
      let s := withG 0 0x2FFC (admitting 0x2FFC 4)
      (∀ x, f.checks s x → canonical s.cfg x = true) ∧ f.checks s 0x3000 ∧ writable s.cfg 0x3000 = false ∧
      ∀ x, f.checks s x → x < 0x3000 → writable s.cfg x = true := by
  refine ⟨_, rfl, ?_⟩
  intro s
  simp only [MemForm.checks_iff]
  decide +kernel

/-- vF9, vC29, vH10: an unmasked invalid with either value of `OSXMMEXCPT`, and in a memory form. -/
theorem test_witness_UnmaskedConditionRaisesSimdException :
    (∃ f, regForm (.evex512Reg 6 .unmasked 5 0) = some f ∧ (f.report unmaskedSource).raises = true) ∧
    vectorOf (exec (.evex512Reg 6 .unmasked 5 0)
      { unmaskedSource with cfg := { unmaskedSource.cfg with osXmmExcpt := false } }) = some 6 ∧
    ∃ f, memForm storeRax = some f ∧
      f.admitted (withG 0 0x3000 (withMxcsr 0x1F00 wide)) ∧
      (f.report (withG 0 0x3000 (withMxcsr 0x1F00 wide))).raises = true := by
  refine ⟨⟨_, rfl, by decide +kernel⟩, by decide +kernel, _, rfl, ?_, by decide +kernel⟩
  rw [MemForm.admitted_iff]
  decide +kernel

/-- vC6, in a register form and in a memory form, with an invalid element that is masked. -/
theorem test_witness_DenormalSourceRaisesWithDeUePe :
    let s := withMxcsr 0x1780 wide
    enabled s .unmasked 1 = true ∧ singleExp (singleAt s.v[2] 1) = 0 ∧ singleFrac (singleAt s.v[2] 1) ≠ 0 ∧
    mxcsrDaz s.mxcsr = false ∧ mxcsrDm s.mxcsr = true ∧ mxcsrUm s.mxcsr = false ∧ mxcsrIm s.mxcsr = true ∧
    s.cfg.cvt = .standard ∧ (elementResult s 2 0 1).conds = ⟨false, true, false, true, true⟩ ∧
    formAvailable s.cfg (.vex128Reg 1 2 0) = true ∧ s.cfg.cr0TS = false ∧
    vectorOf (exec (.vex128Reg 1 2 0) s) = some 19 ∧
    storeFault s false ((checkedBytes true 0x2000 (enables s .unmasked 4))) = none ∧
    vectorOf (exec (.vex128Mem (.based 0 .absent) 2 0) s) = some 19 := by decide +kernel

/-- A `#UD` of an encoding and of an unavailable form, a `#NM`, a `#GP`, a `#SS`, a `#PF` and an `#XM`; each step
faults. -/
theorem test_witness_FaultsArePrecise :
    (∃ f, step (withCode [0xC4, 0xE3, 0xF9, 0x1D, 0xC8, 0x00] start) = .fault f) ∧
    (∃ f, step (withCode [0xC4, 0xE3, 0x79, 0x1D, 0xD1, 0x00]
      { start with cfg := { start.cfg with osAvxEnabled := false, osXmmExcpt := false } }) = .fault f) ∧
    (∃ f, step (withCode [0xC4, 0xE3, 0x79, 0x1D, 0xD1, 0x00]
      { start with cfg := { start.cfg with cr0TS := true } }) = .fault f) ∧
    (∃ f, step (withCode [0xC4, 0xE3, 0x79, 0x1D, 0x10, 0x00] (withG 0 0x800000000000 start)) = .fault f) ∧
    (∃ f, step (withCode [0xC4, 0xE3, 0x79, 0x1D, 0x55, 0x00, 0x00] (withG 5 0x800000000000 start)) = .fault f) ∧
    (∃ f, step (withCode [0xC4, 0xE3, 0x79, 0x1D, 0x10, 0x00] (withG 0 0x1000 start)) = .fault f) ∧
    ∃ f, step (withCode [0x62, 0xF3, 0x7D, 0x48, 0x1D, 0xEE, 0x00] unmaskedSource) = .fault f :=
  ⟨exists_fault (n := 6) (by decide +kernel), exists_fault (n := 6) (by decide +kernel),
    exists_fault (n := 7) (by decide +kernel), exists_fault (n := 13) (by decide +kernel),
    exists_fault (n := 12) (by decide +kernel), exists_fault (n := 14) (by decide +kernel),
    exists_fault (n := 19) (by decide +kernel)⟩

/-- A state with empty register files and a canonical memory meets the invariant. -/
theorem inv_of_zero {s : State} (h : Memory.wf s.mem) (hm : s.mxcsr.extractLsb' 16 16 = 0)
    (hv : s.v = Vector.replicate 32 0) (hk : s.k = Vector.replicate 8 0) : s.Inv := by
  refine ⟨h, hm, ⟨fun n b _ => ?_, fun n _ => ?_⟩, fun n b _ => ?_⟩ <;> simp [hv, hk]

/-- The invariant and a step that completes, with an instruction in memory. -/
theorem test_witness_StepKeepsInv :
    (withCode [0xC4, 0xE3, 0x79, 0x1D, 0xD1, 0x00] start).Inv ∧
    ∃ t, step (withCode [0xC4, 0xE3, 0x79, 0x1D, 0xD1, 0x00] start) = .next t :=
  ⟨inv_of_zero (by decide +kernel) (by decide +kernel) (by decide +kernel) (by decide +kernel),
    exists_next (by decide +kernel)⟩

theorem test_witness_FaultKeepsInv :
    (withCode [0xC4, 0xE3, 0xF9, 0x1D, 0xC8, 0x00] start).Inv ∧
    ∃ f, step (withCode [0xC4, 0xE3, 0xF9, 0x1D, 0xC8, 0x00] start) = .fault f :=
  ⟨inv_of_zero (by decide +kernel) (by decide +kernel) (by decide +kernel) (by decide +kernel),
    exists_fault (n := 6) (by decide +kernel)⟩

/-- A store that completes, and the first and last byte of the program text. -/
theorem test_witness_ProgramTextIsImmutable :
    (∃ t, step (withCode [0xC4, 0xE3, 0x79, 0x1D, 0x10, 0x00] wide) = .next t) ∧
    inRegion wide.cfg .programText 0x1000 = true ∧ inRegion wide.cfg .programText 0x100F = true :=
  ⟨exists_next (by decide +kernel), by decide, by decide⟩

/-- A register form and a memory form. -/
theorem test_witness_StepFrame :
    (∃ t, step (withCode [0xC4, 0xE3, 0x79, 0x1D, 0xD1, 0x00] wide) = .next t) ∧
    ∃ t, step (withCode [0xC4, 0xE3, 0x79, 0x1D, 0x10, 0x00] wide) = .next t :=
  ⟨exists_next (by decide +kernel), exists_next (by decide +kernel)⟩

/-- For MxcsrFlagsAreSticky and EflagsAreNeitherReadNorWritten: an outcome of each kind. -/
theorem test_witness_MxcsrFlagsAreSticky :
    (∃ t, exec (.vex128Reg 1 2 0) wide = .next t) ∧
    ∃ f, exec (.evex512Reg 6 .unmasked 5 0) unmaskedSource = .fault f :=
  ⟨exists_next (by decide +kernel), exists_fault (n := 19) (by decide +kernel)⟩

/-- For ControlFallsThroughOrStays: the bytes decode, once to an instruction that completes and once to one that faults. -/
theorem test_witness_ControlFallsThroughOrStays :
    decode (fetchWindow (withCode [0x62, 0xF3, 0x7D, 0x48, 0x1D, 0xEE, 0x00] unmaskedSource)) =
      .ok (.evex512Reg 6 .unmasked 5 0, []) ∧
    decode (fetchWindow (withCode [0xC4, 0xE3, 0x79, 0x1D, 0xD1, 0x00] wide)) = .ok (.vex128Reg 1 2 0, []) := by
  decide +kernel

/-- vB4 to vB8: `Imm[2]` = 1 under `RC` = 11B and 10B, and `Imm[2]` = 0 with the upper bits set. -/
theorem test_witness_EffectiveRoundingFollowsTable :
    (0xFA#8).getLsbD 2 = false ∧ effectiveRounding 0xFA 0x1F80 = .up ∧
    (0x07#8).getLsbD 2 = true ∧ effectiveRounding 0x07 0x7F80 = .truncate ∧ effectiveRounding 0xFE 0x5F80 = .up := by decide

/-- Both clauses: equal low bits, and `Imm[2]` = 1 in both. -/
theorem test_witness_OnlyLowImmediateBitsMatter :
    (0xAB#8).extractLsb' 0 3 = (0x03#8).extractLsb' 0 3 ∧ (0x04#8).getLsbD 2 = true ∧ (0xFF#8).getLsbD 2 = true := by decide

/-- Another register content that agrees on the enabled elements 0 and 2 only. -/
theorem test_witness_DisabledSourceElementsDoNotMatter :
    let i : Instr := .evex128Reg 1 (.merging 1) 2 0
    let x := vecOf [0x3F801000, 0x3F800000, 0x7F800001, 0, 0x12345678]
    (∀ f, regForm i = some f → f.dst ≠ f.src) ∧
    (∀ j < elementCount i, enabled wide (maskOf i) j = true → singleAt x j = singleAt wide.v[sourceReg i] j) ∧
    x ≠ wide.v[sourceReg i] := by
  refine ⟨fun f hf => ?_, by decide +kernel, by decide +kernel⟩
  cases hf
  decide

/-- Opmask registers that differ everywhere but in the low four bits of `K[1]`. -/
theorem test_witness_OnlyNamedMaskBitsMatter :
    let i : Instr := .evex128Reg 1 (.merging 1) 2 0
    let k' : Vector (BitVec 64) 8 := (Vector.replicate 8 0xFFFF).set 1 0xFFF5
    (∀ (n : KReg), n = 1 → ∀ j < elementCount i, k'[n].getLsbD j = wide.k[n].getLsbD j) ∧ maskOf i = .merging 1 ∧
    k' ≠ wide.k := by decide +kernel

/-- A signalling NaN, an infinity, a zero, and a denormal under DAZ (R54, R55, R53). -/
theorem test_witness_SpecialSourcesConvert :
    (singleExp 0x7F800001 = 255 ∧ singleFrac 0x7F800001 ≠ 0) ∧ (singleExp 0xFF800000 = 255 ∧ singleFrac 0xFF800000 = 0) ∧
    (singleExp 0x80000000 = 0 ∧ singleFrac 0x80000000 = 0) ∧ singleExp 0x007FFFFF = 0 := by decide

/-- The smallest denormal, the smallest normal and the largest source below 2^-25. -/
theorem test_witness_VerySmallSourcesConvert :
    [0x00000001#32, 0x00800000#32, 0x32FFFFFF#32].all (fun x =>
      decide (singleExp x ≠ 255 ∧ singleMagnitude x ≠ 0 ∧ singleMagnitude x < 2 ^ 134)) = true := by decide +kernel

/-- The thresholds of R58 and the sources just below them, under the rounding controls that meet there. -/
theorem test_witness_OverflowThresholds :
    ([(0x477FEFFF#32, Rounding.nearest), (0x477FF000, .nearest), (0x477FE000, .up), (0x477FE001, .up), (0xC77FE001, .down),
      (0xC77FE001, .up), (0x477FFFFF, .truncate), (0x47800000, .truncate)].map
        fun p => (cvtDefault p.1 p.2 false).conds.overflow) =
      [false, true, false, true, true, false, false, true] := by decide +kernel

/-- For ConditionsExcludeEachOther: an invalid, a denormal, an overflowing and a tiny element. -/
theorem test_witness_ConditionsExcludeEachOther :
    (cvtDefault 0x7F800001 .up false).conds.invalid = true ∧ (cvtDefault 0x00000001 .up false).conds.denormal = true ∧
    (cvtDefault 0x47800000 .up false).conds.overflow = true ∧ (cvtDefault 0x33000000 .up false).conds.tiny = true := by
  decide +kernel

/-- For NormalResultIsShiftAndRound: the smallest normal half, a carry into the exponent and the largest finite half. -/
theorem test_witness_NormalResultIsShiftAndRound :
    [0x38800000#32, 0x3FFFF000#32, 0xC77FE000#32].all (fun x => decide (singleExp x ≠ 0 ∧ singleExp x ≠ 255 ∧
      (cvtDefault x .nearest false).conds.overflow = false ∧ (cvtDefault x .nearest false).conds.tiny = false)) =
      true := by decide +kernel

/-- For ConversionRoundsCorrectly and InexactIffValueChanged: a denormal source, a tie between two denormal halves, and
the largest source that does not overflow, under the three kinds of rounding. -/
theorem test_witness_ConversionRoundsCorrectly :
    ([0x00000001#32, 0x33C00000#32, 0x477FE000#32].all fun x => [Rounding.nearest, .down, .up, .truncate].all fun rc =>
      decide (singleExp x ≠ 255 ∧ (cvtDefault x rc false).conds.overflow = false)) = true ∧
    (cvtDefault 0x00000001 .up false).conds.inexact = true ∧ (cvtDefault 0x477FE000 .up false).conds.inexact = false := by
  decide +kernel

/-- For RoundingModesAreOrdered: a positive and a negative finite source. -/
theorem test_witness_RoundingModesAreOrdered :
    singleExp 0x3F801000 ≠ 255 ∧ (0x3F801000#32).getLsbD 31 = false ∧ singleExp 0xFF7FFFFF ≠ 255 ∧
      (0xFF7FFFFF#32).getLsbD 31 = true := by decide

end Sys2Proof.Tests
end

namespace Sys2Proof.Machine

/-! ### Absent features (R79) -/

/-- Settles O22: a form is one of the two shared operations, and each asks for the form's predicate first. -/
theorem absentFeatureRaisesUd : Obligations.AbsentFeatureRaisesUd := by
  intro i s h
  obtain ⟨f, hf, -⟩ | ⟨f, hf, -⟩ := form_cases i
  · simpa [exec_regForm hf, h] using
      convertToRegister_cases (formAvailable s.cfg i) f.elements f.sae f.dst f.mask f.src f.imm f.length s
  · simpa [exec_memForm hf, h] using
      convertToMemory_cases (formAvailable s.cfg i) f.elements f.scale f.dst f.mask f.src f.imm f.length s

/-! ### What a completed or a faulting form leaves (R62, R85) -/

/-- A register form that completes is available, and writes its flags and its destination. -/
theorem exec_regForm_next {i : Instr} {f : RegForm} {s t : State} (hf : regForm i = some f)
    (h : exec i s = .next t) :
    formAvailable s.cfg i = true ∧
      t = ((s.setMxcsr (s.mxcsr ||| (f.report s).flags)).writeV f.dst
        (packHalves (destHalves f.mask s.v[f.dst] 0 (conversions s f.elements f.mask f.src f.imm)))).advance
          f.length := by
  rw [exec_regForm hf] at h
  rw [f.report_eq]
  obtain ⟨-, hr⟩ | ⟨-, -, hr⟩ | ⟨-, -, -, hr⟩ | ⟨ha, -, -, hr⟩ :=
    convertToRegister_cases (formAvailable s.cfg i) f.elements f.sae f.dst f.mask f.src f.imm f.length s
  · simp [hr] at h
  · simp [hr] at h
  · simp [hr, takeSimdException_eq] at h
  · rw [hr] at h
    exact ⟨ha, (Host.Outcome.next.inj h).symm⟩

/-- A memory form that completes was admitted, and writes its flags and its enabled elements. -/
theorem exec_memForm_next {i : Instr} {f : MemForm} {s t : State} (hf : memForm i = some f)
    (h : exec i s = .next t) :
    f.admitted s ∧
      t = ((s.setMxcsr (s.mxcsr ||| (f.report s).flags)).setMem (Memory.writeElements s.mem (f.address s)
        (conversions s f.elements f.mask f.src f.imm))).advance f.length := by
  rw [exec_memForm hf] at h
  rw [f.report_eq, f.admitted_iff]
  obtain ⟨-, hr⟩ | ⟨-, -, hr⟩ | ⟨-, -, e, -, hr⟩ | ⟨-, -, -, -, hr⟩ | ⟨-, -, hm, -, hr⟩ :=
    convertToMemory_cases (formAvailable s.cfg i) f.elements f.scale f.dst f.mask f.src f.imm f.length s
  · simp [hr] at h
  · simp [hr] at h
  · obtain ⟨g, hg, -⟩ := takeException_fault e s
    simp [hr, hg] at h
  · simp [hr, takeSimdException_eq] at h
  · rw [hr] at h
    exact ⟨hm, (Host.Outcome.next.inj h).symm⟩

/-- What a fault may leave of `s`: `s` itself, with a free value drawn, or with SIMD flags set as well (R83, R85). -/
def LeftByFault (s t : State) : Prop :=
  t = s ∨ t = s.drawn ∨
    ∃ flags, flags ||| fiveFlags = fiveFlags ∧ t = (s.setMxcsr (raisedMxcsr s flags)).drawn

theorem takeException_left {e : Exception} {s : State} {f : Fault} (h : takeException e s = .fault f) :
    LeftByFault s f.after := by
  obtain ⟨g, hg, hs⟩ := takeException_fault e s
  obtain rfl := Host.Outcome.fault.inj (hg.symm.trans h)
  exact hs.imp id .inl

theorem takeSimdException_left {flags : BitVec 32} {s : State} {f : Fault} (hle : flags ||| fiveFlags = fiveFlags)
    (h : takeSimdException flags s = .fault f) : LeftByFault s f.after := by
  rw [takeSimdException_eq] at h
  obtain rfl := Host.Outcome.fault.inj h
  refine .inr (.inr ⟨flags, hle, ?_⟩)
  split <;> rfl

/-- An instruction that faults leaves its state but for SIMD flags and the counter. -/
theorem exec_fault_left {i : Instr} {s : State} {f : Fault} (h : exec i s = .fault f) : LeftByFault s f.after := by
  obtain ⟨r, hr, -⟩ | ⟨m, hm, -⟩ := form_cases i
  · rw [exec_regForm hr] at h
    obtain ⟨-, he⟩ | ⟨-, -, he⟩ | ⟨-, -, -, he⟩ | ⟨-, -, -, he⟩ :=
      convertToRegister_cases (formAvailable s.cfg i) r.elements r.sae r.dst r.mask r.src r.imm r.length s
    · exact takeException_left (e := .ud) (he.symm.trans h)
    · exact takeException_left (e := .nm) (he.symm.trans h)
    · exact takeSimdException_left (reportOf_flags_le ..) (he.symm.trans h)
    · simp [he] at h
  · rw [exec_memForm hm] at h
    obtain ⟨-, he⟩ | ⟨-, -, he⟩ | ⟨-, -, _, -, he⟩ | ⟨-, -, -, -, he⟩ | ⟨-, -, -, -, he⟩ :=
      convertToMemory_cases (formAvailable s.cfg i) m.elements m.scale m.dst m.mask m.src m.imm m.length s
    · exact takeException_left (e := .ud) (he.symm.trans h)
    · exact takeException_left (e := .nm) (he.symm.trans h)
    · exact takeException_left (he.symm.trans h)
    · exact takeSimdException_left (reportOf_flags_le ..) (he.symm.trans h)
    · simp [he] at h

/-! ### One step (R17, R79) -/

/-- A completed step executed the instruction decoded at RIP. -/
theorem step_next {s t : State} (h : step s = .next t) :
    ∃ i rest, decode (fetchWindow s) = .ok (i, rest) ∧ exec i s = .next t := by
  simp only [step] at h
  split at h
  case h_1 i rest hd => exact ⟨i, rest, hd, h⟩
  case h_2 e hd => cases e <;> simp [decodeFailure, takeException] at h

/-- A step that faults leaves its state but for SIMD flags and the counter. -/
theorem step_fault_left {s : State} {f : Fault} (h : step s = .fault f) : LeftByFault s f.after := by
  simp only [step] at h
  split at h
  case h_1 i rest hd => exact exec_fault_left h
  case h_2 e hd =>
    cases e with
    | invalidOpcode why => exact takeException_left (e := .ud) h
    | leftOutPrefix => simp [decodeFailure] at h
    | notVcvtps2ph => simp [decodeFailure] at h
    | truncated => simp [decodeFailure] at h

/-! ### The invariant under each update of the state -/

namespace State.Inv

variable {s : State}

theorem wf_mem (h : s.Inv) : Memory.wf s.mem := h.1

theorem mxcsr_upperHalf (h : s.Inv) : s.mxcsr.extractLsb' 16 16 = 0 := h.2.1

theorem drawn (h : s.Inv) : s.drawn.Inv := h

theorem advance (h : s.Inv) (len : Nat) : (s.advance len).Inv := h

theorem setMem (h : s.Inv) {m : Memory} (hm : m.wf) : (s.setMem m).Inv := by
  obtain ⟨-, hrest⟩ := h
  exact ⟨hm, hrest⟩

theorem setMxcsr (h : s.Inv) {x : BitVec 32} (hx : x.extractLsb' 16 16 = 0) : (s.setMxcsr x).Inv := by
  obtain ⟨hmem, -, hregs⟩ := h
  exact ⟨hmem, hx, hregs⟩

/-- A write to a register that exists keeps the invariant when the value has no bit from `MAXVL` on. -/
theorem writeV (h : s.Inv) {n : VReg} {x : Zmm} (hn : n.val < s.cfg.nvec)
    (hx : ∀ b, s.cfg.maxvl ≤ b → x.getLsbD b = false) : (s.writeV n x).Inv := by
  obtain ⟨hmem, hmxcsr, ⟨hbits, hregs⟩, hk⟩ := h
  refine ⟨hmem, hmxcsr, ⟨fun r b hb => ?_, fun r hr => ?_⟩, hk⟩
  · by_cases hrn : r = n
    · rw [hrn, State.writeV_get_self]
      exact hx b hb
    · rw [State.writeV_get_other s hrn]
      exact hbits r b hb
  · have hrn : r ≠ n := fun e => absurd hn (Nat.not_lt.2 (e ▸ hr))
    rw [State.writeV_get_other s hrn]
    exact hregs r hr

end State.Inv

/-! ### MXCSR under flags (R13, R14) -/

/-- The five flags lie in the lower half of MXCSR. -/
theorem upperHalf_of_le_fiveFlags {x : BitVec 32} (hx : x ||| fiveFlags = fiveFlags) : x.extractLsb' 16 16 = 0 := by
  have h5 : fiveFlags.extractLsb' 16 16 = 0 := by decide
  have h := congrArg (BitVec.extractLsb' 16 16) hx
  simpa [BitVec.extractLsb'_or, h5] using h

/-- Flags of a report keep the reserved half of MXCSR zero. -/
theorem upperHalf_or_flags {m x : BitVec 32} (hm : m.extractLsb' 16 16 = 0) (hx : x ||| fiveFlags = fiveFlags) :
    (m ||| x).extractLsb' 16 16 = 0 := by
  simp [BitVec.extractLsb'_or, hm, upperHalf_of_le_fiveFlags hx]

/-- So does a raised SIMD exception, whatever free flags it leaves (U7). -/
theorem upperHalf_raisedMxcsr {s : State} {flags : BitVec 32} (hm : s.mxcsr.extractLsb' 16 16 = 0)
    (hx : flags ||| fiveFlags = fiveFlags) : (raisedMxcsr s flags).extractLsb' 16 16 = 0 :=
  upperHalf_or_flags (upperHalf_or_flags hm hx) (by ext b hb; simp)

/-! ### A fault's state meets the invariant -/

theorem State.Inv.of_leftByFault {s t : State} (h : s.Inv) (ht : LeftByFault s t) : t.Inv := by
  obtain rfl | rfl | ⟨flags, hle, rfl⟩ := ht
  · exact h
  · exact h.drawn
  · exact (h.setMxcsr (upperHalf_raisedMxcsr h.mxcsr_upperHalf hle)).drawn

/-- Settles O31: a fault leaves the state but for SIMD flags, which are in the lower half of MXCSR, and the counter. -/
theorem faultKeepsInv : Obligations.FaultKeepsInv :=
  fun _ _ hs h => hs.of_leftByFault (step_fault_left h)

/-! ### A decoded destination exists where its form is available (R6, R10, R37) -/

/-- Wherever the form is available, its destination register is one of the `NVEC` that exist. -/
def DstExists (i : Instr) : Prop :=
  ∀ (c : Config) (f : RegForm), regForm i = some f → formAvailable c i = true → f.dst.val < c.nvec

theorem nvec_ge (c : Config) : 16 ≤ c.nvec := by
  simp only [Config.nvec]
  split <;> decide

/-- An EVEX feature flag makes every register exist. -/
theorem lt_nvec_of_hasEvex {c : Config} (h : c.hasEvex = true) (n : VReg) : n.val < c.nvec := by
  simp [Config.nvec, h]

theorem dstExists_of_memForm {i : Instr} {f : MemForm} (h : memForm i = some f) : DstExists i := by
  intro c r hr
  obtain ⟨_, -, hm⟩ | ⟨_, -, hn⟩ := form_cases i
  · simp [hm] at h
  · simp [hn] at hr

/-- A VEX register form reaches registers below 16 only (R37). -/
theorem vregOf_false_lt (ext3 : Bool) (field : BitVec 3) : (vregOf false ext3 field).val < 16 := by
  revert ext3 field
  decide

theorem dstExists_vexReg (l : Bool) {d : VReg} (src : VReg) (imm : Byte) (hd : d.val < 16) :
    DstExists ((if l then Instr.vex256Reg d src else .vex128Reg d src) imm) := by
  intro c f hf _
  have hlt := Nat.lt_of_lt_of_le hd (nvec_ge c)
  cases l
  · obtain rfl := Option.some.inj hf
    exact hlt
  · obtain rfl := Option.some.inj hf
    exact hlt

theorem hasEvex_of_evexVlAvailable {c : Config} (h : evexVlAvailable c = true) : c.hasEvex = true := by
  simp only [evexVlAvailable, Bool.and_eq_true, Bool.or_eq_true] at h
  simp only [Config.hasEvex, Bool.or_eq_true]
  tauto

theorem hasEvex_of_evex512Available {c : Config} (h : evex512Available c = true) : c.hasEvex = true := by
  simp only [evex512Available, Bool.and_eq_true, Bool.or_eq_true] at h
  simp only [Config.hasEvex, Bool.or_eq_true]
  tauto

theorem dstExists_evexReg {b : Bool} {ll : BitVec 2} {form : VReg → Masking → VReg → Byte → Instr}
    (h : evexRegForm b ll = some form) (d : VReg) (m : Masking) (src : VReg) (imm : Byte) :
    DstExists (form d m src imm) := by
  intro c f _ ha
  refine lt_nvec_of_hasEvex ?_ f.dst
  simp only [evexRegForm] at h
  split_ifs at h
  all_goals obtain rfl := Option.some.inj h
  · exact hasEvex_of_evex512Available ha
  · exact hasEvex_of_evexVlAvailable ha
  · exact hasEvex_of_evexVlAvailable ha
  · exact hasEvex_of_evex512Available ha

theorem dstExists_evexMem {ll : BitVec 2} {form : MemOperand → Masking → VReg → Byte → Instr}
    (h : evexMemForm ll = some form) (d : MemOperand) (m : Masking) (src : VReg) (imm : Byte) :
    DstExists (form d m src imm) := by
  simp only [evexMemForm] at h
  split_ifs at h
  all_goals
    obtain rfl := Option.some.inj h
    exact dstExists_of_memForm rfl

/-! ### The decoder -/

theorem decodeRegImm_ok {bs : List Byte} {mk : Byte → Instr} {i : Instr} {rest : List Byte}
    (h : decodeRegImm bs mk = .ok (i, rest)) : ∃ imm, bs = imm :: rest ∧ i = mk imm := by
  cases bs with
  | nil => simp [decodeRegImm] at h
  | cons imm bs =>
    simp only [decodeRegImm, Except.ok.injEq, Prod.mk.injEq] at h
    exact ⟨imm, by rw [h.2], h.1.symm⟩

theorem decodeMemImm_ok {x b : Bool} {m : ModRM} {bs : List Byte} {mk : MemOperand → Byte → Instr} {i : Instr}
    {rest : List Byte} (h : decodeMemImm x b m bs mk = .ok (i, rest)) :
    ∃ mem imm, decodeMem x b m bs = some (mem, imm :: rest) ∧ i = mk mem imm := by
  simp only [decodeMemImm] at h
  split at h
  case h_1 mem imm rest' hm =>
    simp only [Except.ok.injEq, Prod.mk.injEq] at h
    exact ⟨mem, imm, by rw [hm, h.2], h.1.symm⟩
  case h_2 => simp at h

/-- A VEX register form names its destination in four bits (R37). -/
theorem dstExists_of_decodeVexOperands {p1 : VexP1} {p2 : VexP2} {bs : List Byte} {i : Instr} {rest : List Byte}
    (h : decodeVexOperands p1 p2 bs = .ok (i, rest)) : DstExists i := by
  cases bs with
  | nil => simp [decodeVexOperands] at h
  | cons modrm bs =>
    simp only [decodeVexOperands] at h
    split at h
    · obtain ⟨imm, -, rfl⟩ := decodeRegImm_ok h
      exact dstExists_vexReg _ _ imm (vregOf_false_lt ..)
    · obtain ⟨mem, imm, -, rfl⟩ := decodeMemImm_ok h
      cases p2.l
      · exact dstExists_of_memForm rfl
      · exact dstExists_of_memForm rfl

theorem dstExists_of_decodeVex {il lo : Bool} {bs : List Byte} {i : Instr} {rest : List Byte}
    (h : decodeVex il lo bs = .ok (i, rest)) : DstExists i := by
  simp only [decodeVex] at h
  split at h
  · split_ifs at h
    exact dstExists_of_decodeVexOperands h
  · simp at h

theorem dstExists_of_decodeEvexOperands {lo : Bool} {p0 : EvexP0} {p2 : EvexP2} {bs : List Byte} {i : Instr}
    {rest : List Byte} (h : decodeEvexOperands lo p0 p2 bs = .ok (i, rest)) : DstExists i := by
  cases bs with
  | nil => simp [decodeEvexOperands] at h
  | cons modrm bs =>
    simp only [decodeEvexOperands] at h
    split_ifs at h
    · split at h <;> simp at h
    · split at h
      case h_1 => simp at h
      case h_2 form hform =>
        obtain ⟨imm, -, rfl⟩ := decodeRegImm_ok h
        exact dstExists_evexReg hform _ _ _ imm
    · split at h <;> simp at h
    · split at h
      case h_1 => simp at h
      case h_2 form hform =>
        obtain ⟨mem, imm, -, rfl⟩ := decodeMemImm_ok h
        exact dstExists_evexMem hform mem _ _ imm

theorem dstExists_of_decodeEvex {il lo : Bool} {bs : List Byte} {i : Instr} {rest : List Byte}
    (h : decodeEvex il lo bs = .ok (i, rest)) : DstExists i := by
  simp only [decodeEvex] at h
  split at h
  · split_ifs at h
    exact dstExists_of_decodeEvexOperands h
  · simp at h

theorem dstExists_of_decodeAfter {il lo : Bool} {bs : List Byte} {i : Instr} {rest : List Byte}
    (h : decodeAfter il lo bs = .ok (i, rest)) : DstExists i := by
  induction bs generalizing il lo with
  | nil => simp [decodeAfter] at h
  | cons b bs ih =>
    simp only [decodeAfter] at h
    split_ifs at h
    · exact ih h
    · exact ih h
    · exact dstExists_of_decodeVex h
    · exact dstExists_of_decodeEvex h

theorem dstExists_of_decode {bs : List Byte} {i : Instr} {rest : List Byte} (h : decode bs = .ok (i, rest)) :
    DstExists i :=
  dstExists_of_decodeAfter h

/-! ### What the forms write fits what exists -/

/-- The sixteen elements of the widest form fill 256 bits, and `MAXVL` is 256 at least (R6). -/
theorem regForm_bits_le_maxvl {i : Instr} {f : RegForm} (h : regForm i = some f) (c : Config) :
    16 * f.elements ≤ c.maxvl := by
  have hvl : 256 ≤ c.maxvl := by
    simp only [Config.maxvl]
    split <;> decide
  have hkl : f.elements ≤ 16 := by
    cases i <;> simp only [regForm, Option.some.injEq, reduceCtorEq] at h <;> subst h <;> simp
  omega

/-- What a form writes to its destination has no bit above its elements. -/
theorem packHalves_conversions_upper (s : State) (kl : Nat) (m : Masking) (old : Zmm) (src : VReg) (imm : Byte)
    (b : Nat)
    (hb : 16 * kl ≤ b) : (packHalves (destHalves m old 0 (conversions s kl m src imm))).getLsbD b = false :=
  packHalves_upper _ _ (by simpa using hb)

/-- An admitted store keeps memory canonical: only enabled elements are written, and their bytes were checked. -/
theorem wf_writeElements_of_admitted {f : MemForm} {s : State} (hm : Memory.wf s.mem) (h : f.admitted s) :
    Memory.wf (Memory.writeElements s.mem (f.address s) (conversions s f.elements f.mask f.src f.imm)) := by
  refine Memory.wf_writeElements _ _ _ hm fun j hj hne => ?_
  have hen : enabled s f.mask j = true := by
    rw [conversions_getElem] at hne
    by_contra hdis
    simp [hdis] at hne
  have hw := h (f.address s + 2 * j + 1) ⟨j, by simpa using hj, .inl hen, .inr rfl⟩
  exact lt_of_canonical (canonical_of_writable hw)

theorem RegForm.report_flags_le (f : RegForm) (s : State) : (f.report s).flags ||| fiveFlags = fiveFlags := by
  rw [f.report_eq]
  exact reportOf_flags_le ..

theorem MemForm.report_flags_le (f : MemForm) (s : State) : (f.report s).flags ||| fiveFlags = fiveFlags :=
  simdReport_flags_le ..

/-! ### Every step keeps the invariant -/

theorem inv_of_exec_regForm {i : Instr} {f : RegForm} {s t : State} (hs : s.Inv) (hf : regForm i = some f)
    (hdst : DstExists i) (h : exec i s = .next t) : t.Inv := by
  obtain ⟨ha, rfl⟩ := exec_regForm_next hf h
  have hflags := hs.setMxcsr (upperHalf_or_flags hs.mxcsr_upperHalf (f.report_flags_le s))
  refine (hflags.writeV (hdst _ f hf ha) fun b hb => ?_).advance _
  exact packHalves_conversions_upper _ _ _ _ _ _ b (Nat.le_trans (regForm_bits_le_maxvl hf _) hb)

theorem inv_of_exec_memForm {i : Instr} {f : MemForm} {s t : State} (hs : s.Inv) (hf : memForm i = some f)
    (h : exec i s = .next t) : t.Inv := by
  obtain ⟨hadm, rfl⟩ := exec_memForm_next hf h
  have hflags := hs.setMxcsr (upperHalf_or_flags hs.mxcsr_upperHalf (f.report_flags_le s))
  exact (hflags.setMem (wf_writeElements_of_admitted hs.wf_mem hadm)).advance _

/-- Settles O30: the decoded instruction is a register form, whose destination exists, or a memory form, whose access
was admitted. -/
theorem stepKeepsInv : Obligations.StepKeepsInv := by
  intro s t hs h
  obtain ⟨i, rest, hd, hx⟩ := step_next h
  obtain ⟨f, hf, -⟩ | ⟨f, hf, -⟩ := form_cases i
  · exact inv_of_exec_regForm hs hf (dstExists_of_decode hd) hx
  · exact inv_of_exec_memForm hs hf hx

end Sys2Proof.Machine

namespace Sys2Proof.Machine

/-! ### MXCSR under flags, bit by bit (R14) -/

/-- Flags inside the five change no other bit. -/
theorem or_flags_outside_five (m : BitVec 32) {fl : BitVec 32} (h : fl ||| fiveFlags = fiveFlags) :
    (m ||| fl) &&& ~~~fiveFlags = m &&& ~~~fiveFlags := by
  have h0 : fl &&& ~~~fiveFlags = 0#32 := by
    rw [← h]
    ext b hb
    simp only [BitVec.getElem_and, BitVec.getElem_not, BitVec.getElem_or]
    cases fl[b] <;> simp
  rw [BitVec.and_or_distrib_right, h0, BitVec.or_zero]

/-- Setting flags inside the five keeps the bits set before and adds none but the five. -/
theorem bitsBetween_or_flags (m : BitVec 32) {fl : BitVec 32} (h : fl ||| fiveFlags = fiveFlags) :
    BitsBetween m (m ||| fl) (m ||| fiveFlags) := by
  constructor
  · rw [← BitVec.or_assoc, BitVec.or_self]
  · calc m ||| fl ||| (m ||| fiveFlags) = (m ||| m) ||| (fl ||| fiveFlags) := by ac_rfl
      _ = m ||| fiveFlags := by rw [BitVec.or_self, h]

/-- The free value of a raised SIMD exception adds none but the five flags (U7). -/
theorem or_freeSimdFlags_le (n : Nat) {flags : BitVec 32} (h : flags ||| fiveFlags = fiveFlags) :
    (flags ||| (Config.freeSimdFlags n &&& fiveFlags)) ||| fiveFlags = fiveFlags := by
  have hfree : (Config.freeSimdFlags n &&& fiveFlags) ||| fiveFlags = fiveFlags := by
    ext b hb
    simp
  rw [BitVec.or_assoc, hfree, h]

/-- What a raised SIMD exception leaves in MXCSR is the old value with some of the five flags set (R83, U7). -/
theorem raisedMxcsr_eq_or_flags (s : State) {flags : BitVec 32} (h : flags ||| fiveFlags = fiveFlags) :
    ∃ fl, fl ||| fiveFlags = fiveFlags ∧ raisedMxcsr s flags = s.mxcsr ||| fl :=
  ⟨_, or_freeSimdFlags_le s.draws h, BitVec.or_assoc ..⟩

/-- Every fault leaves some of the five flags set and nothing else changed in the registers and in memory. -/
theorem LeftByFault.eq_or_flags {s t : State} (h : LeftByFault s t) :
    ∃ fl n, fl ||| fiveFlags = fiveFlags ∧ t = { s with mxcsr := s.mxcsr ||| fl, draws := n } := by
  obtain rfl | rfl | ⟨flags, hle, rfl⟩ := h
  · exact ⟨0#32, t.draws, BitVec.zero_or, by rw [BitVec.or_zero]⟩
  · exact ⟨0#32, s.draws + 1, BitVec.zero_or, by rw [BitVec.or_zero]; rfl⟩
  · obtain ⟨fl, hfl, he⟩ := raisedMxcsr_eq_or_flags s hle
    exact ⟨fl, s.draws + 1, hfl, by rw [he]; rfl⟩

/-! ### What a completed instruction changes -/

/-- Setting MXCSR flags and RIP, with a vector register or memory, is all that a completed instruction does (R62). -/
theorem exec_next_cases {i : Instr} {s t : State} (h : exec i s = .next t) :
    ∃ fl, fl ||| fiveFlags = fiveFlags ∧
      ((∃ d x, t = ((s.setMxcsr (s.mxcsr ||| fl)).writeV d x).advance (instrLength i)) ∨
        ∃ m, t = ((s.setMxcsr (s.mxcsr ||| fl)).setMem m).advance (instrLength i)) := by
  obtain ⟨f, hf, -⟩ | ⟨f, hf, -⟩ := form_cases i
  · obtain ⟨-, ht⟩ := exec_regForm_next hf h
    exact ⟨_, f.report_flags_le s, .inl ⟨_, _, regForm_length hf ▸ ht⟩⟩
  · obtain ⟨-, ht⟩ := exec_memForm_next hf h
    exact ⟨_, f.report_flags_le s, .inr ⟨_, memForm_length hf ▸ ht⟩⟩

/-- Opmask and general registers, EFLAGS, the configuration and the rest of MXCSR are kept (R11, R14, R16, R18). -/
theorem exec_next_sameSystem {i : Instr} {s t : State} (h : exec i s = .next t) : SameSystem s t := by
  obtain ⟨fl, hfl, ⟨d, x, rfl⟩ | ⟨m, rfl⟩⟩ := exec_next_cases h
  · exact ⟨rfl, rfl, rfl, rfl, rfl, or_flags_outside_five _ hfl⟩
  · exact ⟨rfl, rfl, rfl, rfl, rfl, or_flags_outside_five _ hfl⟩

theorem exec_next_rip {i : Instr} {s t : State} (h : exec i s = .next t) :
    t.rip = s.rip + BitVec.ofNat 64 (instrLength i) := by
  obtain ⟨fl, -, ⟨d, x, rfl⟩ | ⟨m, rfl⟩⟩ := exec_next_cases h
  · rfl
  · rfl

theorem exec_next_bitsBetween {i : Instr} {s t : State} (h : exec i s = .next t) :
    BitsBetween s.mxcsr t.mxcsr (s.mxcsr ||| fiveFlags) := by
  obtain ⟨fl, hfl, ⟨d, x, rfl⟩ | ⟨m, rfl⟩⟩ := exec_next_cases h
  · exact bitsBetween_or_flags _ hfl
  · exact bitsBetween_or_flags _ hfl

theorem LeftByFault.bitsBetween {s t : State} (h : LeftByFault s t) :
    BitsBetween s.mxcsr t.mxcsr (s.mxcsr ||| fiveFlags) := by
  obtain ⟨fl, n, hfl, rfl⟩ := h.eq_or_flags
  exact bitsBetween_or_flags _ hfl

/-- An instruction completes or takes an exception: no meaning refuses. -/
theorem exec_next_or_fault (i : Instr) (s : State) : (∃ t, exec i s = .next t) ∨ ∃ f, exec i s = .fault f := by
  obtain ⟨f, hf, -⟩ | ⟨f, hf, -⟩ := form_cases i
  · rw [exec_regForm hf]
    obtain ⟨-, hr⟩ | ⟨-, -, hr⟩ | ⟨-, -, -, hr⟩ | ⟨-, -, -, hr⟩ :=
      convertToRegister_cases (formAvailable s.cfg i) f.elements f.sae f.dst f.mask f.src f.imm f.length s
    · exact .inr ⟨_, hr⟩
    · exact .inr ⟨_, hr⟩
    · exact .inr ⟨_, hr.trans (takeSimdException_eq ..)⟩
    · exact .inl ⟨_, hr⟩
  · rw [exec_memForm hf]
    obtain ⟨-, hr⟩ | ⟨-, -, hr⟩ | ⟨-, -, e, -, hr⟩ | ⟨-, -, -, -, hr⟩ | ⟨-, -, -, -, hr⟩ :=
      convertToMemory_cases (formAvailable s.cfg i) f.elements f.scale f.dst f.mask f.src f.imm f.length s
    · exact .inr ⟨_, hr⟩
    · exact .inr ⟨_, hr⟩
    · obtain ⟨g, hg, -⟩ := takeException_fault e s
      exact .inr ⟨g, hr.trans hg⟩
    · exact .inr ⟨_, hr.trans (takeSimdException_eq ..)⟩
    · exact .inl ⟨_, hr⟩

/-- With `{sae}` nothing is reported (R74). -/
theorem RegForm.report_sae {f : RegForm} (h : f.sae = true) (s : State) : f.report s = ⟨0, false⟩ := by
  simp [RegForm.report, h]

/-- Settles O16: of the completed state only the destination, MXCSR and RIP are written, and `{sae}` reports nothing. -/
theorem registerFormsFrame : Obligations.RegisterFormsFrame := by
  intro i f s t hf h
  have hsys := exec_next_sameSystem h
  obtain ⟨-, rfl⟩ := exec_regForm_next hf h
  refine ⟨fun n hn => State.writeV_get_other _ hn _, hsys, fun hsae => ?_, fun a => rfl⟩
  simp [f.report_sae hsae]

/-- A converted element is an enabled one. -/
theorem enabled_of_conversions_ne_none {s : State} {kl : Nat} {m : Masking} {src : VReg} {imm : Byte} {j : Nat}
    (hj : j < (conversions s kl m src imm).length) (h : (conversions s kl m src imm)[j] ≠ none) :
    enabled s m j = true := by
  rw [conversions_getElem] at h
  by_contra hdis
  simp [hdis] at h

/-- Settles O17: a byte that no enabled element covers is not written. -/
theorem memoryFormsFrame : Obligations.MemoryFormsFrame := by
  intro i f s t hf h
  have hsys := exec_next_sameSystem h
  obtain ⟨-, rfl⟩ := exec_memForm_next hf h
  refine ⟨fun n => rfl, hsys, fun a ha => Memory.read_writeElements_outside _ _ _ _ fun j hj hne => ?_⟩
  have hkl : j < f.elements := by simpa using hj
  have hen := enabled_of_conversions_ne_none hj hne
  exact ⟨fun e => ha ⟨j, hkl, hen, .inl e⟩, fun e => ha ⟨j, hkl, hen, .inr e⟩⟩

/-- Settles O35: a completed step executed an instruction, which writes one vector register or memory. -/
theorem stepFrame : Obligations.StepFrame := by
  intro s t h
  obtain ⟨i, rest, -, hx⟩ := step_next h
  refine ⟨exec_next_sameSystem hx, ?_⟩
  obtain ⟨fl, -, ⟨d, x, rfl⟩ | ⟨m, rfl⟩⟩ := exec_next_cases hx
  · exact .inr ⟨rfl, d, fun n hn => State.writeV_get_other _ hn x⟩
  · exact .inl fun n => rfl

/-- Settles O36: completion and faults alike only add flags to MXCSR. -/
theorem mxcsrFlagsAreSticky : Obligations.MxcsrFlagsAreSticky :=
  fun _ _ => ⟨fun _ h => exec_next_bitsBetween h, fun _ h => (exec_fault_left h).bitsBetween⟩

/-! ### Rounding control (R50) -/

/-- Table 5-3 lists the four codes in order. -/
theorem roundingOf_eq_getElem (rc : BitVec 2) :
    roundingOf rc = [Rounding.nearest, .down, .up, .truncate][rc.toNat]'rc.isLt := by
  revert rc
  decide

/-- Settles O38: both selected fields are codes of the table, as numbers. -/
theorem effectiveRoundingFollowsTable : Obligations.EffectiveRoundingFollowsTable := by
  constructor
  · intro imm m h
    simp only [effectiveRounding, h, roundingOf_eq_getElem]
    simp
  · intro imm m h
    simp only [effectiveRounding, h, roundingOf_eq_getElem, mxcsrRc]
    simp [Nat.shiftRight_eq_div_pow]

end Sys2Proof.Machine

namespace Sys2Proof.Machine

/-! ### Changes of the state that no form sees

`mapOutcome g` in the statements below says that a form does the same to the changed state as to the state itself, and
carries the change along. -/

/-- `g` changes nothing that a form reads besides its source, its mask, its destination and memory, and stays in place
under every update a form makes besides its destination's. Of MXCSR a form reads the control bits 14:6 (R13).
A field that holds by definition is filled in by `rfl`. -/
structure CarriedAlong (g : State → State) : Prop where
  cfg : ∀ s, (g s).cfg = s.cfg := by intros; rfl
  draws : ∀ s, (g s).draws = s.draws := by intros; rfl
  gregs : ∀ s, (g s).g = s.g := by intros; rfl
  rip : ∀ s, (g s).rip = s.rip := by intros; rfl
  controls : ∀ s, (g s).mxcsr.extractLsb' 6 9 = s.mxcsr.extractLsb' 6 9 := by intros; rfl
  orFlags : ∀ s fl, fl ||| fiveFlags = fiveFlags →
    (g s).setMxcsr ((g s).mxcsr ||| fl) = g (s.setMxcsr (s.mxcsr ||| fl)) := by intros; rfl
  advance : ∀ s len, (g s).advance len = g (s.advance len) := by intros; rfl
  drawn : ∀ s, (g s).drawn = g s.drawn := by intros; rfl

/-- `g` changes nothing that a form with destination register `d` reads of it, and stays in place when it is written. -/
def DstCarried (g : State → State) (d : VReg) : Prop :=
  ∀ s, (g s).v[d] = s.v[d] ∧ ∀ x, (g s).writeV d x = g (s.writeV d x)

/-- `g` changes nothing in memory, and stays in place when memory is written. -/
def MemCarried (g : State → State) : Prop :=
  ∀ s, (g s).mem = s.mem ∧ ∀ m, (g s).setMem m = g (s.setMem m)

/-! ### The control bits of MXCSR -/

/-- A bit of MXCSR among the control bits 14:6. -/
theorem getLsbD_eq_of_controls {m m' : BitVec 32} (h : m.extractLsb' 6 9 = m'.extractLsb' 6 9) {b : Nat}
    (hlo : 6 ≤ b) (hhi : b < 15) : m.getLsbD b = m'.getLsbD b := by
  have hb := congrArg (fun x => x.getLsbD (b - 6)) h
  have hlt : b - 6 < 9 := by omega
  simpa [BitVec.getLsbD_extractLsb', hlt, Nat.add_sub_cancel' hlo] using hb

/-- R82 reads the masks only. -/
theorem simdReport_congr {m m' : BitVec 32} (h : m.extractLsb' 6 9 = m'.extractLsb' 6 9) (cs : List Conds) :
    simdReport m cs = simdReport m' cs := by
  have him : mxcsrIm m = mxcsrIm m' := getLsbD_eq_of_controls h (by decide) (by decide)
  have hdm : mxcsrDm m = mxcsrDm m' := getLsbD_eq_of_controls h (by decide) (by decide)
  have hom : mxcsrOm m = mxcsrOm m' := getLsbD_eq_of_controls h (by decide) (by decide)
  have hum : mxcsrUm m = mxcsrUm m' := getLsbD_eq_of_controls h (by decide) (by decide)
  have hpm : mxcsrPm m = mxcsrPm m' := getLsbD_eq_of_controls h (by decide) (by decide)
  have hue : elementUe m = elementUe m' := funext fun c => by simp [elementUe, hum]
  have hpe : elementPe m = elementPe m' := funext fun c => by simp [elementPe, hom]
  simp [simdReport, preReport, postReport, him, hdm, hom, hum, hpm, hue, hpe]

theorem mxcsrDaz_congr {m m' : BitVec 32} (h : m.extractLsb' 6 9 = m'.extractLsb' 6 9) : mxcsrDaz m = mxcsrDaz m' :=
  getLsbD_eq_of_controls h (by decide) (by decide)

theorem effectiveRounding_congr {m m' : BitVec 32} (h : m.extractLsb' 6 9 = m'.extractLsb' 6 9) (imm : Byte) :
    effectiveRounding imm m = effectiveRounding imm m' := by
  have hrc : mxcsrRc m = mxcsrRc m' := by
    simp only [mxcsrRc]
    ext b hb
    simpa using getLsbD_eq_of_controls h (b := 13 + b) (by omega) (by omega)
  simp only [effectiveRounding, hrc]

/-! ### Each part of a form under such a change -/

theorem mapOutcome_takeException {g : State → State} (hg : CarriedAlong g) (e : Exception) (s : State) :
    takeException e (g s) = mapOutcome g (takeException e s) := by
  cases e <;> simp [takeException, mapOutcome, hg.draws, hg.drawn]

theorem mapOutcome_takeSimdException {g : State → State} (hg : CarriedAlong g) {flags : BitVec 32}
    (hle : flags ||| fiveFlags = fiveFlags) (s : State) :
    takeSimdException flags (g s) = mapOutcome g (takeSimdException flags s) := by
  have hset : (g s).setMxcsr (raisedMxcsr (g s) flags) = g (s.setMxcsr (raisedMxcsr s flags)) := by
    simp only [raisedMxcsr, hg.draws, BitVec.or_assoc]
    exact hg.orFlags s _ (or_freeSimdFlags_le _ hle)
  simp only [takeSimdException, hset, hg.cfg, hg.drawn]
  exact mapOutcome_takeException hg _ _

theorem effectiveAddress_carried {g : State → State} (hg : CarriedAlong g) (s : State) (n len : Nat)
    (dst : MemOperand) : effectiveAddress (g s) n len dst = effectiveAddress s n len dst := by
  cases dst <;> simp [effectiveAddress, indexValue, hg.gregs, hg.rip]

theorem storeFault_carried {g : State → State} (hg : CarriedAlong g) (s : State) (stack : Bool) (as : List Nat) :
    storeFault (g s) stack as = storeFault s stack as := by
  simp [storeFault, hg.cfg]

theorem reportOf_carried {g : State → State} (hg : CarriedAlong g) (sae : Bool) (s : State)
    (rs : List (Option Converted)) : reportOf sae (g s) rs = reportOf sae s rs := by
  simp only [reportOf, simdReport_congr (hg.controls s)]

/-- The enables are bits of opmask registers (R64). -/
theorem enabled_congr {s s' : State} (h : s'.k = s.k) {m : Masking} {j : Nat} : enabled s' m j = enabled s m j := by
  cases m <;> simp [enabled, h]

theorem enables_congr {s s' : State} {m : Masking} {kl : Nat} (h : ∀ j < kl, enabled s' m j = enabled s m j) :
    enables s' m kl = enables s m kl :=
  List.map_congr_left fun j hj => h j (List.mem_range.1 hj)

/-- The conversions are the same when the enables are and the enabled source elements are (R64). -/
theorem conversions_carried {g : State → State} (hg : CarriedAlong g) {s : State} {kl : Nat} {m : Masking}
    {src : VReg} (hen : ∀ j < kl, enabled (g s) m j = enabled s m j)
    (hsrc : ∀ j < kl, enabled s m j = true → singleAt (g s).v[src] j = singleAt s.v[src] j) (imm : Byte) :
    conversions (g s) kl m src imm = conversions s kl m src imm := by
  refine List.map_congr_left fun j hj => ?_
  have hkl := List.mem_range.1 hj
  rw [hen j hkl]
  split
  case isTrue h =>
    rw [hg.cfg, hsrc j hkl h, effectiveRounding_congr (hg.controls s), mxcsrDaz_congr (hg.controls s)]
  case isFalse => rfl

/-! ### The forms under such a change -/

theorem mapOutcome_convertToRegister {g : State → State} (hg : CarriedAlong g) {s : State} {kl : Nat} {dst : VReg}
    {m : Masking} {src : VReg} {imm : Byte} (hdst : DstCarried g dst)
    (hc : conversions (g s) kl m src imm = conversions s kl m src imm) (available sae : Bool) (len : Nat) :
    convertToRegister available kl sae dst m src imm len (g s) =
      mapOutcome g (convertToRegister available kl sae dst m src imm len s) := by
  have hle := reportOf_flags_le sae s (conversions s kl m src imm)
  have hwrite := fun t => (hdst t).2
  simp only [convertToRegister, hg.cfg, hc, reportOf_carried hg, hg.orFlags s _ hle, hwrite, hg.advance, (hdst s).1]
  split_ifs
  · exact mapOutcome_takeException hg _ _
  · exact mapOutcome_takeException hg _ _
  · exact mapOutcome_takeSimdException hg hle _
  · rfl

theorem mapOutcome_convertToMemory {g : State → State} (hg : CarriedAlong g) {s : State} {kl : Nat} {m : Masking}
    {src : VReg} {imm : Byte} (hmem : MemCarried g) (hen : ∀ j < kl, enabled (g s) m j = enabled s m j)
    (hc : conversions (g s) kl m src imm = conversions s kl m src imm) (available : Bool) (n len : Nat)
    (dst : MemOperand) :
    convertToMemory available kl n dst m src imm len (g s) =
      mapOutcome g (convertToMemory available kl n dst m src imm len s) := by
  have hle := reportOf_flags_le false s (conversions s kl m src imm)
  have hwrite := fun t => (hmem t).2
  simp only [convertToMemory, hg.cfg, effectiveAddress_carried hg, enables_congr hen, storeFault_carried hg, hc,
    reportOf_carried hg, hg.orFlags s _ hle, hwrite, hg.advance, (hmem s).1]
  split
  · exact mapOutcome_takeException hg _ _
  · split
    · exact mapOutcome_takeException hg _ _
    · split
      · exact mapOutcome_takeException hg _ _
      · split
        · exact mapOutcome_takeSimdException hg hle _
        · rfl

/-! ### Every instruction under such a change -/

/-- What a register form's row says of its mask, source and element count. -/
theorem regForm_operands {i : Instr} {f : RegForm} (h : regForm i = some f) :
    f.mask = maskOf i ∧ f.src = sourceReg i ∧ f.elements = elementCount i := by
  cases i <;> simp only [regForm, Option.some.injEq, reduceCtorEq] at h <;> subst h <;> exact ⟨rfl, rfl, rfl⟩

/-- What a memory form's row says of its mask, source and element count. -/
theorem memForm_operands {i : Instr} {f : MemForm} (h : memForm i = some f) :
    f.mask = maskOf i ∧ f.src = sourceReg i ∧ f.elements = elementCount i := by
  cases i <;> simp only [memForm, Option.some.injEq, reduceCtorEq] at h <;> subst h <;> exact ⟨rfl, rfl, rfl⟩

/-- A change that keeps the enables and the enabled source elements is carried along by the instruction. -/
theorem exec_carried {g : State → State} (hg : CarriedAlong g) (hmem : MemCarried g) {i : Instr} {s : State}
    (hdst : ∀ f, regForm i = some f → DstCarried g f.dst)
    (hen : ∀ j < elementCount i, enabled (g s) (maskOf i) j = enabled s (maskOf i) j)
    (hsrc : ∀ j < elementCount i, enabled s (maskOf i) j = true →
      singleAt (g s).v[sourceReg i] j = singleAt s.v[sourceReg i] j) :
    exec i (g s) = mapOutcome g (exec i s) := by
  have hc := conversions_carried hg hen hsrc
  obtain ⟨f, hf, -⟩ | ⟨f, hf, -⟩ := form_cases i
  · obtain ⟨hm, hs, hk⟩ := regForm_operands hf
    rw [exec_regForm hf, exec_regForm hf, hg.cfg, hm, hs, hk]
    exact mapOutcome_convertToRegister hg (hdst f hf) (hc _) _ _ _
  · obtain ⟨hm, hs, hk⟩ := memForm_operands hf
    rw [exec_memForm hf, exec_memForm hf, hg.cfg, hm, hs, hk]
    exact mapOutcome_convertToMemory hg hmem hen (hc _) _ _ _ _

/-- A change outside the vector and opmask registers keeps every enable and every source element. -/
theorem exec_carried_of_registers_kept {g : State → State} (hg : CarriedAlong g) (hmem : MemCarried g)
    (hv : ∀ s, (g s).v = s.v) (hk : ∀ s, (g s).k = s.k) (hwrite : ∀ s d x, (g s).writeV d x = g (s.writeV d x))
    (i : Instr) (s : State) : exec i (g s) = mapOutcome g (exec i s) :=
  exec_carried hg hmem (fun f _ t => ⟨by rw [hv], hwrite t f.dst⟩)
    (fun _ _ => enabled_congr (hk s)) fun _ _ _ => by rw [hv]

/-! ### FTZ, EFLAGS, the source and the opmask registers -/

/-- FTZ flipped (R14). -/
def flipFtz (t : State) : State := { t with mxcsr := t.mxcsr ^^^ 0x8000 }

/-- EFLAGS replaced (R18). -/
def withEflags (e : BitVec 32) (t : State) : State := { t with eflags := e }

/-- The opmask registers replaced (R12). -/
def withOpmasks (k' : Vector (BitVec 64) 8) (t : State) : State := { t with k := k' }

/-- FTZ is neither a control bit that is read nor one of the five flags. -/
theorem flipFtz_carried : CarriedAlong flipFtz where
  controls s := by
    rw [show (flipFtz s).mxcsr = s.mxcsr ^^^ 0x8000 from rfl, BitVec.extractLsb'_xor]
    exact BitVec.xor_zero
  orFlags s fl h := by
    have hfl : fl.getLsbD 15 = false := getLsbD_of_le_fiveFlags h (by decide)
    have hx : (s.mxcsr ^^^ 0x8000) ||| fl = (s.mxcsr ||| fl) ^^^ 0x8000 := by
      rw [show (0x8000 : BitVec 32) = BitVec.twoPow 32 15 by decide]
      apply BitVec.eq_of_getLsbD_eq
      intro b hb
      simp only [BitVec.getLsbD_or, BitVec.getLsbD_xor, BitVec.getLsbD_twoPow]
      by_cases h15 : 15 = b
      · rw [← h15, hfl]
        simp
      · simp [h15]
    simp only [flipFtz, State.setMxcsr, hx]

/-- Settles O40: FTZ is outside everything that a form reads or sets of MXCSR. -/
theorem ftzIsIgnored : Obligations.FtzIsIgnored :=
  exec_carried_of_registers_kept flipFtz_carried (fun _ => ⟨rfl, fun _ => rfl⟩) (fun _ => rfl) (fun _ => rfl)
    fun _ _ _ => rfl

theorem withEflags_carried (e : BitVec 32) : CarriedAlong (withEflags e) := {}

/-- Settles O41: no form reads EFLAGS, and completion and faults keep it and the opmask registers. -/
theorem eflagsAreNeitherReadNorWritten : Obligations.EflagsAreNeitherReadNorWritten := by
  refine ⟨fun i s e => ?_, fun i s t h => ?_, fun i s f h => ?_⟩
  · exact exec_carried_of_registers_kept (withEflags_carried e) (fun _ => ⟨rfl, fun _ => rfl⟩) (fun _ => rfl)
      (fun _ => rfl) (fun _ _ _ => rfl) i s
  · obtain ⟨hk, -, heflags, -⟩ := exec_next_sameSystem h
    exact ⟨heflags, hk, exec_next_bitsBetween h⟩
  · have hleft := exec_fault_left h
    obtain ⟨fl, n, -, hafter⟩ := hleft.eq_or_flags
    exact ⟨by rw [hafter], by rw [hafter], hleft.bitsBetween⟩

theorem withOpmasks_carried (k' : Vector (BitVec 64) 8) : CarriedAlong (withOpmasks k') := {}

theorem writeV_carried (n : VReg) (x : Zmm) : CarriedAlong (State.writeV · n x) := {}

/-- Writes to two vector registers commute. -/
theorem State.writeV_comm (s : State) {n d : VReg} (h : d ≠ n) (x y : Zmm) :
    (s.writeV n x).writeV d y = (s.writeV d y).writeV n x := by
  have hne : n.val ≠ d.val := fun e => h (Fin.ext e.symm)
  simp only [State.writeV]
  rw [Vector.set_comm _ _ hne]

/-- Settles O42: a write to the source commutes with one to another register, and the enables are no vector
register's bits. -/
theorem disabledSourceElementsDoNotMatter : Obligations.DisabledSourceElementsDoNotMatter := by
  intro i s x hdst hsrc
  refine exec_carried (writeV_carried (sourceReg i) x) (fun _ => ⟨rfl, fun _ => rfl⟩) (fun f hf t => ?_)
    (fun _ _ => enabled_congr rfl) fun j hj hen => ?_
  · obtain ⟨-, hs, -⟩ := regForm_operands hf
    have hne : f.dst ≠ sourceReg i := hs ▸ hdst f hf
    exact ⟨State.writeV_get_other t hne x, fun y => t.writeV_comm hne x y⟩
  · rw [State.writeV_get_self]
    exact hsrc j hj hen

/-- Settles O43: the enables are bits of the opmask register that the form names. -/
theorem onlyNamedMaskBitsMatter : Obligations.OnlyNamedMaskBitsMatter := by
  intro i s k' h
  refine exec_carried (withOpmasks_carried k') (fun _ => ⟨rfl, fun _ => rfl⟩) (fun f _ t => ⟨rfl, fun _ => rfl⟩)
    (fun j hj => ?_) fun j _ _ => rfl
  cases hm : maskOf i with
  | unmasked => rfl
  | merging n => exact h n j (.inl hm) hj
  | zeroing n => exact h n j (.inr hm) hj

end Sys2Proof.Machine

namespace Sys2Proof.Machine

/-! ### How many bytes the decoder takes (R32) -/

/-- A reading of `d` that is wrapped by `mk` leaves the bytes that the reading of `d` leaves. -/
theorem operand_of_map_eq_some {α β : Type} {o : Option (α × List Byte)} {mk : α → β} {y : β}
    {rest : List Byte} (h : (o.map fun (d, r) => (mk d, r)) = some (y, rest)) : ∃ d, o = some (d, rest) ∧ y = mk d := by
  obtain ⟨⟨d, r⟩, hd, he⟩ := Option.map_eq_some_iff.1 h
  simp only [Prod.mk.injEq] at he
  obtain ⟨rfl, rfl⟩ := he
  exact ⟨d, hd, rfl⟩

theorem takeDisp32_length {bs rest : List Byte} {d : BitVec 32} (h : takeDisp32 bs = some (d, rest)) :
    bs.length = 4 + rest.length := by
  simp only [takeDisp32] at h
  split at h
  · simp only [Option.some.injEq, Prod.mk.injEq] at h
    obtain ⟨-, rfl⟩ := h
    simp only [List.length_cons]
    omega
  · simp at h

theorem takeDisp_length {mod : BitVec 2} {bs rest : List Byte} {d : Disp} (h : takeDisp mod bs = some (d, rest)) :
    bs.length = dispLength d + rest.length := by
  simp only [takeDisp] at h
  split_ifs at h
  · simp only [Option.some.injEq, Prod.mk.injEq] at h
    obtain ⟨rfl, rfl⟩ := h
    simp [dispLength]
  · cases bs with
    | nil => simp at h
    | cons b bs =>
      simp only [Option.some.injEq, Prod.mk.injEq] at h
      obtain ⟨rfl, rfl⟩ := h
      simp [dispLength, Nat.add_comm]
  · obtain ⟨d32, h32, rfl⟩ := operand_of_map_eq_some h
    exact takeDisp32_length h32

theorem decodeMem_length {x b : Bool} {m : ModRM} {bs rest : List Byte} {mem : MemOperand}
    (h : decodeMem x b m bs = some (mem, rest)) : bs.length = memLength mem + rest.length := by
  simp only [decodeMem] at h
  split_ifs at h
  · cases bs with
    | nil => simp at h
    | cons sib bs =>
      simp only at h
      split_ifs at h
      · obtain ⟨d, hd, rfl⟩ := operand_of_map_eq_some h
        have := takeDisp32_length hd
        simp only [List.length_cons, memLength]
        omega
      · obtain ⟨d, hd, rfl⟩ := operand_of_map_eq_some h
        have := takeDisp_length hd
        simp only [List.length_cons, memLength]
        omega
  · obtain ⟨d, hd, rfl⟩ := operand_of_map_eq_some h
    exact takeDisp32_length hd
  · obtain ⟨d, hd, rfl⟩ := operand_of_map_eq_some h
    exact takeDisp_length hd

theorem decodeVexOperands_length {p1 : VexP1} {p2 : VexP2} {bs : List Byte} {i : Instr} {rest : List Byte}
    (h : decodeVexOperands p1 p2 bs = .ok (i, rest)) : 4 + bs.length = instrLength i + rest.length := by
  cases bs with
  | nil => simp [decodeVexOperands] at h
  | cons modrm bs =>
    simp only [decodeVexOperands] at h
    split at h
    · obtain ⟨imm, rfl, rfl⟩ := decodeRegImm_ok h
      cases p2.l <;> simp [instrLength] <;> omega
    · obtain ⟨mem, imm, hmem, rfl⟩ := decodeMemImm_ok h
      have := decodeMem_length hmem
      cases p2.l <;> simp [instrLength] at this ⊢ <;> omega

theorem decodeVex_length {il lo : Bool} {bs : List Byte} {i : Instr} {rest : List Byte}
    (h : decodeVex il lo bs = .ok (i, rest)) :
    il = false ∧ lo = false ∧ 1 + bs.length = instrLength i + rest.length := by
  simp only [decodeVex] at h
  split at h
  · split_ifs at h with hop hil hw hv hlo
    have hlen := decodeVexOperands_length h
    refine ⟨by simpa using hil, by simpa using hlo, ?_⟩
    simp only [List.length_cons]
    omega
  · simp at h

theorem instrLength_evexRegForm {b : Bool} {ll : BitVec 2} {form : VReg → Masking → VReg → Byte → Instr}
    (h : evexRegForm b ll = some form) (d : VReg) (m : Masking) (src : VReg) (imm : Byte) :
    instrLength (form d m src imm) = 7 := by
  simp only [evexRegForm] at h
  split_ifs at h
  all_goals
    obtain rfl := Option.some.inj h
    rfl

theorem instrLength_evexMemForm {ll : BitVec 2} {form : MemOperand → Masking → VReg → Byte → Instr}
    (h : evexMemForm ll = some form) (d : MemOperand) (m : Masking) (src : VReg) (imm : Byte) :
    instrLength (form d m src imm) = 7 + memLength d := by
  simp only [evexMemForm] at h
  split_ifs at h
  all_goals
    obtain rfl := Option.some.inj h
    rfl

theorem decodeEvexOperands_length {lo : Bool} {p0 : EvexP0} {p2 : EvexP2} {bs : List Byte} {i : Instr}
    {rest : List Byte} (h : decodeEvexOperands lo p0 p2 bs = .ok (i, rest)) :
    lo = false ∧ 5 + bs.length = instrLength i + rest.length := by
  cases bs with
  | nil => simp [decodeEvexOperands] at h
  | cons modrm bs =>
    cases lo
    case true =>
      simp only [decodeEvexOperands] at h
      split_ifs at h <;> split at h <;> simp at h
    refine ⟨rfl, ?_⟩
    simp only [decodeEvexOperands, Bool.false_eq_true, if_false] at h
    split_ifs at h
    · split at h
      case h_1 => simp at h
      case h_2 form hform =>
        obtain ⟨imm, rfl, rfl⟩ := decodeRegImm_ok h
        rw [instrLength_evexRegForm hform]
        simp only [List.length_cons]
        omega
    · split at h
      case h_1 => simp at h
      case h_2 form hform =>
        obtain ⟨mem, imm, hmem, rfl⟩ := decodeMemImm_ok h
        have := decodeMem_length hmem
        rw [instrLength_evexMemForm hform]
        simp only [List.length_cons] at this ⊢
        omega

theorem decodeEvex_length {il lo : Bool} {bs : List Byte} {i : Instr} {rest : List Byte}
    (h : decodeEvex il lo bs = .ok (i, rest)) :
    il = false ∧ lo = false ∧ 1 + bs.length = instrLength i + rest.length := by
  simp only [decodeEvex] at h
  split at h
  · split_ifs at h with hop hil hr hf hw hv hv'
    obtain ⟨hlo, hlen⟩ := decodeEvexOperands_length h
    refine ⟨by simpa using hil, hlo, ?_⟩
    simp only [List.length_cons]
    omega
  · simp at h

/-- An instruction is accepted only when neither LOCK to REX nor a segment override or 67H came before it (R46). -/
theorem decodeAfter_length {il lo : Bool} {bs : List Byte} {i : Instr} {rest : List Byte}
    (h : decodeAfter il lo bs = .ok (i, rest)) :
    il = false ∧ lo = false ∧ bs.length = instrLength i + rest.length := by
  induction bs generalizing il lo with
  | nil => simp [decodeAfter] at h
  | cons b bs ih =>
    simp only [decodeAfter] at h
    split_ifs at h
    · exact absurd (ih h).1 (by decide)
    · exact absurd (ih h).2.1 (by decide)
    · simpa [Nat.add_comm] using decodeVex_length h
    · simpa [Nat.add_comm] using decodeEvex_length h

/-- The decoder takes as many bytes as the instruction's length says. -/
theorem decode_length {bs : List Byte} {i : Instr} {rest : List Byte} (h : decode bs = .ok (i, rest)) :
    bs.length = instrLength i + rest.length :=
  (decodeAfter_length h).2.2

end Sys2Proof.Machine

namespace Sys2Proof.Machine

/-! ### The decoder reads no further than the instruction -/

/-- Reading an operand does not depend on the bytes after it. -/
def OperandStable {α : Type} (F : List Byte → Option (α × List Byte)) : Prop :=
  ∀ (bs rest : List Byte) (x : α) (ext : List Byte), F bs = some (x, rest) → F (bs ++ ext) = some (x, rest ++ ext)

/-- Decoding does not depend on the bytes after those that settle its answer. -/
def DecodeStable (F : List Byte → Decoded) : Prop :=
  ∀ bs ext : List Byte, F bs ≠ .error .truncated →
    F (bs ++ ext) = (F bs).map fun (i, rest) => (i, rest ++ ext)

theorem OperandStable.map {α β : Type} {F : List Byte → Option (α × List Byte)} (hF : OperandStable F)
    (mk : α → β) :
    OperandStable fun bs => (F bs).map fun (d, rest) => (mk d, rest) := by
  intro bs rest y ext h
  obtain ⟨d, hd, rfl⟩ := operand_of_map_eq_some h
  simp only [hF _ _ _ ext hd, Option.map_some]

theorem takeDisp32_stable : OperandStable takeDisp32 := by
  intro bs rest d ext h
  match bs, h with
  | b0 :: b1 :: b2 :: b3 :: r, h =>
    simp only [takeDisp32, Option.some.injEq, Prod.mk.injEq] at h
    obtain ⟨rfl, rfl⟩ := h
    rfl

theorem takeDisp_stable (mod : BitVec 2) : OperandStable (takeDisp mod) := by
  intro bs rest d ext h
  simp only [takeDisp] at h ⊢
  split_ifs at h ⊢
  · simp only [Option.some.injEq, Prod.mk.injEq] at h
    obtain ⟨rfl, rfl⟩ := h
    rfl
  · cases bs with
    | nil => simp at h
    | cons b bs =>
      simp only [Option.some.injEq, Prod.mk.injEq] at h
      obtain ⟨rfl, rfl⟩ := h
      rfl
  · exact takeDisp32_stable.map Disp.d32 _ _ _ ext h

theorem decodeMem_stable (x b : Bool) (m : ModRM) : OperandStable (decodeMem x b m) := by
  intro bs rest mem ext h
  simp only [decodeMem] at h ⊢
  split_ifs at h ⊢
  · cases bs with
    | nil => simp at h
    | cons sib bs =>
      simp only [List.cons_append] at h ⊢
      split_ifs at h ⊢
      · exact takeDisp32_stable.map _ _ _ _ ext h
      · exact (takeDisp_stable m.mod).map _ _ _ _ ext h
  · exact takeDisp32_stable.map _ _ _ _ ext h
  · exact (takeDisp_stable m.mod).map _ _ _ _ ext h

theorem decodeRegImm_stable (mk : Byte → Instr) : DecodeStable (decodeRegImm · mk) := by
  intro bs ext h
  cases bs with
  | nil => simp [decodeRegImm] at h
  | cons imm bs => rfl

theorem decodeMemImm_stable (x b : Bool) (m : ModRM) (mk : MemOperand → Byte → Instr) :
    DecodeStable (decodeMemImm x b m · mk) := by
  intro bs ext h
  simp only [decodeMemImm] at h ⊢
  split at h
  case h_1 mem imm rest hmem =>
    simp only [decodeMem_stable x b m _ _ _ ext hmem, List.cons_append, Except.map]
  case h_2 => simp at h

theorem decodeVexOperands_stable (p1 : VexP1) (p2 : VexP2) : DecodeStable (decodeVexOperands p1 p2) := by
  intro bs ext h
  cases bs with
  | nil => simp [decodeVexOperands] at h
  | cons modrm bs =>
    simp only [decodeVexOperands, List.cons_append] at h ⊢
    split_ifs at h ⊢
    · exact decodeRegImm_stable _ _ ext h
    · exact decodeRegImm_stable _ _ ext h
    · exact decodeMemImm_stable _ _ _ _ _ ext h
    · exact decodeMemImm_stable _ _ _ _ _ ext h

theorem decodeVex_stable (illegal leftOut : Bool) : DecodeStable (decodeVex illegal leftOut) := by
  intro bs ext h
  match bs with
  | [] | [_] | [_, _] => simp [decodeVex] at h
  | b1 :: b2 :: opcode :: bs =>
    simp only [decodeVex, List.cons_append] at h ⊢
    split_ifs at h ⊢
    · rfl
    · rfl
    · rfl
    · rfl
    · exact decodeVexOperands_stable _ _ _ ext h
    · rfl

theorem decodeEvexOperands_stable (leftOut : Bool) (p0 : EvexP0) (p2 : EvexP2) :
    DecodeStable (decodeEvexOperands leftOut p0 p2) := by
  intro bs ext h
  cases bs with
  | nil => simp [decodeEvexOperands] at h
  | cons modrm bs =>
    simp only [decodeEvexOperands, List.cons_append] at h ⊢
    split_ifs at h ⊢
    · rfl
    · cases evexRegForm p2.b p2.ll <;> rfl
    · cases hform : evexRegForm p2.b p2.ll with
      | none => rfl
      | some form => exact decodeRegImm_stable _ _ ext (by simpa [hform] using h)
    · rfl
    · rfl
    · cases evexMemForm p2.ll <;> rfl
    · cases hform : evexMemForm p2.ll with
      | none => rfl
      | some form => exact decodeMemImm_stable _ _ _ _ _ ext (by simpa [hform] using h)

theorem decodeEvex_stable (illegal leftOut : Bool) : DecodeStable (decodeEvex illegal leftOut) := by
  intro bs ext h
  match bs with
  | [] | [_] | [_, _] | [_, _, _] => simp [decodeEvex] at h
  | b0 :: b1 :: b2 :: opcode :: bs =>
    simp only [decodeEvex, List.cons_append] at h ⊢
    split_ifs at h ⊢
    · rfl
    · rfl
    · rfl
    · rfl
    · rfl
    · rfl
    · exact decodeEvexOperands_stable _ _ _ _ ext h
    · rfl

theorem decodeAfter_stable (illegal leftOut : Bool) : DecodeStable (decodeAfter illegal leftOut) := by
  intro bs ext h
  induction bs generalizing illegal leftOut with
  | nil => simp [decodeAfter] at h
  | cons b bs ih =>
    simp only [decodeAfter, List.cons_append] at h ⊢
    split_ifs at h ⊢
    · exact ih _ _ h
    · exact ih _ _ h
    · exact decodeVex_stable _ _ _ ext h
    · exact decodeEvex_stable _ _ _ ext h
    · rfl

/-- Bytes after those that settle the decoder's answer are left over. -/
theorem decode_stable : DecodeStable decode := decodeAfter_stable false false

/-- What breaks off before the end of an instruction is truncated, neither an instruction nor illegal. -/
theorem decode_take_of_decode_ok {bs : List Byte} {i : Instr} (h : decode bs = .ok (i, [])) {k : Nat}
    (hk : k < bs.length) : decode (bs.take k) = .error .truncated := by
  by_contra hne
  have hst := decode_stable _ (bs.drop k) hne
  rw [List.take_append_drop, h] at hst
  cases hd : decode (bs.take k) with
  | error e => simp [hd, Except.map] at hst
  | ok r =>
    obtain ⟨j, rest⟩ := r
    simp [hd, Except.map] at hst
    omega

/-! ### What the encoder writes decodes (R32 to R45) -/

theorem decode_vexHead (src : VReg) (x b l : Bool) (bs : List Byte) :
    decode (vexHead src x b l ++ bs) =
      decodeVexOperands ⟨!src.val.testBit 3, !x, !b, 3⟩ ⟨false, 15, l, 1⟩ bs := by
  simp [vexHead, decode, decodeAfter, isIllegalPrefix, isLeftOutPrefix, decodeVex]

theorem decode_evexHead (src : VReg) (x b : Bool) (ll : BitVec 2) (bBit : Bool) (m : Masking) (bs : List Byte) :
    decode (evexHead src x b ll bBit m ++ bs) =
      decodeEvexOperands false ⟨!src.val.testBit 3, !x, !b, !src.val.testBit 4, false, 3⟩
        ⟨maskZ m, ll, bBit, true, maskAaa m⟩ bs := by
  simp [evexHead, decode, decodeAfter, isIllegalPrefix, isLeftOutPrefix, decodeEvex]

/-- The bytes of an encodable memory operand and an immediate decode to them. -/
theorem decodeMemImm_memBytes {mem : MemOperand} (h : illMem mem = []) (reg : BitVec 3) (imm : Byte)
    (rest : List Byte) (mk : MemOperand → Byte → Instr) :
    ∃ modrm tail, memBytes reg mem ++ imm :: rest = modrm :: tail ∧ (ModRM.ofByte modrm).mod ≠ 3#2 ∧
      (ModRM.ofByte modrm).reg = reg ∧
      decodeMemImm (memX mem) (memB mem) (ModRM.ofByte modrm) tail mk = .ok (mk mem imm, rest) := by
  obtain ⟨modrm, tail, hbytes, hmod, hreg, hmem⟩ := decodeMem_memBytes h reg (imm :: rest)
  refine ⟨modrm, tail ++ imm :: rest, by rw [hbytes, List.cons_append], hmod, hreg, ?_⟩
  simp only [decodeMemImm, hmem]

theorem lt_16_of_illVexReg {r : VReg} (h : illVexReg r = []) : r.val < 16 := by
  by_contra hge
  simp [illVexReg, hge] at h

theorem decode_encodeVexReg (l : Bool) {dst src : VReg} (hd : illVexReg dst = []) (hs : illVexReg src = []) (imm : Byte)
    (rest : List Byte) :
    decode (encodeVexReg l dst src imm ++ rest) =
      .ok ((if l then Instr.vex256Reg dst src else .vex128Reg dst src) imm, rest) := by
  rw [encodeVexReg, List.append_assoc, decode_vexHead]
  simp [decodeVexOperands, vregOf_bits_vex (lt_16_of_illVexReg hd), vregOf_bits_vex (lt_16_of_illVexReg hs),
    decodeRegImm]

theorem decode_encodeVexMem (l : Bool) {dst : MemOperand} {src : VReg} (hd : illMem dst = []) (hs : illVexReg src = [])
    (imm : Byte) (rest : List Byte) :
    decode (encodeVexMem l dst src imm ++ rest) =
      .ok (if l then .vex256Mem dst src imm else .vex128Mem dst src imm, rest) := by
  obtain ⟨modrm, tail, hbytes, hmod, hreg, hmem⟩ := decodeMemImm_memBytes hd (field3 src.val) imm rest
    fun dst imm => if l then .vex256Mem dst src imm else .vex128Mem dst src imm
  rw [encodeVexMem, List.append_assoc, List.append_assoc, List.singleton_append, decode_vexHead, hbytes]
  simp [decodeVexOperands, hmod, hreg, vregOf_bits_vex (lt_16_of_illVexReg hs), hmem]

/-- An encodable mask is what its `z` and `aaa` say, and zeroing names a mask register (R44). -/
theorem maskingOf_mask {m : Masking} (h : illMaskReg m = []) :
    maskingOf (maskZ m) (maskAaa m) = m ∧ ¬(maskZ m = true ∧ maskAaa m = 0#3) := by
  have hk : ∀ k : KReg, k ≠ 0 → field3 k.val ≠ 0#3 ∧ (field3 k.val).toFin = k := by decide
  cases m with
  | unmasked => simp [maskingOf, maskZ, maskAaa]
  | merging k =>
    have hne : k ≠ 0 := fun e => by simp [illMaskReg, e] at h
    simp [maskingOf, maskZ, maskAaa, hk k hne]
  | zeroing k =>
    have hne : k ≠ 0 := fun e => by simp [illMaskReg, e] at h
    simp [maskingOf, maskZ, maskAaa, hk k hne]

/-- A memory form's mask is a register form's that does not zero. -/
theorem illMaskMem_eq_nil {m : Masking} (h : illMaskMem m = []) : illMaskReg m = [] ∧ maskZ m = false := by
  cases m with
  | unmasked => exact ⟨rfl, rfl⟩
  | merging k => exact ⟨h, rfl⟩
  | zeroing k => simp [illMaskMem] at h

theorem decode_encodeEvexReg {ll : BitVec 2} {bBit : Bool} {form : VReg → Masking → VReg → Byte → Instr}
    (hform : evexRegForm bBit ll = some form) (dst : VReg) {m : Masking} (hm : illMaskReg m = []) (src : VReg)
    (imm : Byte) (rest : List Byte) :
    decode (encodeEvexReg ll bBit dst m src imm ++ rest) = .ok (form dst m src imm, rest) := by
  obtain ⟨hmask, hz⟩ := maskingOf_mask hm
  rw [encodeEvexReg, List.append_assoc, decode_evexHead]
  simpa [decodeEvexOperands, hform, hmask, decodeRegImm] using hz

theorem decode_encodeEvexMem {ll : BitVec 2} {form : MemOperand → Masking → VReg → Byte → Instr}
    (hform : evexMemForm ll = some form) {dst : MemOperand} (hd : illMem dst = []) {m : Masking}
    (hm : illMaskMem m = []) (src : VReg) (imm : Byte) (rest : List Byte) :
    decode (encodeEvexMem ll dst m src imm ++ rest) = .ok (form dst m src imm, rest) := by
  obtain ⟨hmreg, hz⟩ := illMaskMem_eq_nil hm
  obtain ⟨hmask, -⟩ := maskingOf_mask hmreg
  obtain ⟨modrm, tail, hbytes, hmod, hreg, hmem⟩ := decodeMemImm_memBytes hd (field3 src.val) imm rest
    fun dst imm => form dst m src imm
  rw [encodeEvexMem, List.append_assoc, List.append_assoc, List.singleton_append, decode_evexHead, hbytes]
  rw [hz] at hmask
  simp [decodeEvexOperands, hmod, hreg, hz, hform, hmask, hmem]

/-- What the encoder writes for an encodable instruction decodes to it, whatever follows. -/
theorem decode_encode {i : Instr} (h : i.WellFormed) (rest : List Byte) :
    decode (encode i ++ rest) = .ok (i, rest) := by
  cases i with
  | vex128Reg d s imm =>
    obtain ⟨hd, hs⟩ := List.append_eq_nil_iff.1 h
    exact decode_encodeVexReg false hd hs imm rest
  | vex256Reg d s imm =>
    obtain ⟨hd, hs⟩ := List.append_eq_nil_iff.1 h
    exact decode_encodeVexReg true hd hs imm rest
  | vex128Mem d s imm =>
    obtain ⟨hd, hs⟩ := List.append_eq_nil_iff.1 h
    exact decode_encodeVexMem false hd hs imm rest
  | vex256Mem d s imm =>
    obtain ⟨hd, hs⟩ := List.append_eq_nil_iff.1 h
    exact decode_encodeVexMem true hd hs imm rest
  | evex128Reg d m s imm => exact decode_encodeEvexReg rfl d h s imm rest
  | evex256Reg d m s imm => exact decode_encodeEvexReg rfl d h s imm rest
  | evex512Reg d m s imm => exact decode_encodeEvexReg rfl d h s imm rest
  | evex512RegSae d m s imm => exact decode_encodeEvexReg rfl d h s imm rest
  | evex128Mem d m s imm =>
    obtain ⟨hd, hm⟩ := List.append_eq_nil_iff.1 h
    exact decode_encodeEvexMem rfl hd hm s imm rest
  | evex256Mem d m s imm =>
    obtain ⟨hd, hm⟩ := List.append_eq_nil_iff.1 h
    exact decode_encodeEvexMem rfl hd hm s imm rest
  | evex512Mem d m s imm =>
    obtain ⟨hd, hm⟩ := List.append_eq_nil_iff.1 h
    exact decode_encodeEvexMem rfl hd hm s imm rest

/-! ### One decoded instruction (R17, R76) -/

/-- The step executes the instruction decoded at RIP. -/
theorem step_of_decode_ok {s : State} {i : Instr} {rest : List Byte} (h : decode (fetchWindow s) = .ok (i, rest)) :
    step s = exec i s := by
  simp only [step, h]

/-- Settles O37: RIP moves by the instruction's length, which is what the decoder took, and a fault leaves it. -/
theorem controlFallsThroughOrStays : Obligations.ControlFallsThroughOrStays := by
  intro s i rest hd
  rw [step_of_decode_ok hd]
  obtain ⟨t, ht⟩ | ⟨f, hf⟩ := exec_next_or_fault i s
  · refine .inl ⟨t, ht, ?_⟩
    rw [exec_next_rip ht, decode_length hd, Nat.add_sub_cancel]
  · obtain ⟨fl, n, -, hafter⟩ := (exec_fault_left hf).eq_or_flags
    exact .inr ⟨f, hf, by rw [hafter]⟩

/-! ### Fetching (R17, R26, R30) -/

/-- Fetching takes the bytes that are there and ends at the first that is not. -/
theorem fetchBytes_eq {s : State} {bs : List Byte} {n a : Nat} (hn : bs.length < n)
    (hbs : ∀ j < bs.length, fetchable s.cfg (a + j) = true ∧ Memory.read s.mem (a + j) = bs[j]?)
    (hend : fetchable s.cfg (a + bs.length) = false ∨ Memory.read s.mem (a + bs.length) = none) :
    fetchBytes s n a = bs := by
  induction bs generalizing n a with
  | nil =>
    obtain ⟨n, rfl⟩ := Nat.exists_eq_add_one_of_ne_zero (Nat.ne_of_gt hn)
    simp only [List.length_nil, Nat.add_zero] at hend
    obtain h | h := hend
    · simp [fetchBytes, h]
    · simp [fetchBytes, h]
  | cons b bs ih =>
    obtain ⟨n, rfl⟩ := Nat.exists_eq_add_one_of_ne_zero (Nat.ne_of_gt (Nat.zero_lt_of_lt hn))
    obtain ⟨hf, hr⟩ := hbs 0 (by simp)
    have htail : fetchBytes s n (a + 1) = bs := by
      refine ih (by simpa using hn) (fun j hj => ?_) ?_
      · simpa [Nat.add_assoc, Nat.add_comm 1] using hbs (j + 1) (by simpa using hj)
      · simpa [Nat.add_assoc, Nat.add_comm 1] using hend
    simp only [Nat.add_zero, List.getElem?_cons_zero] at hf hr
    simp [fetchBytes, hf, hr, htail]

/-- The encoding has the instruction's length, and it is shorter than the fetch window (R32). -/
theorem encodedLength (i : Instr) : Laws.EncodedLength.Statement i := by
  cases i with
  | vex128Reg d s imm => exact Laws.EncodedLength.vex128Reg d s imm
  | vex128Mem d s imm => exact Laws.EncodedLength.vex128Mem d s imm
  | vex256Reg d s imm => exact Laws.EncodedLength.vex256Reg d s imm
  | vex256Mem d s imm => exact Laws.EncodedLength.vex256Mem d s imm
  | evex128Reg d m s imm => exact Laws.EncodedLength.evex128Reg d m s imm
  | evex128Mem d m s imm => exact Laws.EncodedLength.evex128Mem d m s imm
  | evex256Reg d m s imm => exact Laws.EncodedLength.evex256Reg d m s imm
  | evex256Mem d m s imm => exact Laws.EncodedLength.evex256Mem d m s imm
  | evex512Reg d m s imm => exact Laws.EncodedLength.evex512Reg d m s imm
  | evex512RegSae d m s imm => exact Laws.EncodedLength.evex512RegSae d m s imm
  | evex512Mem d m s imm => exact Laws.EncodedLength.evex512Mem d m s imm

/-- An instruction of which the first `k` bytes can be fetched and the next one cannot is refused (log entry 16). -/
theorem step_of_fetch_breaks_off {s : State} {i : Instr} {k : Nat} (hi : i.WellFormed) (hk : k < instrLength i)
    (hbs : ∀ n < k, fetchable s.cfg (s.rip.toNat + n) = true ∧
      Memory.read s.mem (s.rip.toNat + n) = (encode i)[n]?)
    (hend : fetchable s.cfg (s.rip.toNat + k) = false ∨ Memory.read s.mem (s.rip.toNat + k) = none) :
    step s = .refused .fetchNotAdmitted := by
  obtain ⟨hlen, -, hmax⟩ := encodedLength i
  have hmax15 : instrLength i < 15 := Nat.lt_of_le_of_lt hmax (by decide)
  have htake : ((encode i).take k).length = k := by
    rw [List.length_take]
    omega
  have hfetch : fetchWindow s = (encode i).take k := by
    refine fetchBytes_eq (by omega) (fun j hj => ?_) (by rwa [htake])
    rw [htake] at hj
    rw [List.getElem?_take_of_lt hj]
    exact hbs j hj
  have hdec : decode ((encode i).take k) = .error .truncated :=
    decode_take_of_decode_ok (by simpa using decode_encode hi []) (by omega)
  simp only [step, hfetch, hdec, decodeFailure]

/-- Settles O11: without a first byte nothing is fetched; a broken-off encoding of `i` is truncated. -/
theorem fetchOutsideProgramTextIsRefused : Obligations.FetchOutsideProgramTextIsRefused := by
  refine ⟨fun c a h => ?_, fun s h => ?_, fun s i k hi hk hbs hend => step_of_fetch_breaks_off hi hk hbs hend⟩
  · obtain ⟨hcanon, hregion⟩ := Bool.and_eq_true_iff.1 h
    exact ⟨lt_of_canonical hcanon, hcanon, hregion⟩
  · have hfetch : fetchWindow s = [] := fetchBytes_eq (by decide) (by simp) (.inl h)
    simp only [step, hfetch]
    rfl

end Sys2Proof.Machine

namespace Sys2Proof.Machine

/-! ### Program text at RIP (R26, R30) -/

/-- Bytes that stand as program text are fetched, and the fetch goes on after them. -/
theorem fetchBytes_append {s : State} {bs : List Byte} {a : Nat}
    (hbs : ∀ j < bs.length, fetchable s.cfg (a + j) = true ∧ Memory.read s.mem (a + j) = bs[j]?) (n : Nat) :
    fetchBytes s (bs.length + n) a = bs ++ fetchBytes s n (a + bs.length) := by
  induction bs generalizing a with
  | nil => simp
  | cons b bs ih =>
    obtain ⟨hf, hr⟩ := hbs 0 (by simp)
    have htail := ih (a := a + 1) fun j hj => by
      simpa [Nat.add_assoc, Nat.add_comm 1] using hbs (j + 1) (by simpa using hj)
    simp only [Nat.add_zero, List.getElem?_cons_zero] at hf hr
    rw [List.length_cons, Nat.add_right_comm, Nat.add_comm bs.length 1, ← Nat.add_assoc]
    simp [fetchBytes, hf, hr, htail]

/-- Settles O10: the window of 15 bytes starts with the encoding, which has 12 at most, and decodes to the
instruction. -/
theorem programTextAtRipRuns : Obligations.ProgramTextAtRipRuns := by
  intro s i hi hbs
  obtain ⟨hlen, -, hmax⟩ := encodedLength i
  have hmax15 : instrLength i ≤ 15 := Nat.le_trans hmax (by decide)
  obtain ⟨n, hn⟩ := Nat.exists_eq_add_of_le hmax15
  have hfetch : fetchWindow s = encode i ++ fetchBytes s n (s.rip.toNat + (encode i).length) := by
    rw [fetchWindow, hn, ← hlen]
    exact fetchBytes_append (by rwa [hlen]) n
  exact step_of_decode_ok (hfetch ▸ decode_encode hi _)

/-! ### When a memory form completes (R31, R62, R82) -/

/-- A memory form completes exactly when it may run, its access is admitted and nothing is raised; then it sets its
flags, stores its enabled elements and moves RIP. -/
theorem exec_memForm_next_iff {i : Instr} {f : MemForm} {s t : State} (hf : memForm i = some f) :
    exec i s = .next t ↔ Runnable s i ∧ f.admitted s ∧ (f.report s).raises = false ∧
      t = ((s.setMxcsr (s.mxcsr ||| (f.report s).flags)).setMem (Memory.writeElements s.mem (f.address s)
        (conversions s f.elements f.mask f.src f.imm))).advance f.length := by
  rw [exec_memForm hf, f.report_eq, f.admitted_iff, Runnable, MemForm.checkedList, MemForm.address]
  obtain ⟨ha, hr⟩ | ⟨-, hts, hr⟩ | ⟨-, -, e, hm, hr⟩ | ⟨-, -, -, hfp, hr⟩ | ⟨ha, hts, hm, hfp, hr⟩ :=
    convertToMemory_cases (formAvailable s.cfg i) f.elements f.scale f.dst f.mask f.src f.imm f.length s
  · rw [hr]
    simp [ha]
  · simp [hr, hts]
  · obtain ⟨g, hg, -⟩ := takeException_fault e s
    simp [hr, hg, hm]
  · simp [hr, takeSimdException_eq, hfp, -reportOf_plain]
  · rw [hr]
    simp only [ha, hts, hm, hfp, true_and, Host.Outcome.next.injEq]
    exact eq_comm

/-- An enabled element is converted. -/
theorem conversions_getElem?_of_enabled {s : State} {kl : Nat} {m : Masking} {j : Nat} (hj : j < kl)
    (hen : enabled s m j = true) (src : VReg) (imm : Byte) :
    (conversions s kl m src imm)[j]? = some (some (elementResult s src imm j)) := by
  rw [List.getElem?_eq_getElem (by simpa using hj), conversions_getElem, if_pos hen, elementResult]

/-- Settles O15: the enabled elements are converted, and stand in memory after the store. -/
theorem memoryFormsComplete : Obligations.MemoryFormsComplete := by
  intro i f s hf hrun hadm hquiet
  refine ⟨_, (exec_memForm_next_iff hf).2 ⟨hrun, hadm, hquiet, rfl⟩, fun j hj hen => ?_, rfl, rfl⟩
  exact Memory.read_writeElements_at _ _ _ _ _ (conversions_getElem?_of_enabled hj hen f.src f.imm)

/-! ### An all-zero mask (R31) -/

/-- With fault suppression nothing is checked when no element is enabled. -/
theorem MemForm.admitted_of_all_disabled {f : MemForm} {s : State} (hsup : s.cfg.maskFaultSuppression = true)
    (h : ∀ j < f.elements, enabled s f.mask j = false) : f.admitted s := by
  rintro a ⟨j, hj, hen | hnosup, -⟩
  · simp [h j hj] at hen
  · simp [hsup] at hnosup

/-- Without a condition nothing is set and nothing raised (R82). -/
theorem simdReport_nil (mxcsr : BitVec 32) : simdReport mxcsr [] = ⟨0#32, false⟩ := by
  have hflags : flagBits false false false false false = 0#32 := by decide
  simp [simdReport, preReport, postReport, hflags]

/-- Elements that are not enabled report nothing (R82). -/
theorem MemForm.report_of_all_disabled {f : MemForm} {s : State}
    (h : ∀ j < f.elements, enabled s f.mask j = false) : f.report s = ⟨0#32, false⟩ := by
  have hconds : enabledConds s f.mask f.src f.imm f.elements = [] := by
    simpa [enabledConds] using h
  rw [MemForm.report, hconds, simdReport_nil]

/-- Elements that are not enabled are not converted. -/
theorem conversions_of_all_disabled {s : State} {kl : Nat} {m : Masking} (h : ∀ j < kl, enabled s m j = false)
    (src : VReg) (imm : Byte) : conversions s kl m src imm = List.replicate kl none := by
  refine List.eq_replicate_iff.2 ⟨conversions_length .., fun r hr => ?_⟩
  obtain ⟨j, hj, rfl⟩ := List.mem_map.1 hr
  simp [h j (List.mem_range.1 hj)]

/-- No converted element, no write. -/
theorem Memory.writeElements_replicate_none (m : Memory) (a n : Nat) :
    Memory.writeElements m a (List.replicate n none) = m := by
  induction n generalizing a with
  | zero => rfl
  | succ n ih => exact ih (a + 2)

/-- Settles O21: nothing is checked, reported or written. -/
theorem allZeroMaskStoresNothing : Obligations.AllZeroMaskStoresNothing := by
  intro i f s hf hrun hsup hdis
  have hrep := MemForm.report_of_all_disabled hdis
  refine (exec_memForm_next_iff hf).2 ⟨hrun, MemForm.admitted_of_all_disabled hsup hdis, by rw [hrep], ?_⟩
  rw [conversions_of_all_disabled hdis, Memory.writeElements_replicate_none]
  simp only [hrep, BitVec.or_zero]
  rfl

/-! ### Program text (R30) -/

/-- A byte that is stored to is checked. -/
theorem MemForm.checks_of_stores {f : MemForm} {s : State} {a : Nat} (h : f.stores s a) : f.checks s a := by
  obtain ⟨j, hj, hen, ha⟩ := h
  exact ⟨j, hj, .inl hen, ha⟩

/-- No byte of the program text may be written. -/
theorem writable_eq_false_of_programText {c : Config} {a : Nat} (h : inRegion c .programText a = true) :
    writable c a = false := by
  simp [writable, h]

/-- Settles O34: a register form writes no memory, and a memory form stores to admitted bytes only. -/
theorem programTextIsImmutable : Obligations.ProgramTextIsImmutable := by
  intro s t h
  obtain ⟨i, rest, -, hx⟩ := step_next h
  obtain ⟨-, -, -, hcfg, -⟩ := exec_next_sameSystem hx
  refine ⟨hcfg, fun a ha => ?_⟩
  obtain ⟨f, hf, -⟩ | ⟨f, hf, -⟩ := form_cases i
  · obtain ⟨-, -, -, hmem⟩ := registerFormsFrame i f s t hf hx
    exact hmem a
  · obtain ⟨-, -, hmem⟩ := memoryFormsFrame i f s t hf hx
    refine hmem a fun hstore => ?_
    obtain ⟨hadm, -⟩ := exec_memForm_next hf hx
    have hw := hadm a (MemForm.checks_of_stores hstore)
    simp [writable_eq_false_of_programText ha] at hw

/-! ### Another memory (R24) -/

/-- No form reads memory besides its write to it. -/
theorem setMem_carried (m : Memory) : CarriedAlong (State.setMem · m) := {}

/-- A memory form that faults does so with any memory. -/
theorem convertToMemory_setMem_of_fault {available : Bool} {kl n : Nat} {dst : MemOperand} {mask : Masking}
    {src : VReg} {imm : Byte} {len : Nat} {s : State} {e : Fault}
    (h : convertToMemory available kl n dst mask src imm len s = .fault e) (m : Memory) :
    convertToMemory available kl n dst mask src imm len (s.setMem m) =
      mapOutcome (State.setMem · m) (convertToMemory available kl n dst mask src imm len s) := by
  have hg := setMem_carried m
  have hen : enables (s.setMem m) mask kl = enables s mask kl := enables_congr fun _ _ => enabled_congr rfl
  have hc : conversions (s.setMem m) kl mask src imm = conversions s kl mask src imm :=
    conversions_carried hg (fun _ _ => enabled_congr rfl) (fun _ _ _ => rfl) imm
  simp only [convertToMemory, State.setMem_cfg, effectiveAddress_carried hg, hen, storeFault_carried hg, hc,
    reportOf_carried hg] at h ⊢
  split
  case isTrue => exact mapOutcome_takeException hg _ _
  case isFalse hav =>
    split
    case isTrue => exact mapOutcome_takeException hg _ _
    case isFalse hts =>
      split
      case h_1 => exact mapOutcome_takeException hg _ _
      case h_2 hmf =>
        split
        case isTrue => exact mapOutcome_takeSimdException hg (reportOf_flags_le ..) _
        case isFalse hfp =>
          rw [if_neg hav, if_neg hts, hmf, if_neg hfp] at h
          cases h

/-- With another memory a register form, and any form that faults, does the same and carries that memory along. -/
theorem exec_setMem {i : Instr} {s : State} (h : (∃ f, regForm i = some f) ∨ ∃ e, exec i s = .fault e) (m : Memory) :
    exec i (s.setMem m) = mapOutcome (State.setMem · m) (exec i s) := by
  obtain ⟨f, hf, -⟩ | ⟨f, hf, hr⟩ := form_cases i
  · rw [exec_regForm hf, exec_regForm hf]
    exact mapOutcome_convertToRegister (setMem_carried m) (fun _ => ⟨rfl, fun _ => rfl⟩) rfl _ _ _
  · obtain ⟨r, hreg⟩ | ⟨e, he⟩ := h
    · simp [hr] at hreg
    · rw [exec_memForm hf] at he ⊢
      rw [exec_memForm hf]
      exact convertToMemory_setMem_of_fault he m

/-- A memory form completes with any memory when it does with one. -/
theorem exec_memForm_setMem_next {i : Instr} {f : MemForm} {s t : State} (hf : memForm i = some f)
    (h : exec i s = .next t) (m : Memory) :
    exec i (s.setMem m) = .next (t.setMem (Memory.writeElements m (f.address s)
      (conversions s f.elements f.mask f.src f.imm))) := by
  obtain ⟨hrun, hadm, hquiet, rfl⟩ := (exec_memForm_next_iff hf).1 h
  exact (exec_memForm_next_iff hf).2 ⟨hrun, hadm, hquiet, rfl⟩

/-- What a memory form stores to a byte does not depend on the memory. -/
theorem MemForm.exists_read_of_stores {f : MemForm} {s : State} {a : Nat} (h : f.stores s a) :
    ∃ b, ∀ m, Memory.read (Memory.writeElements m (f.address s)
      (conversions s f.elements f.mask f.src f.imm)) a = some b := by
  obtain ⟨j, hj, hen, ha⟩ := h
  have hread := fun m => Memory.read_writeElements_at _ m (f.address s) _ _
    (conversions_getElem?_of_enabled hj hen f.src f.imm)
  obtain rfl | rfl := ha
  · exact ⟨_, fun m => (hread m).1⟩
  · exact ⟨_, fun m => (hread m).2⟩

/-! ### The bytes of the operand (R24) -/

/-- The memory operand has two bytes per element. -/
theorem operandBytes_eq {i : Instr} {f : MemForm} (h : memForm i = some f) : operandBytes i = 2 * f.elements := by
  cases i <;> simp only [memForm, Option.some.injEq, reduceCtorEq] at h <;> subst h <;> rfl

/-- With every element enabled the bytes stored to are the whole operand. -/
theorem MemForm.stores_iff_of_all_enabled {f : MemForm} {s : State} (h : ∀ j < f.elements, enabled s f.mask j = true)
    (a : Nat) : f.stores s a ↔ f.address s ≤ a ∧ a < f.address s + 2 * f.elements := by
  constructor
  · rintro ⟨j, hj, -, ha⟩
    omega
  · rintro ⟨hlo, hhi⟩
    have hj : (a - f.address s) / 2 < f.elements := by omega
    exact ⟨_, hj, h _ hj, by omega⟩

/-- A masked-off element is not stored to. -/
theorem MemForm.not_stores_of_disabled {f : MemForm} {s : State} {j : Nat} (h : enabled s f.mask j = false) :
    ¬f.stores s (f.address s + 2 * j) ∧ ¬f.stores s (f.address s + 2 * j + 1) := by
  constructor
  all_goals
    rintro ⟨k, -, hen, ha⟩
    obtain rfl : k = j := by omega
    simp [h] at hen

/-- Settles O54: memory is written and not read, so another memory changes no other field, and the bytes written are
those of the enabled elements. -/
theorem storesAreTheOperandAndNothingIsLoaded : Obligations.StoresAreTheOperandAndNothingIsLoaded := by
  refine ⟨fun i s m h => exec_setMem h m, fun i f s t m hf hx => ?_, fun i f s hf hen a => ?_,
    fun i f s t j hf hx _ hdis => ?_⟩
  · have hx' := exec_memForm_setMem_next hf hx m
    obtain ⟨-, -, hframe⟩ := memoryFormsFrame i f _ _ hf hx'
    refine ⟨_, hx', rfl, fun a => ⟨fun hstore => ?_, hframe a⟩⟩
    obtain ⟨-, rfl⟩ := exec_memForm_next hf hx
    obtain ⟨b, hb⟩ := MemForm.exists_read_of_stores hstore
    exact ⟨b, hb s.mem, hb m⟩
  · rw [operandBytes_eq hf]
    exact MemForm.stores_iff_of_all_enabled hen a
  · obtain ⟨-, -, hframe⟩ := memoryFormsFrame i f s t hf hx
    obtain ⟨hlow, hhigh⟩ := MemForm.not_stores_of_disabled hdis
    exact ⟨hframe _ hlow, hframe _ hhigh⟩

end Sys2Proof.Machine

namespace Sys2Proof.Machine

/-! ### Round trip (R32 to R45) -/

/-- Settles O1: each form's encoding decodes to its bits, which are those of the instruction's registers, mask and
operand. -/
theorem decodeEncodeRoundTrip : Obligations.DecodeEncodeRoundTrip :=
  fun _ rest h => decode_encode h rest

/-! ### Answers that are `#UD` (R79 e) -/

/-- The decoder answers that the encoding is illegal. -/
def RaisesUd (d : Decoded) : Prop := ∃ c, d = .error (.invalidOpcode c)

@[simp] theorem not_raisesUd_ok (r : Instr × List Byte) : ¬RaisesUd (.ok r) := by simp [RaisesUd]

@[simp] theorem raisesUd_error_iff {e : DecodeError} : RaisesUd (.error e) ↔ ∃ c, e = .invalidOpcode c := by
  simp [RaisesUd]

@[simp] theorem not_raisesUd_decodeRegImm (bs : List Byte) (mk : Byte → Instr) : ¬RaisesUd (decodeRegImm bs mk) := by
  cases bs with
  | nil => simp [decodeRegImm]
  | cons imm bs => exact not_raisesUd_ok _

@[simp] theorem not_raisesUd_decodeMemImm (x b : Bool) (m : ModRM) (bs : List Byte) (mk : MemOperand → Byte → Instr) :
    ¬RaisesUd (decodeMemImm x b m bs mk) := by
  rw [decodeMemImm]
  split
  · exact not_raisesUd_ok _
  · simp

/-! ### VEX bytes: another instruction, illegal, or read (R33, R35, R43, R46) -/

/-- R35: the opcode map, `pp` and the opcode of a VEX encoding of this instruction. -/
def VexSelects (b1 b2 opcode : Byte) : Prop :=
  (VexP1.ofByte b1).mmmmm = 3#5 ∧ (VexP2.ofByte b2).pp = 1#2 ∧ opcode = 0x1D#8

/-- R43: no bit of the VEX bytes makes the encoding `#UD`. -/
def VexLegal (b2 : Byte) : Prop := (VexP2.ofByte b2).w = false ∧ (VexP2.ofByte b2).vvvv = 15#4

theorem decodeVex_of_not_selects {b1 b2 opcode : Byte} (h : ¬VexSelects b1 b2 opcode) (il lo : Bool) (bs : List Byte) :
    decodeVex il lo (b1 :: b2 :: opcode :: bs) = .error .notVcvtps2ph :=
  if_pos h

theorem decodeVex_of_illegal_prefix {b1 b2 opcode : Byte} (hsel : VexSelects b1 b2 opcode) (lo : Bool)
    (bs : List Byte) : decodeVex true lo (b1 :: b2 :: opcode :: bs) = .error (.invalidOpcode .legacyPrefix) := by
  obtain ⟨hm, hpp, hop⟩ := hsel
  simp [decodeVex, hm, hpp, hop]

/-- Legal bytes are refused after a left-out leading byte, and read without one. -/
theorem decodeVex_of_legal {b1 b2 opcode : Byte} (hsel : VexSelects b1 b2 opcode) (h : VexLegal b2) (lo : Bool)
    (bs : List Byte) :
    decodeVex false lo (b1 :: b2 :: opcode :: bs) =
      if lo then .error .leftOutPrefix else decodeVexOperands (.ofByte b1) (.ofByte b2) bs := by
  obtain ⟨hm, hpp, hop⟩ := hsel
  obtain ⟨hw, hv⟩ := h
  simp [decodeVex, hm, hpp, hop, hw, hv]

theorem decodeVex_of_not_legal {b1 b2 opcode : Byte} (hsel : VexSelects b1 b2 opcode) (h : ¬VexLegal b2) (lo : Bool)
    (bs : List Byte) : RaisesUd (decodeVex false lo (b1 :: b2 :: opcode :: bs)) := by
  obtain ⟨hm, hpp, hop⟩ := hsel
  by_cases hw : (VexP2.ofByte b2).w = true
  · simp [decodeVex, hm, hpp, hop, hw]
  · have hv : (VexP2.ofByte b2).vvvv ≠ 15#4 := fun hv => h ⟨by simpa using hw, hv⟩
    simp [decodeVex, hm, hpp, hop, hw, hv]

theorem decodeVex_ok {il lo : Bool} {bs : List Byte} {r : Instr × List Byte} (h : decodeVex il lo bs = .ok r) :
    ∃ b1 b2 opcode tail, bs = b1 :: b2 :: opcode :: tail ∧ VexSelects b1 b2 opcode ∧ VexLegal b2 ∧
      decodeVexOperands (.ofByte b1) (.ofByte b2) tail = .ok r := by
  simp only [decodeVex] at h
  split at h
  case h_1 b1 b2 opcode tail =>
    split_ifs at h with hsel hil hw hv hlo
    exact ⟨b1, b2, opcode, tail, rfl, hsel, ⟨by simpa using hw, not_not.1 hv⟩, h⟩
  case h_2 => simp at h

@[simp] theorem not_raisesUd_decodeVexOperands (p1 : VexP1) (p2 : VexP2) (bs : List Byte) :
    ¬RaisesUd (decodeVexOperands p1 p2 bs) := by
  cases bs with
  | nil => simp [decodeVexOperands]
  | cons modrm bs =>
    simp only [decodeVexOperands]
    split
    · exact not_raisesUd_decodeRegImm _ _
    · exact not_raisesUd_decodeMemImm _ _ _ _ _

/-- R43, R46 b: a VEX encoding of this instruction is `#UD` for an illegal leading byte or an illegal bit. -/
theorem raisesUd_decodeVex_iff {il lo : Bool} {b1 b2 opcode : Byte} {bs : List Byte} :
    RaisesUd (decodeVex il lo (b1 :: b2 :: opcode :: bs)) ↔
      VexSelects b1 b2 opcode ∧ (il = true ∨ ¬VexLegal b2) := by
  by_cases hsel : VexSelects b1 b2 opcode
  case neg => simp [decodeVex_of_not_selects hsel, hsel]
  cases il with
  | true => simp [decodeVex_of_illegal_prefix hsel, hsel]
  | false =>
    by_cases hleg : VexLegal b2
    · cases lo <;> simp [decodeVex_of_legal hsel hleg, hleg]
    · simp [decodeVex_of_not_legal hsel hleg, hsel, hleg]

/-! ### EVEX bytes: another instruction, illegal, or read (R34, R35, R43 to R46) -/

/-- R35: the opcode map, `pp` and the opcode of an EVEX encoding of this instruction. -/
def EvexSelects (b1 b2 opcode : Byte) : Prop :=
  (EvexP0.ofByte b1).mmm = 3#3 ∧ (EvexP1.ofByte b2).pp = 1#2 ∧ opcode = 0x1D#8

/-- R43, R46 a: no bit of the EVEX bytes makes the encoding `#UD` by itself. -/
def EvexLegal (b1 b2 b3 : Byte) : Prop :=
  (EvexP0.ofByte b1).reserved = false ∧ (EvexP1.ofByte b2).fixed = true ∧ (EvexP1.ofByte b2).w = false ∧
    (EvexP1.ofByte b2).vvvv = 15#4 ∧ (EvexP2.ofByte b3).notV' = true

/-- R44, R45: the combinations of `z`, `aaa`, `b`, `L'L` and `mod` that are reserved. -/
def EvexReserved (p2 : EvexP2) (mod : BitVec 2) : Prop :=
  (p2.z = true ∧ p2.aaa = 0#3) ∨ (p2.z = true ∧ mod ≠ 3#2) ∨ (p2.b = true ∧ mod ≠ 3#2) ∨
    (p2.b = false ∧ p2.ll = 3#2)

theorem decodeEvex_of_not_selects {b1 b2 opcode : Byte} (h : ¬EvexSelects b1 b2 opcode) (il lo : Bool) (b3 : Byte)
    (bs : List Byte) : decodeEvex il lo (b1 :: b2 :: b3 :: opcode :: bs) = .error .notVcvtps2ph :=
  if_pos h

theorem decodeEvex_of_illegal_prefix {b1 b2 opcode : Byte} (hsel : EvexSelects b1 b2 opcode) (lo : Bool) (b3 : Byte)
    (bs : List Byte) :
    decodeEvex true lo (b1 :: b2 :: b3 :: opcode :: bs) = .error (.invalidOpcode .legacyPrefix) := by
  obtain ⟨hm, hpp, hop⟩ := hsel
  simp [decodeEvex, hm, hpp, hop]

theorem decodeEvex_of_legal {b1 b2 b3 opcode : Byte} (hsel : EvexSelects b1 b2 opcode) (h : EvexLegal b1 b2 b3)
    (lo : Bool) (bs : List Byte) :
    decodeEvex false lo (b1 :: b2 :: b3 :: opcode :: bs) =
      decodeEvexOperands lo (.ofByte b1) (.ofByte b3) bs := by
  obtain ⟨hm, hpp, hop⟩ := hsel
  obtain ⟨hr, hf, hw, hv, hv'⟩ := h
  simp [decodeEvex, hm, hpp, hop, hr, hf, hw, hv, hv']

theorem decodeEvex_of_not_legal {b1 b2 b3 opcode : Byte} (hsel : EvexSelects b1 b2 opcode) (h : ¬EvexLegal b1 b2 b3)
    (lo : Bool) (bs : List Byte) : RaisesUd (decodeEvex false lo (b1 :: b2 :: b3 :: opcode :: bs)) := by
  obtain ⟨hm, hpp, hop⟩ := hsel
  simp only [decodeEvex, hm, hpp, hop, BitVec.ofNat_eq_ofNat, and_self, not_true_eq_false, Bool.false_eq_true, if_false]
  split_ifs with hr hf hw hv hv'
  · simp
  · simp
  · simp
  · simp
  · simp
  · exact absurd ⟨by simpa using hr, by simpa using hf, by simpa using hw, not_not.1 hv, by simpa using hv'⟩ h

theorem decodeEvex_ok {il lo : Bool} {bs : List Byte} {r : Instr × List Byte} (h : decodeEvex il lo bs = .ok r) :
    ∃ b1 b2 b3 opcode tail, bs = b1 :: b2 :: b3 :: opcode :: tail ∧ EvexSelects b1 b2 opcode ∧ EvexLegal b1 b2 b3 ∧
      decodeEvexOperands lo (.ofByte b1) (.ofByte b3) tail = .ok r := by
  simp only [decodeEvex] at h
  split at h
  case h_1 b1 b2 b3 opcode tail =>
    split_ifs at h with hsel hil hr hf hw hv hv'
    exact ⟨b1, b2, b3, opcode, tail, rfl, hsel,
      ⟨by simpa using hr, by simpa using hf, by simpa using hw, not_not.1 hv, by simpa using hv'⟩, h⟩
  case h_2 => simp at h

/-- Only the length 11B is reserved for a register destination, and not with `b` (R45). -/
theorem evexRegForm_eq_none_iff {b : Bool} {ll : BitVec 2} : evexRegForm b ll = none ↔ b = false ∧ ll = 3#2 := by
  have hll : ll = 3#2 ↔ ll ≠ 0#2 ∧ ll ≠ 1#2 ∧ ll ≠ 2#2 := by
    revert ll
    decide
  simp only [evexRegForm, hll]
  split_ifs <;> simp_all

/-- Only the length 11B is reserved for a memory destination (R45). -/
theorem evexMemForm_eq_none_iff {ll : BitVec 2} : evexMemForm ll = none ↔ ll = 3#2 := by
  have hll : ll = 3#2 ↔ ll ≠ 0#2 ∧ ll ≠ 1#2 ∧ ll ≠ 2#2 := by
    revert ll
    decide
  simp only [evexMemForm, hll]
  split_ifs <;> simp_all

theorem raisesUd_decodeEvexOperands_iff {lo : Bool} {p0 : EvexP0} {p2 : EvexP2} {modrm : Byte} {bs : List Byte} :
    RaisesUd (decodeEvexOperands lo p0 p2 (modrm :: bs)) ↔ EvexReserved p2 (ModRM.ofByte modrm).mod := by
  simp only [decodeEvexOperands, EvexReserved, BitVec.ofNat_eq_ofNat]
  by_cases hz : p2.z = true ∧ p2.aaa = 0#3
  case pos => simp [hz]
  by_cases hmod : (ModRM.ofByte modrm).mod = 3#2
  · rw [← evexRegForm_eq_none_iff]
    cases evexRegForm p2.b p2.ll with
    | none => simp [hz, hmod]
    | some form => cases lo <;> simp [hz, hmod]
  simp only [if_neg hz, if_neg hmod]
  cases hz' : p2.z
  case true => simp [hmod]
  cases hb : p2.b
  case true => simp [hmod]
  rw [← evexMemForm_eq_none_iff]
  cases evexMemForm p2.ll with
  | none => simp
  | some form => cases lo <;> simp

/-- R43 to R46 a and b: an EVEX encoding of this instruction is `#UD` for an illegal leading byte, an illegal bit or a
reserved combination. -/
theorem raisesUd_decodeEvex_iff {il lo : Bool} {b1 b2 b3 opcode : Byte} {bs : List Byte} :
    RaisesUd (decodeEvex il lo (b1 :: b2 :: b3 :: opcode :: bs)) ↔
      EvexSelects b1 b2 opcode ∧ (il = true ∨ ¬EvexLegal b1 b2 b3 ∨
        ∃ modrm tail, bs = modrm :: tail ∧ EvexReserved (.ofByte b3) (ModRM.ofByte modrm).mod) := by
  by_cases hsel : EvexSelects b1 b2 opcode
  case neg => simp [decodeEvex_of_not_selects hsel, hsel]
  cases il with
  | true => simp [decodeEvex_of_illegal_prefix hsel, hsel]
  | false =>
    by_cases hleg : EvexLegal b1 b2 b3
    · rw [decodeEvex_of_legal hsel hleg]
      cases bs with
      | nil => simp [decodeEvexOperands, hleg]
      | cons modrm bs => simp [raisesUd_decodeEvexOperands_iff, hsel, hleg]
    · simp [decodeEvex_of_not_legal hsel hleg, hsel, hleg]

end Sys2Proof.Machine

namespace Sys2Proof.Machine

/-! ### From the decoder's answer to the step (R35, R46, R79) -/

theorem decode_vex (bs : List Byte) : decode (0xC4 :: bs) = decodeVex false false bs := rfl

theorem decode_evex (bs : List Byte) : decode (0x62 :: bs) = decodeEvex false false bs := rfl

theorem step_of_decode_error {s : State} {bs : List Byte} (hf : fetchWindow s = bs) {e : DecodeError}
    (h : decode bs = .error e) : step s = decodeFailure e s := by
  simp only [step, hf, h]

theorem step_of_raisesUd {s : State} {bs : List Byte} (hf : fetchWindow s = bs) (h : RaisesUd (decode bs)) :
    step s = .fault (.ud s) := by
  obtain ⟨c, hc⟩ := h
  exact step_of_decode_error hf hc

/-- Settles O3: with the opcode of this instruction, VEX or EVEX bytes that are not legal raise `#UD`. -/
theorem illegalEncodingsRaiseUd : Obligations.IllegalEncodingsRaiseUd := by
  refine ⟨fun s b1 b2 rest hf hm hpp hbad => ?_, fun s b1 b2 b3 rest hf hm hpp hbad => ?_⟩
  · have hleg : ¬VexLegal b2 := fun ⟨hw, hv⟩ =>
      hbad.elim (fun h => absurd (hw.symm.trans h) Bool.false_ne_true) (fun h => h hv)
    refine step_of_raisesUd hf ?_
    rw [decode_vex]
    exact raisesUd_decodeVex_iff.2 ⟨⟨hm, hpp, rfl⟩, .inr hleg⟩
  · have hleg : ¬EvexLegal b1 b2 b3 := fun ⟨_, _, _, hv, _⟩ => hbad hv
    refine step_of_raisesUd hf ?_
    rw [decode_evex]
    exact raisesUd_decodeEvex_iff.2 ⟨⟨hm, hpp, rfl⟩, .inr (.inl hleg)⟩

/-- Settles O4: the first four clauses are EVEX bits that are not legal, the others reserved combinations. -/
theorem evexReservedEncodingsRaiseUd : Obligations.EvexReservedEncodingsRaiseUd := by
  intro s b1 b2 b3 modrm rest hf hm hpp hbad
  have hill : ¬EvexLegal b1 b2 b3 ∨ EvexReserved (.ofByte b3) (ModRM.ofByte modrm).mod := by
    obtain h | h | h | h | h := hbad
    · exact .inl fun ⟨hr, _⟩ => absurd (hr.symm.trans h) Bool.false_ne_true
    · exact .inl fun ⟨_, hfix, _⟩ => absurd (h.symm.trans hfix) Bool.false_ne_true
    · exact .inl fun ⟨_, _, hw, _⟩ => absurd (hw.symm.trans h) Bool.false_ne_true
    · exact .inl fun ⟨_, _, _, _, hv'⟩ => absurd (h.symm.trans hv') Bool.false_ne_true
    · exact .inr h
  refine step_of_raisesUd hf ?_
  rw [decode_evex]
  exact raisesUd_decodeEvex_iff.2 ⟨⟨hm, hpp, rfl⟩, .inr (hill.imp_right fun h => ⟨modrm, rest, rfl, h⟩)⟩

/-! ### Leading bytes (R46 b and c) -/

@[simp] theorem isIllegalPrefix_iff (p : Byte) : isIllegalPrefix p = true ↔ lockRepOrRex p := by
  revert p
  decide

@[simp] theorem isLeftOutPrefix_iff (p : Byte) : isLeftOutPrefix p = true ↔ segmentOrAddressSize p := by
  simp [isLeftOutPrefix, or_assoc]

/-- No byte is of both kinds. -/
theorem not_lockRepOrRex_of_segmentOrAddressSize {p : Byte} (h : segmentOrAddressSize p) : ¬lockRepOrRex p := by
  revert p
  decide

/-- Settles O7: another map, `pp` or opcode does not select this instruction, and another first byte is
neither a leading byte of R46 nor `C4H` or `62H`. -/
theorem otherInstructionsAreRefused : Obligations.OtherInstructionsAreRefused := by
  refine ⟨fun s b1 b2 op rest hf hbad => ?_, fun s b1 b2 b3 op rest hf hbad => ?_, fun s b rest hf hb hrex => ?_⟩
  · have hsel : ¬VexSelects b1 b2 op := fun ⟨hm, hpp, hop⟩ =>
      hbad.elim (fun h => h hm) fun h => h.elim (fun h => h hpp) fun h => h hop
    exact step_of_decode_error hf ((decode_vex _).trans (decodeVex_of_not_selects hsel false false rest))
  · have hsel : ¬EvexSelects b1 b2 op := fun ⟨hm, hpp, hop⟩ =>
      hbad.elim (fun h => h hm) fun h => h.elim (fun h => h hpp) fun h => h hop
    exact step_of_decode_error hf ((decode_evex _).trans (decodeEvex_of_not_selects hsel false false b3 rest))
  · simp only [List.mem_cons, List.not_mem_nil, or_false, not_or] at hb
    have hdec : decode (b :: rest) = .error .notVcvtps2ph := by
      simp [decode, decodeAfter, hb, hrex]
    exact step_of_decode_error hf hdec

/-- What the decoder makes of an accepted instruction after leading bytes of R46 b (`il`) and c (`lo`): b wins over c. -/
def afterPrefixes (il lo : Bool) (r : Instr × List Byte) : Decoded :=
  if il then .error (.invalidOpcode .legacyPrefix) else if lo then .error .leftOutPrefix else .ok r

theorem decodeEvexOperands_of_left_out {p0 : EvexP0} {p2 : EvexP2} {bs : List Byte} {r : Instr × List Byte}
    (h : decodeEvexOperands false p0 p2 bs = .ok r) : decodeEvexOperands true p0 p2 bs = .error .leftOutPrefix := by
  cases bs with
  | nil => simp [decodeEvexOperands] at h
  | cons modrm bs =>
    simp only [decodeEvexOperands, Bool.false_eq_true, if_false, if_true] at h ⊢
    split_ifs at h ⊢
    · cases hform : evexRegForm p2.b p2.ll with
      | none => simp [hform] at h
      | some form => rfl
    · cases hform : evexMemForm p2.ll with
      | none => simp [hform] at h
      | some form => rfl

theorem decodeVex_of_ok {bs : List Byte} {r : Instr × List Byte} (h : decodeVex false false bs = .ok r)
    (il lo : Bool) : decodeVex il lo bs = afterPrefixes il lo r := by
  obtain ⟨b1, b2, opcode, tail, rfl, hsel, hleg, hops⟩ := decodeVex_ok h
  cases il
  · rw [decodeVex_of_legal hsel hleg, hops]
    rfl
  · exact decodeVex_of_illegal_prefix hsel lo tail

theorem decodeEvex_of_ok {bs : List Byte} {r : Instr × List Byte} (h : decodeEvex false false bs = .ok r)
    (il lo : Bool) : decodeEvex il lo bs = afterPrefixes il lo r := by
  obtain ⟨b1, b2, b3, opcode, tail, rfl, hsel, hleg, hops⟩ := decodeEvex_ok h
  cases il
  · rw [decodeEvex_of_legal hsel hleg]
    cases lo
    · exact hops
    · exact decodeEvexOperands_of_left_out hops
  · exact decodeEvex_of_illegal_prefix hsel lo b3 tail

/-- An accepted instruction starts with `C4H` or `62H`. -/
theorem decode_ok {bs : List Byte} {r : Instr × List Byte} (h : decode bs = .ok r) :
    (∃ tail, bs = 0xC4 :: tail ∧ decodeVex false false tail = .ok r) ∨
      ∃ tail, bs = 0x62 :: tail ∧ decodeEvex false false tail = .ok r := by
  cases bs with
  | nil => simp [decode, decodeAfter] at h
  | cons b tail =>
    simp only [decode, decodeAfter] at h
    split_ifs at h with hil hlo hvex hevex
    · exact absurd (decodeAfter_length h).1 (by decide)
    · exact absurd (decodeAfter_length h).2.1 (by decide)
    · exact .inl ⟨tail, by rw [hvex], h⟩
    · exact .inr ⟨tail, by rw [hevex], h⟩

theorem decodeAfter_of_ok {bs : List Byte} {r : Instr × List Byte} (h : decode bs = .ok r) (il lo : Bool) :
    decodeAfter il lo bs = afterPrefixes il lo r := by
  obtain ⟨tail, rfl, htail⟩ | ⟨tail, rfl, htail⟩ := decode_ok h
  · exact decodeVex_of_ok htail il lo
  · exact decodeEvex_of_ok htail il lo

/-- The decoder remembers of leading bytes whether one is illegal (R46 b) and whether one is left out (R46 c). -/
theorem decodeAfter_append {ps : List Byte} (h : ∀ p ∈ ps, lockRepOrRex p ∨ segmentOrAddressSize p) (il lo : Bool)
    (bs : List Byte) :
    decodeAfter il lo (ps ++ bs) = decodeAfter (il || ps.any isIllegalPrefix) (lo || ps.any isLeftOutPrefix) bs := by
  induction ps generalizing il lo with
  | nil => simp
  | cons p ps ih =>
    obtain ⟨hp, hps⟩ := List.forall_mem_cons.1 h
    by_cases hill : isIllegalPrefix p = true
    · have hlo : isLeftOutPrefix p = false := by
        by_contra hlo
        exact not_lockRepOrRex_of_segmentOrAddressSize ((isLeftOutPrefix_iff p).1 (by simpa using hlo))
          ((isIllegalPrefix_iff p).1 hill)
      simp only [List.cons_append, decodeAfter, hill, if_true, ih hps, List.any_cons, hlo]
      simp
    · have hlo : isLeftOutPrefix p = true :=
        (isLeftOutPrefix_iff p).2 (hp.resolve_left fun hp => hill ((isIllegalPrefix_iff p).2 hp))
      simp only [List.cons_append, decodeAfter, hill, hlo, if_true, ih hps, List.any_cons]
      simp

/-- Illegal VEX bytes stay illegal whatever leading bytes are added. -/
theorem raisesUd_decodeVex_mono {il lo : Bool} {bs : List Byte} (h : RaisesUd (decodeVex il lo bs)) {il' : Bool}
    (hil : il = true → il' = true) (lo' : Bool) : RaisesUd (decodeVex il' lo' bs) := by
  match bs with
  | [] | [_] | [_, _] => simp [decodeVex] at h
  | b1 :: b2 :: opcode :: tail =>
    obtain ⟨hsel, hill⟩ := raisesUd_decodeVex_iff.1 h
    exact raisesUd_decodeVex_iff.2 ⟨hsel, hill.imp_left hil⟩

/-- Illegal EVEX bytes stay illegal whatever leading bytes are added. -/
theorem raisesUd_decodeEvex_mono {il lo : Bool} {bs : List Byte} (h : RaisesUd (decodeEvex il lo bs)) {il' : Bool}
    (hil : il = true → il' = true) (lo' : Bool) : RaisesUd (decodeEvex il' lo' bs) := by
  match bs with
  | [] | [_] | [_, _] | [_, _, _] => simp [decodeEvex] at h
  | b1 :: b2 :: b3 :: opcode :: tail =>
    obtain ⟨hsel, hill⟩ := raisesUd_decodeEvex_iff.1 h
    exact raisesUd_decodeEvex_iff.2 ⟨hsel, hill.imp_left hil⟩

/-- An illegal encoding stays illegal whatever leading bytes are added (log entry 14). -/
theorem raisesUd_decodeAfter_mono {il lo : Bool} {bs : List Byte} (h : RaisesUd (decodeAfter il lo bs)) {il' : Bool}
    (hil : il = true → il' = true) (lo' : Bool) : RaisesUd (decodeAfter il' lo' bs) := by
  induction bs generalizing il lo il' lo' with
  | nil => simp [decodeAfter] at h
  | cons b bs ih =>
    simp only [decodeAfter] at h ⊢
    split_ifs at h ⊢
    · exact ih h (fun _ => rfl) lo'
    · exact ih h hil true
    · exact raisesUd_decodeVex_mono h hil lo'
    · exact raisesUd_decodeEvex_mono h hil lo'
    · simp at h

/-- Settles O6: the leading bytes leave the decoder two flags, an accepted instruction is then rejected by the first of
them that is set, and an illegal encoding stays illegal. -/
theorem prefixBytesRejectTheInstruction : Obligations.PrefixBytesRejectTheInstruction := by
  intro s ps bs hf hps
  have hdec : decode (ps ++ bs) = decodeAfter (ps.any isIllegalPrefix) (ps.any isLeftOutPrefix) bs := by
    simpa [decode] using decodeAfter_append hps false false bs
  refine ⟨fun i rest hok ⟨p, hp, hill⟩ => ?_, fun i rest hok hne hall => ?_, fun c hc => ?_⟩
  · have hil : ps.any isIllegalPrefix = true := List.any_eq_true.2 ⟨p, hp, (isIllegalPrefix_iff p).2 hill⟩
    have herr : decode (ps ++ bs) = .error (.invalidOpcode .legacyPrefix) := by
      rw [hdec, decodeAfter_of_ok hok, hil]
      rfl
    exact ⟨herr, step_of_decode_error hf herr⟩
  · have hil : ps.any isIllegalPrefix = false := List.any_eq_false.2 fun p hp hill =>
      not_lockRepOrRex_of_segmentOrAddressSize (hall p hp) ((isIllegalPrefix_iff p).1 hill)
    obtain ⟨p, hp⟩ := List.exists_mem_of_ne_nil ps hne
    have hlo : ps.any isLeftOutPrefix = true := List.any_eq_true.2 ⟨p, hp, (isLeftOutPrefix_iff p).2 (hall p hp)⟩
    have herr : decode (ps ++ bs) = .error .leftOutPrefix := by
      rw [hdec, decodeAfter_of_ok hok, hil, hlo]
      rfl
    exact ⟨herr, step_of_decode_error hf herr⟩
  · refine step_of_raisesUd hf ?_
    rw [hdec]
    exact raisesUd_decodeAfter_mono (il := false) (lo := false) ⟨c, hc⟩ nofun _

end Sys2Proof.Machine

namespace Sys2Proof.Machine

/-! ### `{sae}` (R45) -/

/-- With `b` and a register destination the operands are those of the `{sae}` form, for every `L'L`. -/
theorem decodeEvexOperands_sae (p0 : EvexP0) {p2 : EvexP2} (hb : p2.b = true) {modrm : Byte}
    (hmod : (ModRM.ofByte modrm).mod = 3#2) (imm : Byte) (rest : List Byte) :
    decodeEvexOperands false p0 p2 (modrm :: imm :: rest) =
      if p2.z ∧ p2.aaa = 0 then .error (.invalidOpcode .zeroingUnmasked)
      else .ok (.evex512RegSae (vregOf (!p0.notX) (!p0.notB) (ModRM.ofByte modrm).rm) (maskingOf p2.z p2.aaa)
        (vregOf (!p0.notR') (!p0.notR) (ModRM.ofByte modrm).reg) imm, rest) := by
  simp [decodeEvexOperands, hmod, evexRegForm, hb, decodeRegImm]

/-- The EVEX bytes use `L'L` only in reading the operands. -/
theorem decodeEvex_congr_ll (b1 b2 opcode : Byte) (p2 : EvexP2) (ll : BitVec 2) {bs : List Byte}
    (h : decodeEvexOperands false (.ofByte b1) { p2 with ll := ll } bs =
      decodeEvexOperands false (.ofByte b1) p2 bs) :
    decodeEvex false false (b1 :: b2 :: EvexP2.toByte { p2 with ll := ll } :: opcode :: bs) =
      decodeEvex false false (b1 :: b2 :: EvexP2.toByte p2 :: opcode :: bs) := by
  simp only [decodeEvex, EvexP2.ofByte_toByte, h]

/-- Settles O5: the operands of `{sae}` do not depend on `L'L`, and what is accepted is read from them. -/
theorem saeIgnoresVectorLength : Obligations.SaeIgnoresVectorLength := by
  intro b1 b2 modrm imm p2 ll rest hb hmod
  refine ⟨decodeEvex_congr_ll b1 b2 0x1D p2 ll ?_, fun i r hok => ?_⟩
  · rw [decodeEvexOperands_sae _ hb hmod, decodeEvexOperands_sae _ (p2 := { p2 with ll := ll }) hb hmod]
  · obtain ⟨_, _, _, _, _, hbytes, -, -, hops⟩ := decodeEvex_ok ((decode_evex _).symm.trans hok)
    simp only [List.cons.injEq] at hbytes
    obtain ⟨rfl, rfl, rfl, rfl, rfl⟩ := hbytes
    rw [EvexP2.ofByte_toByte, decodeEvexOperands_sae _ hb hmod] at hops
    split_ifs at hops
    simp only [Except.ok.injEq, Prod.mk.injEq] at hops
    obtain ⟨rfl, rfl⟩ := hops
    exact ⟨_, _, _, rfl, rfl⟩

/-! ### What the decoder accepts is well-formed (R37, R39, R44) -/

theorem lowField_gregOf (ext : Bool) (field : BitVec 3) : lowField (gregOf ext field) = field.toNat := by
  revert ext field
  decide

theorem illVexReg_vregOf (ext3 : Bool) (field : BitVec 3) : illVexReg (vregOf false ext3 field) = [] :=
  if_pos (vregOf_false_lt ext3 field)

theorem illMaskReg_maskingOf (z : Bool) (aaa : BitVec 3) : illMaskReg (maskingOf z aaa) = [] := by
  revert z aaa
  decide

theorem illMaskMem_maskingOf (aaa : BitVec 3) : illMaskMem (maskingOf false aaa) = [] := by
  revert aaa
  decide

/-- Only `mod` = 00B announces no displacement. -/
theorem mod_eq_zero_of_takeDisp_absent {mod : BitVec 2} {bs rest : List Byte}
    (h : takeDisp mod bs = some (.absent, rest)) : mod = 0 := by
  simp only [takeDisp] at h
  split_ifs at h with h0 h1
  · exact h0
  · cases bs <;> simp at h
  · obtain ⟨d, -, hd⟩ := operand_of_map_eq_some h
    cases hd

/-- A base whose field is 101B has a displacement, since `mod` = 00B means no base there (R39). -/
theorem base_has_displacement {b : Bool} {mod : BitVec 2} {field : BitVec 3} {bs rest : List Byte} {d : Disp}
    (h : takeDisp mod bs = some (d, rest)) (hbase : ¬(mod = 0 ∧ field = 5)) :
    ¬(lowField (gregOf b field) = 5 ∧ d = .absent) := by
  rintro ⟨hfield, rfl⟩
  rw [lowField_gregOf] at hfield
  exact hbase ⟨mod_eq_zero_of_takeDisp_absent h, BitVec.eq_of_toNat_eq hfield⟩

theorem illMem_of_decodeMem {x b : Bool} {m : ModRM} {bs rest : List Byte} {mem : MemOperand}
    (h : decodeMem x b m bs = some (mem, rest)) : illMem mem = [] := by
  simp only [decodeMem] at h
  split_ifs at h with hrm hrip
  · cases bs with
    | nil => simp at h
    | cons sib bs =>
      simp only at h
      split_ifs at h with hbase
      · obtain ⟨d, -, rfl⟩ := operand_of_map_eq_some h
        rfl
      · obtain ⟨d, hd, rfl⟩ := operand_of_map_eq_some h
        exact if_neg (base_has_displacement hd hbase)
  · obtain ⟨d, -, rfl⟩ := operand_of_map_eq_some h
    rfl
  · obtain ⟨d, hd, rfl⟩ := operand_of_map_eq_some h
    have h4 : lowField (gregOf b m.rm) ≠ 4 := fun e => hrm (BitVec.eq_of_toNat_eq (lowField_gregOf b m.rm ▸ e))
    simp only [illMem, if_neg h4, if_neg (base_has_displacement hd hrip)]

theorem wellFormed_evexRegForm {b : Bool} {ll : BitVec 2} {form : VReg → Masking → VReg → Byte → Instr}
    (h : evexRegForm b ll = some form) (d : VReg) {m : Masking} (hm : illMaskReg m = []) (src : VReg) (imm : Byte) :
    (form d m src imm).WellFormed := by
  simp only [evexRegForm] at h
  split_ifs at h
  all_goals
    obtain rfl := Option.some.inj h
    exact hm

theorem wellFormed_evexMemForm {ll : BitVec 2} {form : MemOperand → Masking → VReg → Byte → Instr}
    (h : evexMemForm ll = some form) {d : MemOperand} (hd : illMem d = []) {m : Masking} (hm : illMaskMem m = [])
    (src : VReg) (imm : Byte) : (form d m src imm).WellFormed := by
  simp only [evexMemForm] at h
  split_ifs at h
  all_goals
    obtain rfl := Option.some.inj h
    exact List.append_eq_nil_iff.2 ⟨hd, hm⟩

/-! ### What the decoder leaves over is the end of what it was given -/

theorem takeDisp32_suffix {bs rest : List Byte} {d : BitVec 32} (h : takeDisp32 bs = some (d, rest)) : rest <:+ bs := by
  match bs, h with
  | b0 :: b1 :: b2 :: b3 :: r, h =>
    simp only [takeDisp32, Option.some.injEq, Prod.mk.injEq] at h
    exact ⟨[b0, b1, b2, b3], h.2 ▸ rfl⟩

theorem takeDisp_suffix {mod : BitVec 2} {bs rest : List Byte} {d : Disp} (h : takeDisp mod bs = some (d, rest)) :
    rest <:+ bs := by
  simp only [takeDisp] at h
  split_ifs at h
  · simp only [Option.some.injEq, Prod.mk.injEq] at h
    exact h.2 ▸ List.suffix_refl bs
  · cases bs with
    | nil => simp at h
    | cons b bs =>
      simp only [Option.some.injEq, Prod.mk.injEq] at h
      exact h.2 ▸ List.suffix_cons b bs
  · obtain ⟨d32, h32, -⟩ := operand_of_map_eq_some h
    exact takeDisp32_suffix h32

theorem decodeMem_suffix {x b : Bool} {m : ModRM} {bs rest : List Byte} {mem : MemOperand}
    (h : decodeMem x b m bs = some (mem, rest)) : rest <:+ bs := by
  simp only [decodeMem] at h
  split_ifs at h
  · cases bs with
    | nil => simp at h
    | cons sib bs =>
      refine List.IsSuffix.trans ?_ (List.suffix_cons sib bs)
      simp only at h
      split_ifs at h
      · obtain ⟨d, hd, -⟩ := operand_of_map_eq_some h
        exact takeDisp32_suffix hd
      · obtain ⟨d, hd, -⟩ := operand_of_map_eq_some h
        exact takeDisp_suffix hd
  · obtain ⟨d, hd, -⟩ := operand_of_map_eq_some h
    exact takeDisp32_suffix hd
  · obtain ⟨d, hd, -⟩ := operand_of_map_eq_some h
    exact takeDisp_suffix hd

/-- The bytes after ModRM, the memory operand and the immediate. -/
theorem immediate_suffix {x b : Bool} {m : ModRM} {bs rest : List Byte} {mem : MemOperand} {imm : Byte}
    (h : decodeMem x b m bs = some (mem, imm :: rest)) (modrm : Byte) : rest <:+ modrm :: bs :=
  ((List.suffix_cons imm rest).trans (decodeMem_suffix h)).trans (List.suffix_cons modrm bs)

/-! ### What the decoder accepts (R32 to R45) -/

theorem decodeVexOperands_wellFormed_suffix {p1 : VexP1} {p2 : VexP2} {bs : List Byte} {i : Instr} {rest : List Byte}
    (h : decodeVexOperands p1 p2 bs = .ok (i, rest)) :
    i.WellFormed ∧ rest <:+ bs := by
  cases bs with
  | nil => simp [decodeVexOperands] at h
  | cons modrm bs =>
    simp only [decodeVexOperands] at h
    split at h
    · obtain ⟨imm, rfl, rfl⟩ := decodeRegImm_ok h
      refine ⟨?_, [modrm, imm], rfl⟩
      cases p2.l <;> exact List.append_eq_nil_iff.2 ⟨illVexReg_vregOf _ _, illVexReg_vregOf _ _⟩
    · obtain ⟨mem, imm, hmem, rfl⟩ := decodeMemImm_ok h
      refine ⟨?_, immediate_suffix hmem modrm⟩
      cases p2.l <;> exact List.append_eq_nil_iff.2 ⟨illMem_of_decodeMem hmem, illVexReg_vregOf _ _⟩

theorem decodeEvexOperands_wellFormed_suffix {p0 : EvexP0} {p2 : EvexP2} {bs : List Byte} {i : Instr} {rest : List Byte}
    (h : decodeEvexOperands false p0 p2 bs = .ok (i, rest)) :
    i.WellFormed ∧ rest <:+ bs := by
  cases bs with
  | nil => simp [decodeEvexOperands] at h
  | cons modrm bs =>
    simp only [decodeEvexOperands, Bool.false_eq_true, if_false] at h
    split_ifs at h with hz hmod hzm hb
    · cases hform : evexRegForm p2.b p2.ll with
      | none => simp [hform] at h
      | some form =>
        obtain ⟨imm, rfl, rfl⟩ := decodeRegImm_ok (by simpa only [hform] using h)
        exact ⟨wellFormed_evexRegForm hform _ (illMaskReg_maskingOf _ _) _ imm, [modrm, imm], rfl⟩
    · cases hform : evexMemForm p2.ll with
      | none => simp [hform] at h
      | some form =>
        obtain ⟨mem, imm, hmem, rfl⟩ := decodeMemImm_ok (by simpa only [hform] using h)
        have hm : illMaskMem (maskingOf p2.z p2.aaa) = [] := by
          rw [Bool.not_eq_true] at hzm
          rw [hzm]
          exact illMaskMem_maskingOf p2.aaa
        exact ⟨wellFormed_evexMemForm hform (illMem_of_decodeMem hmem) hm _ imm, immediate_suffix hmem modrm⟩

theorem decode_wellFormed_suffix {bs : List Byte} {i : Instr} {rest : List Byte} (h : decode bs = .ok (i, rest)) :
    i.WellFormed ∧ rest <:+ bs := by
  obtain ⟨_, rfl, hvex⟩ | ⟨_, rfl, hevex⟩ := decode_ok h
  · obtain ⟨b1, b2, opcode, _, rfl, -, -, hops⟩ := decodeVex_ok hvex
    obtain ⟨hwf, hsuf⟩ := decodeVexOperands_wellFormed_suffix hops
    exact ⟨hwf, hsuf.trans ⟨[0xC4, b1, b2, opcode], rfl⟩⟩
  · obtain ⟨b1, b2, b3, opcode, _, rfl, -, -, hops⟩ := decodeEvex_ok hevex
    obtain ⟨hwf, hsuf⟩ := decodeEvexOperands_wellFormed_suffix hops
    exact ⟨hwf, hsuf.trans ⟨[0x62, b1, b2, b3, opcode], rfl⟩⟩

/-- Settles O2: the registers, the mask and the operand come from fields that name only encodable ones, and what is left
over is as long as the instruction leaves it. -/
theorem decodedIsWellFormedAndMeasured : Obligations.DecodedIsWellFormedAndMeasured := by
  intro bs i rest h
  obtain ⟨hwf, hsuf⟩ := decode_wellFormed_suffix h
  have hlen := decode_length h
  refine ⟨hwf, hlen, ?_⟩
  rw [List.suffix_iff_eq_drop.1 hsuf, hlen, Nat.add_sub_cancel]

end Sys2Proof.Machine

namespace Sys2Proof.Machine

/-! ### The spec's decoding vectors -/

/-- Settles O8, by running the decoder on the six words. -/
theorem specWordsDecode : Obligations.SpecWordsDecode := by
  unfold Obligations.SpecWordsDecode
  decide

/-! ### The effective address as a number (R39, R40, R41, R61 b) -/

/-- `DISP` as an exact number. -/
def dispInt (n : Nat) : Disp → Int
  | .absent => 0
  | .d8 b => b.toInt * n
  | .d32 d => d.toInt

/-- `INDEX` as an exact number. -/
def indexInt (s : State) (i : GReg) (scale : BitVec 2) : Int :=
  if i.val = 4 then 0 else s.g[i].toNat * 2 ^ scale.toNat

theorem signExtend_eq_ofInt {w : Nat} (x : BitVec w) : x.signExtend 64 = BitVec.ofInt 64 x.toInt := rfl

theorem dispValue_eq_ofInt (n : Nat) (d : Disp) : dispValue n d = BitVec.ofInt 64 (dispInt n d) := by
  cases d with
  | absent => rfl
  | d8 b => rw [dispValue, dispInt, signExtend_eq_ofInt, BitVec.ofInt_mul, BitVec.ofInt_natCast]
  | d32 d => rfl

theorem eq_ofInt_toNat {w : Nat} (x : BitVec w) : x = BitVec.ofInt w x.toNat := by
  rw [BitVec.ofInt_natCast, BitVec.ofNat_toNat, BitVec.setWidth_eq]

theorem indexValue_eq_ofInt (s : State) (i : GReg) (scale : BitVec 2) :
    indexValue s i scale = BitVec.ofInt 64 (indexInt s i scale) := by
  have hi : i = 4 ↔ i.val = 4 := Fin.ext_iff
  simp only [indexValue, indexInt, hi]
  split
  · rfl
  · rw [BitVec.ofInt_mul, ← eq_ofInt_toNat, ← BitVec.ofInt_natCast]
    norm_cast

/-- The effective address before it is reduced. -/
def addressInt (s : State) (n len : Nat) : MemOperand → Int
  | .based b d => s.g[b].toNat + dispInt n d
  | .ripRel d => s.rip.toNat + len + d.toInt
  | .sib b i scale d => s.g[b].toNat + indexInt s i scale + dispInt n d
  | .sibNoBase i scale d => indexInt s i scale + d.toInt

/-- Every summand is an exact number reduced, and reducing commutes with sums. -/
theorem effectiveAddress_eq_ofInt (s : State) (n len : Nat) (mem : MemOperand) :
    effectiveAddress s n len mem = BitVec.ofInt 64 (addressInt s n len mem) := by
  cases mem with
  | based b d => rw [effectiveAddress, addressInt, BitVec.ofInt_add, ← eq_ofInt_toNat, dispValue_eq_ofInt]
  | ripRel d =>
    rw [effectiveAddress, addressInt, BitVec.ofInt_add, BitVec.ofInt_add, ← eq_ofInt_toNat, BitVec.ofInt_natCast,
      signExtend_eq_ofInt]
  | sib b i scale d =>
    rw [effectiveAddress, addressInt, BitVec.ofInt_add, BitVec.ofInt_add, ← eq_ofInt_toNat, indexValue_eq_ofInt,
      dispValue_eq_ofInt]
  | sibNoBase i scale d =>
    rw [effectiveAddress, addressInt, BitVec.ofInt_add, indexValue_eq_ofInt, signExtend_eq_ofInt]

theorem toNat_effectiveAddress (s : State) (n len : Nat) (mem : MemOperand) :
    ((effectiveAddress s n len mem).toNat : Int) = addressInt s n len mem % 2 ^ 64 := by
  rw [effectiveAddress_eq_ofInt, BitVec.toNat_ofInt]
  omega

/-- Settles O44: the exact sum, for each of the four operand shapes. -/
theorem effectiveAddressIsExactModulo : Obligations.EffectiveAddressIsExactModulo := fun s n len =>
  ⟨fun b d => toNat_effectiveAddress s n len (.based b d), fun d => toNat_effectiveAddress s n len (.ripRel d),
    fun b i scale d => toNat_effectiveAddress s n len (.sib b i scale d),
    fun i scale d => toNat_effectiveAddress s n len (.sibNoBase i scale d)⟩

end Sys2Proof.Machine

namespace Sys2Proof.Machine

/-! ### A rounding step (R56) -/

@[simp] theorem roundTo_snd (v u : Nat) (rc : Rounding) (s : Bool) :
    (roundTo v u rc s).2 = decide (v % u ≠ 0) := by
  rw [roundTo]
  split <;> simp [*]

theorem roundTo_fst (v u : Nat) (rc : Rounding) (s : Bool) :
    (roundTo v u rc s).1 = v / u + if v % u ≠ 0 ∧ roundsUp v u rc s = true then 1 else 0 := by
  rw [roundTo]
  split <;> simp [*]

theorem div_le_roundTo (v u : Nat) (rc : Rounding) (s : Bool) : v / u ≤ (roundTo v u rc s).1 := by
  simp [roundTo_fst]

theorem roundTo_le_div_add_one (v u : Nat) (rc : Rounding) (s : Bool) : (roundTo v u rc s).1 ≤ v / u + 1 := by
  rw [roundTo_fst]
  split <;> omega

/-- Rounding does not depend on the unit in which the magnitude and the step are counted. -/
theorem roundTo_mul_right (v u : Nat) {c : Nat} (hc : 0 < c) (rc : Rounding) (s : Bool) :
    roundTo (v * c) (u * c) rc s = roundTo v u rc s := by
  have hdiv : v * c / (u * c) = v / u := Nat.mul_div_mul_right v u hc
  have hmod : v * c % (u * c) = v % u * c := Nat.mul_mod_mul_right c v u
  have hgt : 2 * (v % u * c) > u * c ↔ 2 * (v % u) > u := by
    rw [← mul_assoc]
    exact Nat.mul_lt_mul_right hc
  have heq : 2 * (v % u * c) = u * c ↔ 2 * (v % u) = u := by
    rw [← mul_assoc]
    exact Nat.mul_left_inj hc.ne'
  have hup : roundsUp (v * c) (u * c) rc s = roundsUp v u rc s := by
    cases rc <;> simp only [roundsUp, hdiv, hmod, hgt, heq]
  have hz : v % u * c = 0 ↔ v % u = 0 := by simp [hc.ne']
  simp only [roundTo, hdiv, hmod, hup, hz]

/-- The direction depends on the magnitude through its remainder and the parity of its steps alone. -/
theorem roundsUp_congr {v v' u : Nat} (hmod : v % u = v' % u) (hdiv : v / u % 2 = v' / u % 2) (rc : Rounding)
    (s : Bool) : roundsUp v u rc s = roundsUp v' u rc s := by
  cases rc <;> simp only [roundsUp, hmod, hdiv]

/-! ### The grid of the half-precision magnitudes (R51, R57, R59) -/

/-- The first 2^11 steps from the bottom, or from a power of two on, are equally spaced. -/
theorem halfMagnitude_grid {k q : Nat} (hq : q ≤ 2048) (hk : k = 0 ∨ 1024 ≤ q) :
    halfMagnitude (1024 * k + q) = q * 2 ^ (135 + k) := by
  rw [halfMagnitude]
  obtain hlt | hge := Nat.lt_or_ge q 1024
  · obtain rfl : k = 0 := by omega
    rw [if_pos (by omega), show (1024 * 0 + q) % 1024 = q by omega]
  obtain hlt | rfl := Nat.lt_or_eq_of_le hq
  · rw [if_neg (by omega), show 1024 + (1024 * k + q) % 1024 = q by omega,
      show (1024 * k + q) / 1024 + 134 = 135 + k by omega]
  · rw [if_neg (by omega), show 1024 + (1024 * k + 2048) % 1024 = 1024 by omega,
      show (1024 * k + 2048) / 1024 + 134 = 135 + k + 1 by omega]
    ring

theorem halfMagnitude_strictMono : StrictMono halfMagnitude := by
  refine strictMono_nat_of_lt_succ fun n => ?_
  obtain ⟨k, q, hn, hq, hk⟩ : ∃ k q, n = 1024 * k + q ∧ q < 2048 ∧ (k = 0 ∨ 1024 ≤ q) := by
    obtain h | h := Nat.lt_or_ge n 1024
    · exact ⟨0, n, by omega, by omega, .inl rfl⟩
    · exact ⟨n / 1024 - 1, n % 1024 + 1024, by omega, by omega, by omega⟩
  rw [hn, add_assoc, halfMagnitude_grid hq.le hk, halfMagnitude_grid (by omega) (by omega)]
  exact Nat.mul_lt_mul_of_pos_right (by omega) (by positivity)

/-! ### Rounding onto that grid (R56 to R59)

The three branches of `convertFinite` deliver one function of the magnitude: `roundHalf`, the number of a half
(infinity is 7C00H), capped by what a masked overflow delivers. -/

/-- The grid at the magnitude `v` has the step `2 ^ gridExp v`. -/
def gridExp (v : Nat) : Nat := max (v.log2 - 10) 135

/-- The largest half not above `v`, as its lower 15 bits. -/
def floorHalf (v : Nat) : Nat := 1024 * (gridExp v - 135) + v / 2 ^ gridExp v

/-- The half that `v` rounds to, as its lower 15 bits; 7C00H and above is overflow. -/
def roundHalf (v : Nat) (rc : Rounding) (s : Bool) : Nat :=
  1024 * (gridExp v - 135) + (roundTo v (2 ^ gridExp v) rc s).1

/-- Step 1 of R56: `v` rounded to 11 significant bits with unbounded exponent. -/
def round11 (v : Nat) (rc : Rounding) (s : Bool) : Nat :=
  (roundTo v (2 ^ (v.log2 - 10)) rc s).1 * 2 ^ (v.log2 - 10)

/-- What a masked overflow delivers (R58), without the sign. -/
def overflowBits (rc : Rounding) (s : Bool) : Nat := (overflowHalf rc s).toNat % 2 ^ 15

theorem significand_lt (v : Nat) : v / 2 ^ (v.log2 - 10) < 2048 := by
  have hv : v < 2 ^ (v.log2 + 1) := Nat.lt_log2_self
  have hp : 2 ^ (v.log2 + 1) ≤ 2 ^ (11 + (v.log2 - 10)) := Nat.pow_le_pow_right (by omega) (by omega)
  exact Nat.div_lt_of_lt_mul (by rw [mul_comm, ← Nat.pow_add 2 11]; omega)

theorem le_significand {v : Nat} (h : 10 ≤ v.log2) : 1024 ≤ v / 2 ^ (v.log2 - 10) := by
  have hv : 2 ^ v.log2 ≤ v := Nat.log2_self_le (by rintro rfl; simp at h)
  have hp : 2 ^ v.log2 = 1024 * 2 ^ (v.log2 - 10) := by rw [← Nat.pow_add 2 10, Nat.add_sub_of_le h]
  exact (Nat.le_div_iff_mul_le (by positivity)).2 (by omega)

theorem gridExp_of_le {v : Nat} (h : v.log2 ≤ 145) : gridExp v = 135 := by
  rw [gridExp]
  omega

theorem gridExp_of_ge {v : Nat} (h : 145 ≤ v.log2) : gridExp v = v.log2 - 10 := by
  rw [gridExp]
  omega

theorem div_grid_lt (v : Nat) : v / 2 ^ gridExp v < 2048 := by
  have hp : 2 ^ (v.log2 - 10) ≤ 2 ^ gridExp v := Nat.pow_le_pow_right (by omega) (le_max_left ..)
  exact (Nat.div_le_div_left hp (by positivity)).trans_lt (significand_lt v)

theorem gridExp_eq_or_le_div (v : Nat) : gridExp v - 135 = 0 ∨ 1024 ≤ v / 2 ^ gridExp v := by
  obtain h | h := Nat.le_total v.log2 145
  · exact .inl (by rw [gridExp_of_le h])
  · exact .inr (by rw [gridExp_of_ge h]; exact le_significand (by omega))

theorem halfMagnitude_gridExp {v q : Nat} (hq : v / 2 ^ gridExp v ≤ q) (hq' : q ≤ v / 2 ^ gridExp v + 1) :
    halfMagnitude (1024 * (gridExp v - 135) + q) = q * 2 ^ gridExp v := by
  have hlt := div_grid_lt v
  rw [halfMagnitude_grid (by omega) ((gridExp_eq_or_le_div v).imp_right (le_trans · hq)),
    Nat.add_sub_of_le (show 135 ≤ gridExp v from le_max_right ..)]

theorem halfMagnitude_roundHalf (v : Nat) (rc : Rounding) (s : Bool) :
    halfMagnitude (roundHalf v rc s) = (roundTo v (2 ^ gridExp v) rc s).1 * 2 ^ gridExp v :=
  halfMagnitude_gridExp (div_le_roundTo ..) (roundTo_le_div_add_one ..)

/-- The magnitude lies on its lower neighbour or a remainder above it. -/
theorem halfMagnitude_floorHalf_add (v : Nat) : halfMagnitude (floorHalf v) + v % 2 ^ gridExp v = v := by
  rw [floorHalf, halfMagnitude_gridExp le_rfl (Nat.le_succ _)]
  exact Nat.div_add_mod' ..

/-- The upper neighbour is one step higher. -/
theorem halfMagnitude_floorHalf_succ (v : Nat) :
    halfMagnitude (floorHalf v + 1) = halfMagnitude (floorHalf v) + 2 ^ gridExp v := by
  rw [floorHalf, add_assoc, halfMagnitude_gridExp (Nat.le_succ _) le_rfl, halfMagnitude_gridExp le_rfl (Nat.le_succ _)]
  exact Nat.succ_mul ..

theorem roundHalf_eq (v : Nat) (rc : Rounding) (s : Bool) :
    roundHalf v rc s =
      floorHalf v + if v % 2 ^ gridExp v ≠ 0 ∧ roundsUp v (2 ^ gridExp v) rc s = true then 1 else 0 := by
  rw [roundHalf, floorHalf, roundTo_fst, add_assoc]

/-- A half's parity is that of the number of steps (ties go to even in R56). -/
theorem floorHalf_mod_two (v : Nat) : floorHalf v % 2 = v / 2 ^ gridExp v % 2 := by
  rw [floorHalf]
  omega

/-! ### The two roundings of R56 and R57 and overflow -/

theorem roundHalf_le_of_log2_lt {v : Nat} (h : v.log2 < 145) (rc : Rounding) (s : Bool) : roundHalf v rc s ≤ 1024 := by
  have hv : v < 2 ^ 145 := lt_of_lt_of_le Nat.lt_log2_self (Nat.pow_le_pow_right (by omega) h)
  have hq := roundTo_le_div_add_one v (2 ^ 135) rc s
  rw [roundHalf, gridExp_of_le h.le]
  omega

theorem round11_le (v : Nat) (rc : Rounding) (s : Bool) : round11 v rc s ≤ 2 ^ (max v.log2 10 + 1) := by
  have hq := roundTo_le_div_add_one v (2 ^ (v.log2 - 10)) rc s
  have hlt := significand_lt v
  calc round11 v rc s ≤ 2 ^ 11 * 2 ^ (v.log2 - 10) := Nat.mul_le_mul_right _ (by omega)
    _ = 2 ^ (max v.log2 10 + 1) := by rw [← pow_add]; congr 1; omega

theorem round11_of_log2_ge {v : Nat} (h : 145 ≤ v.log2) (rc : Rounding) (s : Bool) :
    round11 v rc s = halfMagnitude (roundHalf v rc s) := by
  rw [halfMagnitude_roundHalf, gridExp_of_ge h, round11]

/-- Overflow is decided by the rounding of step 1, and shows in the number of the half (R58). -/
theorem overflow_iff (v : Nat) (rc : Rounding) (s : Bool) :
    2 ^ 175 ≤ round11 v rc s ↔ 0x7C00 ≤ roundHalf v rc s := by
  obtain h | h := Nat.lt_or_ge v.log2 145
  · have hr := roundHalf_le_of_log2_lt h rc s
    have hr' := round11_le v rc s
    have hp : 2 ^ (max v.log2 10 + 1) ≤ 2 ^ 145 := Nat.pow_le_pow_right (by omega) (by omega)
    omega
  · rw [round11_of_log2_ge h, show 2 ^ 175 = halfMagnitude 0x7C00 by decide]
    exact halfMagnitude_strictMono.le_iff_le

theorem le_round11 {v : Nat} (h : 10 ≤ v.log2) (rc : Rounding) (s : Bool) : 2 ^ v.log2 ≤ round11 v rc s :=
  calc 2 ^ v.log2 = 1024 * 2 ^ (v.log2 - 10) := by rw [← Nat.pow_add 2 10, Nat.add_sub_of_le h]
    _ ≤ round11 v rc s := Nat.mul_le_mul_right _ ((le_significand h).trans (div_le_roundTo ..))

theorem normal_of_log2_ge {v : Nat} (h : 145 ≤ v.log2) (rc : Rounding) (s : Bool) : 2 ^ 145 ≤ round11 v rc s :=
  (Nat.pow_le_pow_right (by omega) h).trans (le_round11 (by omega) rc s)

/-- A magnitude that rounds below 2^-14 is on the denormal grid (R57). -/
theorem gridExp_of_tiny {v : Nat} {rc : Rounding} {s : Bool} (h : round11 v rc s < 2 ^ 145) : gridExp v = 135 :=
  gridExp_of_le (Nat.le_of_not_lt fun hlog => h.not_ge (normal_of_log2_ge hlog.le rc s))

/-- Just below 2^-14, a carry of the first rounding to 2^-14 is a carry of the rounding on the denormal grid. -/
theorem roundTo_double_of_carry {v : Nat} {rc : Rounding} {s : Bool} (h : v / 2 ^ 134 = 2047)
    (hq : (roundTo v (2 ^ 134) rc s).1 = 2048) :
    v % 2 ^ 134 ≠ 0 ∧ v % 2 ^ 135 ≠ 0 ∧ (roundTo v (2 ^ 135) rc s).1 = 1024 := by
  rw [roundTo_fst, h] at hq
  have hup : v % 2 ^ 134 ≠ 0 ∧ roundsUp v (2 ^ 134) rc s = true := by
    by_contra hn
    simp only [if_neg hn, Nat.reduceAdd, Nat.reduceEqDiff] at hq
  have hmod : v % 2 ^ 135 = v % 2 ^ 134 + 2 ^ 134 := by omega
  have hup' : roundsUp v (2 ^ 135) rc s = true := by
    cases rc with
    | nearest => simp only [roundsUp, Bool.or_eq_true, decide_eq_true_eq]; omega
    | down => exact hup.2
    | up => exact hup.2
    | truncate => exact hup.2
  refine ⟨hup.1, by omega, ?_⟩
  rw [roundTo_fst, if_pos ⟨by omega, hup'⟩]
  omega

/-- Where step 1 gives a normal result, its significand and exponent are the number of the half (R59). -/
theorem roundHalf_of_normal {v : Nat} {rc : Rounding} {s : Bool} (h : 2 ^ 145 ≤ round11 v rc s) :
    144 ≤ v.log2 ∧ (v % 2 ^ (v.log2 - 10) ≠ 0 ↔ v % 2 ^ gridExp v ≠ 0) ∧
      roundHalf v rc s + 1024 = 1024 * (v.log2 - 144) + (roundTo v (2 ^ (v.log2 - 10)) rc s).1 := by
  obtain hlog | hlog := Nat.lt_or_ge v.log2 145
  · have hr := round11_le v rc s
    have hlog : v.log2 = 144 := by
      by_contra hne
      have hp : 2 ^ (max v.log2 10 + 1) ≤ 2 ^ 144 := Nat.pow_le_pow_right (by omega) (by omega)
      omega
    have hexp : v.log2 - 10 = 134 := by omega
    have hlt := significand_lt v
    have hle := roundTo_le_div_add_one v (2 ^ (v.log2 - 10)) rc s
    rw [round11, hexp] at h
    rw [hexp] at hlt hle
    have hcarry : (roundTo v (2 ^ 134) rc s).1 = 2048 := by omega
    obtain ⟨hm, hm', hq⟩ := roundTo_double_of_carry (by omega) hcarry
    rw [roundHalf, gridExp_of_le (by omega), hexp, hq, hcarry]
    omega
  · rw [roundHalf, gridExp_of_ge hlog]
    exact ⟨by omega, Iff.rfl, by omega⟩

end Sys2Proof.Machine

namespace Sys2Proof.Machine

/-! ### Assembling a half (R51, R59) -/

theorem halfOfSign_toNat (s : Bool) (rest : BitVec 15) :
    (halfOfSign s rest).toNat = s.toNat * 2 ^ 15 + rest.toNat := by
  rw [halfOfSign, BitVec.toNat_append, ← Nat.shiftLeft_add_eq_or_of_lt rest.isLt, Nat.shiftLeft_eq,
    BitVec.toNat_ofBool]

@[simp] theorem halfOfSign_sign (s : Bool) (rest : BitVec 15) : (halfOfSign s rest).getLsbD 15 = s := by
  rw [halfOfSign, BitVec.getLsbD_append]
  simp

/-- An exponent field and a fraction are one number, in which a carry runs into the exponent. -/
theorem exponent_append_fraction {k n : Nat} (hn : n < 1024) :
    BitVec.ofNat 5 k ++ BitVec.ofNat 10 n = BitVec.ofNat 15 (1024 * k + n) := by
  refine BitVec.eq_of_toNat_eq ?_
  rw [BitVec.toNat_append, ← Nat.shiftLeft_add_eq_or_of_lt (BitVec.isLt _), Nat.shiftLeft_eq]
  simp only [BitVec.toNat_ofNat]
  omega

/-- The fields of a normal half from a significand of 11 bits; 2^11 is a carry out of it (R59). -/
theorem fields_of_significand {e q h : Nat} (he : 144 ≤ e) (hq : 1024 ≤ q) (hq' : q ≤ 2048)
    (hh : h + 1024 = 1024 * (e - 144) + q) :
    BitVec.ofNat 5 ((if q = 2 ^ 11 then e + 1 else e) - 144) ++
      BitVec.ofNat 10 (q * 2 ^ (e - 10) / 2 ^ ((if q = 2 ^ 11 then e + 1 else e) - 10) - 1024) =
        BitVec.ofNat 15 h := by
  by_cases hc : q = 2 ^ 11
  · have hn : q * 2 ^ (e - 10) / 2 ^ (e + 1 - 10) = 1024 := by
      rw [show e + 1 - 10 = e - 10 + 1 by omega, pow_succ', Nat.mul_div_mul_right _ _ (by positivity), hc]
      rfl
    rw [if_pos hc, hn, exponent_append_fraction (by omega)]
    exact congrArg _ (by omega)
  · rw [if_neg hc, Nat.mul_div_cancel _ (by positivity), exponent_append_fraction (by omega)]
    exact congrArg _ (by omega)

theorem overflowHalf_eq (rc : Rounding) (s : Bool) :
    overflowHalf rc s = halfOfSign s (BitVec.ofNat 15 (overflowBits rc s)) := by
  cases rc <;> cases s <;> decide

/-- A masked overflow delivers infinity or the largest finite half (R58). -/
theorem overflowBits_bounds (rc : Rounding) (s : Bool) : 0x7BFF ≤ overflowBits rc s ∧ overflowBits rc s ≤ 0x7C00 := by
  cases rc <;> cases s <;> decide

/-! ### `convertFinite` in terms of `roundHalf` (R56 to R59), a lemma for each of its branches -/

section
variable {v : Nat} {s : Bool} {rc : Rounding} (d : Bool)

theorem convertFinite_overflow (h : 2 ^ 175 ≤ round11 v rc s) :
    convertFinite s v rc d = ⟨overflowHalf rc s, ⟨false, d, true, false, decide (v % 2 ^ (v.log2 - 10) ≠ 0)⟩⟩ := by
  rw [← roundTo_snd v _ rc s]
  exact if_pos h

theorem convertFinite_tiny (h : round11 v rc s < 2 ^ 145) :
    convertFinite s v rc d = ⟨halfOfSign s (BitVec.ofNat 15 (roundHalf v rc s)),
      ⟨false, d, false, true, decide (v % 2 ^ gridExp v ≠ 0)⟩⟩ := by
  have hgrid := gridExp_of_tiny h
  rw [roundHalf, hgrid, Nat.sub_self, Nat.mul_zero, Nat.zero_add, ← roundTo_snd v _ rc s]
  have hover : ¬2 ^ 175 ≤ round11 v rc s := by omega
  exact (if_neg hover).trans (if_pos h)

theorem convertFinite_normal (h : ¬2 ^ 175 ≤ round11 v rc s) (h' : ¬round11 v rc s < 2 ^ 145) :
    convertFinite s v rc d = ⟨halfOfSign s (BitVec.ofNat 15 (roundHalf v rc s)),
      ⟨false, d, false, false, decide (v % 2 ^ gridExp v ≠ 0)⟩⟩ := by
  obtain ⟨hlog, hinexact, hhalf⟩ := roundHalf_of_normal (Nat.le_of_not_lt h')
  have hge := (le_significand (by omega)).trans (div_le_roundTo v (2 ^ (v.log2 - 10)) rc s)
  have hle := (roundTo_le_div_add_one v (2 ^ (v.log2 - 10)) rc s).trans (significand_lt v)
  rw [← fields_of_significand hlog hge hle hhalf, ← decide_eq_decide.2 hinexact, ← roundTo_snd v _ rc s]
  exact (if_neg h).trans (if_neg h')

end

/-- The three branches as one: the number of the half capped by the overflow result, and the conditions. -/
theorem convertFinite_eq (s : Bool) (v : Nat) (rc : Rounding) (d : Bool) :
    convertFinite s v rc d =
      ⟨halfOfSign s (BitVec.ofNat 15 (min (roundHalf v rc s) (overflowBits rc s))),
        ⟨false, d, decide (0x7C00 ≤ roundHalf v rc s), decide (round11 v rc s < 2 ^ 145),
          decide (v % 2 ^ gridExp v ≠ 0)⟩⟩ := by
  have hcap := overflowBits_bounds rc s
  by_cases hover : 2 ^ 175 ≤ round11 v rc s
  · have hhalf := (overflow_iff v rc s).1 hover
    have hlog : 145 ≤ v.log2 := by
      by_contra hlog
      have := roundHalf_le_of_log2_lt (Nat.lt_of_not_le hlog) rc s
      omega
    have htiny : ¬round11 v rc s < 2 ^ 145 := by omega
    rw [convertFinite_overflow d hover, overflowHalf_eq, min_eq_right (by omega), gridExp_of_ge hlog,
      decide_eq_true hhalf, decide_eq_false htiny]
  · have hhalf := mt (overflow_iff v rc s).2 hover
    rw [min_eq_left (by omega), decide_eq_false hhalf]
    by_cases htiny : round11 v rc s < 2 ^ 145
    · rw [convertFinite_tiny d htiny, decide_eq_true htiny]
    · rw [convertFinite_normal d hover htiny, decide_eq_false htiny]

end Sys2Proof.Machine

namespace Sys2Proof.Machine

/-! ### The fields of a binary32 as numbers (R51) -/

theorem singleExp_eq (x : Single) : singleExp x = x.toNat % 2 ^ 31 / 2 ^ 23 := by
  rw [singleExp, BitVec.extractLsb'_toNat, Nat.shiftRight_eq_div_pow]
  omega

theorem singleFrac_toNat (x : Single) : (singleFrac x).toNat = x.toNat % 2 ^ 23 := by
  rw [singleFrac, BitVec.extractLsb'_toNat, Nat.shiftRight_zero]

theorem singleFrac_eq_zero_iff (x : Single) : singleFrac x = 0 ↔ x.toNat % 2 ^ 23 = 0 := by
  rw [← singleFrac_toNat, ← BitVec.toNat_inj]
  rfl

theorem singleSign_toNat (x : Single) : (singleSign x).toNat = x.toNat / 2 ^ 31 := by
  have hx := x.isLt
  rw [singleSign, BitVec.getLsbD, Nat.testBit_eq_decide_div_mod_eq]
  obtain h | h : x.toNat / 2 ^ 31 = 0 ∨ x.toNat / 2 ^ 31 = 1 := by omega
  · rw [h]; rfl
  · rw [h]; rfl

/-! ### The default body by the magnitude of its source (R53 to R59) -/

/-- The magnitude that is converted: with DAZ a denormal counts as zero (R53). -/
def effectiveMagnitude (x : Single) (daz : Bool) : Nat :=
  if singleExp x = 0 ∧ daz = true then 0 else singleMagnitude x

theorem effectiveMagnitude_eq {x : Single} {daz : Bool} (h : singleExp x = 0 → daz = false) :
    effectiveMagnitude x daz = singleMagnitude x := by
  refine if_neg fun ⟨he, hdaz⟩ => ?_
  simp [h he] at hdaz

theorem singleMagnitude_eq_zero_iff (x : Single) : singleMagnitude x = 0 ↔ singleExp x = 0 ∧ singleFrac x = 0 := by
  rw [singleMagnitude, singleFrac_eq_zero_iff, ← singleFrac_toNat]
  split <;> simp [*]

theorem effectiveMagnitude_eq_zero_iff (x : Single) (daz : Bool) :
    effectiveMagnitude x daz = 0 ↔ singleExp x = 0 ∧ (singleFrac x = 0 ∨ daz = true) := by
  rw [effectiveMagnitude]
  split
  case isTrue hd => simp [hd]
  case isFalse hd =>
    rw [singleMagnitude_eq_zero_iff]
    exact ⟨fun ⟨he, hf⟩ => ⟨he, .inl hf⟩, fun ⟨he, hf⟩ => ⟨he, hf.resolve_right fun hdaz => hd ⟨he, hdaz⟩⟩⟩

theorem cvtDefault_of_magnitude_eq_zero {x : Single} {daz : Bool} (h : singleExp x ≠ 255)
    (hv : effectiveMagnitude x daz = 0) (rc : Rounding) :
    cvtDefault x rc daz = ⟨halfOfSign (singleSign x) 0, .quiet⟩ := by
  obtain ⟨he, hf⟩ := (effectiveMagnitude_eq_zero_iff x daz).1 hv
  rw [cvtDefault, if_neg h, if_pos he]
  split
  · rfl
  · rw [if_pos (hf.resolve_left ‹_›)]

theorem cvtDefault_of_magnitude_ne_zero {x : Single} {daz : Bool} (h : singleExp x ≠ 255)
    (hv : effectiveMagnitude x daz ≠ 0) (rc : Rounding) :
    cvtDefault x rc daz =
      convertFinite (singleSign x) (effectiveMagnitude x daz) rc (decide (singleExp x = 0)) := by
  have hd : ¬(singleExp x = 0 ∧ daz = true) := fun hd => hv (if_pos hd)
  rw [effectiveMagnitude, if_neg hd] at hv ⊢
  rw [cvtDefault, if_neg h, singleMagnitude]
  by_cases he : singleExp x = 0
  · have hf : singleFrac x ≠ 0 := fun hf => hv ((singleMagnitude_eq_zero_iff x).2 ⟨he, hf⟩)
    rw [if_pos he, if_neg hf, if_neg fun hdaz => hd ⟨he, hdaz⟩, if_pos he, decide_eq_true he]
  · rw [if_neg he, if_neg he, decide_eq_false he]

/-- What the default body makes of every finite source, zeros and DAZ denormals among them. -/
theorem cvtDefault_finite {x : Single} (h : singleExp x ≠ 255) (rc : Rounding) (daz : Bool) :
    cvtDefault x rc daz =
      ⟨halfOfSign (singleSign x) (BitVec.ofNat 15
          (min (roundHalf (effectiveMagnitude x daz) rc (singleSign x)) (overflowBits rc (singleSign x)))),
        ⟨false, decide (singleExp x = 0 ∧ effectiveMagnitude x daz ≠ 0),
          decide (0x7C00 ≤ roundHalf (effectiveMagnitude x daz) rc (singleSign x)),
          decide (effectiveMagnitude x daz ≠ 0 ∧ round11 (effectiveMagnitude x daz) rc (singleSign x) < 2 ^ 145),
          decide (effectiveMagnitude x daz % 2 ^ gridExp (effectiveMagnitude x daz) ≠ 0)⟩⟩ := by
  by_cases hv : effectiveMagnitude x daz = 0
  · have hr : roundHalf 0 rc (singleSign x) = 0 := by rw [roundHalf_eq, if_neg (by simp)]; rfl
    rw [cvtDefault_of_magnitude_eq_zero h hv, hv, hr]
    simp [Conds.quiet]
  · rw [cvtDefault_of_magnitude_ne_zero h hv, convertFinite_eq]
    simp [hv]

section
variable {x : Single} (h : singleExp x ≠ 255) (rc : Rounding) (daz : Bool)
include h

theorem cvtDefault_half_toNat :
    (cvtDefault x rc daz).half.toNat = x.toNat / 2 ^ 31 * 2 ^ 15 +
      min (roundHalf (effectiveMagnitude x daz) rc (singleSign x)) (overflowBits rc (singleSign x)) := by
  have hcap := overflowBits_bounds rc (singleSign x)
  rw [cvtDefault_finite h, halfOfSign_toNat, singleSign_toNat, BitVec.toNat_ofNat, Nat.mod_eq_of_lt (by omega)]

theorem cvtDefault_half_mod :
    (cvtDefault x rc daz).half.toNat % 2 ^ 15 =
      min (roundHalf (effectiveMagnitude x daz) rc (singleSign x)) (overflowBits rc (singleSign x)) := by
  have hcap := overflowBits_bounds rc (singleSign x)
  rw [cvtDefault_half_toNat h]
  omega

theorem cvtDefault_overflow_iff :
    (cvtDefault x rc daz).conds.overflow = true ↔
      0x7C00 ≤ roundHalf (effectiveMagnitude x daz) rc (singleSign x) := by
  rw [cvtDefault_finite h]
  exact decide_eq_true_iff

theorem cvtDefault_tiny_iff :
    (cvtDefault x rc daz).conds.tiny = true ↔ effectiveMagnitude x daz ≠ 0 ∧
      round11 (effectiveMagnitude x daz) rc (singleSign x) < 2 ^ 145 := by
  rw [cvtDefault_finite h]
  exact decide_eq_true_iff

theorem cvtDefault_inexact :
    (cvtDefault x rc daz).conds.inexact =
      decide (effectiveMagnitude x daz % 2 ^ gridExp (effectiveMagnitude x daz) ≠ 0) := by
  rw [cvtDefault_finite h]

end

/-! ### Sign and special sources (R53 to R55) -/

theorem cvtDefault_infinity {x : Single} (h : singleExp x = 255) (hf : singleFrac x = 0) (rc : Rounding) (daz : Bool) :
    cvtDefault x rc daz = ⟨halfOfSign (singleSign x) 0x7C00, .quiet⟩ := by
  rw [cvtDefault, if_pos h, if_pos hf]

theorem cvtDefault_nan {x : Single} (h : singleExp x = 255) (hf : singleFrac x ≠ 0) (rc : Rounding) (daz : Bool) :
    cvtDefault x rc daz = ⟨halfOfSign (singleSign x) (0x1F#5 ++ 1#1 ++ (singleFrac x).extractLsb' 13 9),
      ⟨!x.getLsbD 22, false, false, false, false⟩⟩ := by
  have hq : (singleFrac x).getLsbD 22 = x.getLsbD 22 := by simp [singleFrac]
  rw [cvtDefault, if_pos h, if_neg hf, hq]

/-- Settles O45: every source is delivered as its own sign before 15 bits. -/
theorem conversionKeepsSign : Obligations.ConversionKeepsSign := by
  intro x rc daz
  have hs : ∃ rest, (cvtDefault x rc daz).half = halfOfSign (singleSign x) rest := by
    by_cases h : singleExp x = 255
    · by_cases hf : singleFrac x = 0
      · exact ⟨_, by rw [cvtDefault_infinity h hf]⟩
      · exact ⟨_, by rw [cvtDefault_nan h hf]⟩
    · exact ⟨_, by rw [cvtDefault_finite h]⟩
  obtain ⟨rest, hrest⟩ := hs
  rw [hrest, halfOfSign_sign]
  rfl

/-- Settles O46: a NaN keeps its sign and the upper nine payload bits below the quiet bit; the other special sources
deliver a fixed half of their sign. -/
theorem specialSourcesConvert : Obligations.SpecialSourcesConvert := by
  refine fun x rc daz => ⟨fun h hf => ?_, fun h hf => ?_, fun h hf => ?_⟩
  · rw [cvtDefault_nan h hf]
    refine ⟨?_, rfl⟩
    have hp : ((singleFrac x).extractLsb' 13 9).toNat = x.toNat / 2 ^ 13 % 2 ^ 9 := by
      rw [BitVec.extractLsb'_toNat, singleFrac_toNat, Nat.shiftRight_eq_div_pow]
      omega
    rw [halfOfSign_toNat, singleSign_toNat, BitVec.toNat_append, ← Nat.shiftLeft_add_eq_or_of_lt (BitVec.isLt _), hp,
      Nat.shiftLeft_eq, show (0x1F#5 ++ 1#1).toNat = 63 by decide]
    omega
  · rw [cvtDefault_infinity h hf]
    change _ = Converted.mk (if singleSign x then _ else _) _
    cases singleSign x <;> rfl
  · rw [cvtDefault_of_magnitude_eq_zero (by omega) ((effectiveMagnitude_eq_zero_iff x daz).2 ⟨h, hf⟩)]
    change _ = Converted.mk (if singleSign x then _ else _) _
    cases singleSign x <;> rfl

end Sys2Proof.Machine

namespace Sys2Proof.Machine

/-! ### Directions (R50, R56, R58) -/

/-- The rounding points away from zero. -/
abbrev RoundsAway (rc : Rounding) (s : Bool) : Prop := (rc = .up ∧ s = false) ∨ (rc = .down ∧ s = true)

/-- In the directed modes it is the direction alone that decides (R50, R56). -/
theorem roundsUp_iff_roundsAway {rc : Rounding} (h : rc ≠ .nearest) (v u : Nat) (s : Bool) :
    roundsUp v u rc s = true ↔ RoundsAway rc s := by
  cases rc <;> simp_all [roundsUp, RoundsAway]

theorem roundHalf_of_away {rc : Rounding} {s : Bool} (h : RoundsAway rc s) (v : Nat) :
    roundHalf v rc s = floorHalf v + if v % 2 ^ gridExp v = 0 then 0 else 1 := by
  have hne : rc ≠ .nearest := by rintro rfl; simp [RoundsAway] at h
  simp only [roundHalf_eq, (roundsUp_iff_roundsAway hne ..).2 h, and_true, ite_not]

theorem roundHalf_of_toward_zero {rc : Rounding} {s : Bool} (h : ¬RoundsAway rc s) (hne : rc ≠ .nearest) (v : Nat) :
    roundHalf v rc s = floorHalf v := by
  rw [roundHalf_eq, if_neg fun hup => h ((roundsUp_iff_roundsAway hne ..).1 hup.2), Nat.add_zero]

theorem overflowBits_of_nearest_or_away {rc : Rounding} {s : Bool} (h : rc = .nearest ∨ RoundsAway rc s) :
    overflowBits rc s = 0x7C00 := by
  revert h
  cases rc <;> cases s <;> simp [RoundsAway, overflowBits, overflowHalf]

theorem overflowBits_of_toward_zero {rc : Rounding} {s : Bool} (h : ¬(rc = .nearest ∨ RoundsAway rc s)) :
    overflowBits rc s = 0x7BFF := by
  revert h
  cases rc <;> cases s <;> simp [RoundsAway, overflowBits, overflowHalf]

/-! ### Correct rounding (R56) -/

theorem half_toNat_of_not_overflow {x : Single} {rc : Rounding} {daz : Bool} (h : singleExp x ≠ 255)
    (hd : singleExp x = 0 → daz = false) (ho : (cvtDefault x rc daz).conds.overflow = false) :
    roundHalf (singleMagnitude x) rc (singleSign x) < 2 ^ 15 ∧ (cvtDefault x rc daz).half.toNat =
      x.toNat / 2 ^ 31 * 2 ^ 15 + roundHalf (singleMagnitude x) rc (singleSign x) := by
  have hcap := overflowBits_bounds rc (singleSign x)
  have hover := mt (cvtDefault_overflow_iff h rc daz).2 (by simp [ho])
  rw [effectiveMagnitude_eq hd] at hover
  rw [cvtDefault_half_toNat h, effectiveMagnitude_eq hd, min_eq_left (by omega)]
  exact ⟨by omega, rfl⟩

theorem half_mod_of_not_overflow {x : Single} {rc : Rounding} {daz : Bool} (h : singleExp x ≠ 255)
    (hd : singleExp x = 0 → daz = false) (ho : (cvtDefault x rc daz).conds.overflow = false) :
    (cvtDefault x rc daz).half.toNat % 2 ^ 15 = roundHalf (singleMagnitude x) rc (singleSign x) := by
  obtain ⟨hlt, hhalf⟩ := half_toNat_of_not_overflow h hd ho
  rw [hhalf]
  omega

/-- No half lies strictly between the two le_floorHalf_or_succ_le of a magnitude. -/
theorem le_floorHalf_or_succ_le (v n : Nat) :
    (n ≤ floorHalf v ∧ halfMagnitude n ≤ halfMagnitude (floorHalf v)) ∨
      (floorHalf v < n ∧ halfMagnitude (floorHalf v + 1) ≤ halfMagnitude n) := by
  obtain h | h := Nat.lt_or_ge (floorHalf v) n
  · exact .inr ⟨h, halfMagnitude_strictMono.monotone h⟩
  · exact .inl ⟨h, halfMagnitude_strictMono.monotone h⟩

theorem lt_halfMagnitude_floorHalf_succ (v : Nat) : v < halfMagnitude (floorHalf v + 1) := by
  have hmod : v % 2 ^ gridExp v < 2 ^ gridExp v := Nat.mod_lt _ (by positivity)
  have hlo := halfMagnitude_floorHalf_add v
  have hhi := halfMagnitude_floorHalf_succ v
  omega

/-- A magnitude is a half exactly when nothing is rounded off. -/
theorem halfMagnitude_roundHalf_eq_iff (v : Nat) (rc : Rounding) (s : Bool) :
    halfMagnitude (roundHalf v rc s) = v ↔ v % 2 ^ gridExp v = 0 := by
  have hlo := halfMagnitude_floorHalf_add v
  have hhi := lt_halfMagnitude_floorHalf_succ v
  rw [roundHalf_eq]
  split
  case isTrue h => exact ⟨fun e => absurd e hhi.ne', fun e => absurd e h.1⟩
  case isFalse => rw [Nat.add_zero]; omega

/-- Settles O52: the delivered half is a neighbour of the source, and equal to it only when no remainder is left. -/
theorem inexactIffValueChanged : Obligations.InexactIffValueChanged := by
  intro x rc daz h hd ho
  rw [half_mod_of_not_overflow h hd ho, cvtDefault_inexact h, effectiveMagnitude_eq hd, halfMagnitude_roundHalf_eq_iff]
  simp

/-- Away from zero: the smallest half not below the magnitude. -/
theorem le_roundHalf_of_away {rc : Rounding} {s : Bool} (h : RoundsAway rc s) (v n : Nat) :
    v ≤ halfMagnitude (roundHalf v rc s) ∧
      (v ≤ halfMagnitude n → halfMagnitude (roundHalf v rc s) ≤ halfMagnitude n) := by
  have hlo := halfMagnitude_floorHalf_add v
  have hhi := lt_halfMagnitude_floorHalf_succ v
  have hn := le_floorHalf_or_succ_le v n
  rw [roundHalf_of_away h]
  split
  · rw [Nat.add_zero]
    omega
  · omega

/-- Toward zero: the largest half not above the magnitude. -/
theorem roundHalf_le_of_toward_zero {rc : Rounding} {s : Bool} (h : ¬RoundsAway rc s) (hne : rc ≠ .nearest)
    (v n : Nat) :
    halfMagnitude (roundHalf v rc s) ≤ v ∧
      (halfMagnitude n ≤ v → halfMagnitude n ≤ halfMagnitude (roundHalf v rc s)) := by
  have hlo := halfMagnitude_floorHalf_add v
  have hhi := lt_halfMagnitude_floorHalf_succ v
  have hn := le_floorHalf_or_succ_le v n
  rw [roundHalf_of_toward_zero h hne]
  omega

/-- Round to nearest goes to the nearer neighbour, and from the midpoint to the even one. -/
theorem roundHalf_nearest_cases (v : Nat) (s : Bool) :
    (roundHalf v .nearest s = floorHalf v ∧ (2 * (v % 2 ^ gridExp v) < 2 ^ gridExp v ∨
      2 * (v % 2 ^ gridExp v) = 2 ^ gridExp v ∧ floorHalf v % 2 = 0)) ∨
    (roundHalf v .nearest s = floorHalf v + 1 ∧ (2 ^ gridExp v < 2 * (v % 2 ^ gridExp v) ∨
      2 * (v % 2 ^ gridExp v) = 2 ^ gridExp v ∧ (floorHalf v + 1) % 2 = 0)) := by
  have hpos : 0 < 2 ^ gridExp v := by positivity
  have hpar := floorHalf_mod_two v
  rw [roundHalf_eq]
  simp only [roundsUp, gt_iff_lt, Bool.or_eq_true, Bool.and_eq_true, decide_eq_true_eq, ← hpar]
  split <;> omega

/-- To nearest: no half is closer to the magnitude, and an equally close one is another only if the even one won. -/
theorem roundHalf_nearest_closest (v : Nat) (s : Bool) (n : Nat) :
    |(halfMagnitude (roundHalf v .nearest s) : Int) - v| ≤ |(halfMagnitude n : Int) - v| ∧
      (|(halfMagnitude (roundHalf v .nearest s) : Int) - v| = |(halfMagnitude n : Int) - v| →
        n = roundHalf v .nearest s ∨ roundHalf v .nearest s % 2 = 0) := by
  have hlo := halfMagnitude_floorHalf_add v
  have hhi := halfMagnitude_floorHalf_succ v
  have hn := le_floorHalf_or_succ_le v n
  have hinj : ∀ m, halfMagnitude n = halfMagnitude m → n = m := fun _ e => halfMagnitude_strictMono.injective e
  simp only [Int.abs_eq_natAbs]
  obtain ⟨hr, hnear⟩ | ⟨hr, hnear⟩ := roundHalf_nearest_cases v s
  · have hinj := hinj (floorHalf v)
    rw [hr]
    omega
  · have hinj := hinj (floorHalf v + 1)
    rw [hr]
    omega

/-- Settles O51: the delivered half is a neighbour of the source, and no half lies between the two neighbours. -/
theorem conversionRoundsCorrectly : Obligations.ConversionRoundsCorrectly := by
  intro x rc daz h hd ho
  simp only [half_mod_of_not_overflow h hd ho]
  refine ⟨fun ha => ⟨?_, fun n _ => ?_⟩, fun ha hne => ⟨?_, fun n _ => ?_⟩, ?_⟩
  · exact_mod_cast (le_roundHalf_of_away ha (singleMagnitude x) 0).1
  · exact_mod_cast (le_roundHalf_of_away ha (singleMagnitude x) n).2
  · exact_mod_cast (roundHalf_le_of_toward_zero ha hne (singleMagnitude x) 0).1
  · exact_mod_cast (roundHalf_le_of_toward_zero ha hne (singleMagnitude x) n).2
  · rintro rfl n -
    exact roundHalf_nearest_closest (singleMagnitude x) (singleSign x) n

/-! ### The four rounding controls side by side (R50, R56) -/

/-- Delivered without the sign, by a mode toward zero, truncation, round to nearest and a mode away from zero. -/
theorem delivered_ordered {toward away : Rounding} {s : Bool} (ht : ¬(toward = .nearest ∨ RoundsAway toward s))
    (ha : RoundsAway away s) (v : Nat) :
    min (roundHalf v toward s) (overflowBits toward s) =
        min (roundHalf v .truncate s) (overflowBits .truncate s) ∧
      min (roundHalf v .truncate s) (overflowBits .truncate s) ≤
        min (roundHalf v .nearest s) (overflowBits .nearest s) ∧
      min (roundHalf v .nearest s) (overflowBits .nearest s) ≤ min (roundHalf v away s) (overflowBits away s) := by
  have htr : ¬(Rounding.truncate = .nearest ∨ RoundsAway .truncate s) := by simp [RoundsAway]
  rw [overflowBits_of_toward_zero ht, overflowBits_of_toward_zero htr, overflowBits_of_nearest_or_away (.inl rfl),
    overflowBits_of_nearest_or_away (.inr ha), roundHalf_of_toward_zero (not_or.1 ht).2 (not_or.1 ht).1,
    roundHalf_of_toward_zero (not_or.1 htr).2 (not_or.1 htr).1, roundHalf_of_away ha]
  have hpos : 0 < 2 ^ gridExp v := by positivity
  have hn := roundHalf_nearest_cases v s
  split <;> omega

/-- Settles O53: all four deliver one sign before a neighbour of the magnitude, or an overflow result. -/
theorem roundingModesAreOrdered : Obligations.RoundingModesAreOrdered := by
  intro x daz h
  simp only [cvtDefault_half_toNat h, Nat.add_right_inj, Nat.add_le_add_iff_left]
  constructor
  all_goals
    intro hs
    rw [show singleSign x = _ from hs]
    exact delivered_ordered (by simp [RoundsAway]) (by simp [RoundsAway]) _

end Sys2Proof.Machine

namespace Sys2Proof.Machine

/-! ### Magnitudes below 2^-25 (R60) -/

section
variable {v : Nat} (h : v < 2 ^ 134)
include h

theorem log2_lt_of_small : v.log2 < 134 := by
  obtain rfl | hv := Nat.eq_zero_or_pos v
  · decide
  · exact (Nat.log2_lt hv.ne').2 h

theorem gridExp_of_small : gridExp v = 135 := gridExp_of_le ((log2_lt_of_small h).le.trans (by decide))

theorem tiny_of_small (rc : Rounding) (s : Bool) : round11 v rc s < 2 ^ 145 := by
  by_contra hr
  have hlog := (roundHalf_of_normal (Nat.le_of_not_lt hr)).1
  have hlt := log2_lt_of_small h
  omega

/-- Such a magnitude lies in the lower half of the first step, so that only a direction away from zero takes it up. -/
theorem roundHalf_of_small (hv : v ≠ 0) (rc : Rounding) (s : Bool) :
    roundHalf v rc s = if RoundsAway rc s then 1 else 0 := by
  have hfloor : floorHalf v = 0 := by
    rw [floorHalf, gridExp_of_small h]
    omega
  split
  case isTrue ha => rw [roundHalf_of_away ha, hfloor, gridExp_of_small h, if_neg (by omega)]
  case isFalse ha =>
    by_cases hne : rc = .nearest
    · subst hne
      have hn := roundHalf_nearest_cases v s
      rw [hfloor, gridExp_of_small h] at hn
      omega
    · rw [roundHalf_of_toward_zero ha hne, hfloor]

end

theorem cvtDefault_of_small {x : Single} {daz : Bool} (h : singleExp x ≠ 255)
    (hv : effectiveMagnitude x daz ≠ 0) (hlt : effectiveMagnitude x daz < 2 ^ 134) (rc : Rounding) :
    cvtDefault x rc daz = ⟨halfOfSign (singleSign x) (if RoundsAway rc (singleSign x) then 1 else 0),
      ⟨false, decide (singleExp x = 0), false, true, true⟩⟩ := by
  have htiny := tiny_of_small hlt rc (singleSign x)
  have hover : ¬2 ^ 175 ≤ round11 (effectiveMagnitude x daz) rc (singleSign x) := by omega
  have hinexact : effectiveMagnitude x daz % 2 ^ gridExp (effectiveMagnitude x daz) ≠ 0 := by
    rw [gridExp_of_small hlt]
    omega
  rw [cvtDefault_of_magnitude_ne_zero h hv, convertFinite_tiny _ htiny, roundHalf_of_small hlt hv,
    decide_eq_true hinexact]
  split <;> rfl

/-- Settles O47: the magnitude is in the lower half of the first step of the denormal grid. -/
theorem verySmallSourcesConvert : Obligations.VerySmallSourcesConvert := by
  intro x rc daz h hv hlt hd
  rw [← effectiveMagnitude_eq hd] at hv hlt
  rw [cvtDefault_of_small h hv hlt]
  change _ = Converted.mk (if singleSign x then _ else _) _
  cases singleSign x <;> cases rc <;> rfl

theorem effectiveMagnitude_denormal_lt {x : Single} (h : singleExp x = 0) (daz : Bool) :
    effectiveMagnitude x daz < 2 ^ 134 := by
  have hf := (singleFrac x).isLt
  rw [effectiveMagnitude, singleMagnitude, if_pos h]
  split <;> omega

/-- A denormal that is not counted as zero is tiny and inexact (R60). -/
theorem cvtDefault_conds_of_denormal {x : Single} (h : singleExp x = 0) (hf : singleFrac x ≠ 0) (rc : Rounding) :
    (cvtDefault x rc false).conds = ⟨false, true, false, true, true⟩ := by
  have hv := mt (effectiveMagnitude_eq_zero_iff x false).1 (by simpa using fun _ => hf)
  rw [cvtDefault_of_small (by omega) hv (effectiveMagnitude_denormal_lt h _), decide_eq_true h]

/-- Settles O49: a NaN alone is invalid, a denormal is far below 2^-25, and overflow is no tiny result. -/
theorem conditionsExcludeEachOther : Obligations.ConditionsExcludeEachOther := by
  intro x rc daz
  by_cases h : singleExp x = 255
  · by_cases hf : singleFrac x = 0
    · simp [cvtDefault_infinity h hf, Conds.quiet]
    · simp +contextual [cvtDefault_nan h hf]
  · refine ⟨fun hi => ?_, fun hd => ?_, fun ⟨ho, ht⟩ => ?_⟩
    · simp [cvtDefault_finite h] at hi
    · rw [cvtDefault_finite h, decide_eq_true_iff] at hd
      obtain ⟨he, hv⟩ := hd
      rw [cvtDefault_of_small h hv (effectiveMagnitude_denormal_lt he daz), decide_eq_true he]
    · have hover := (overflow_iff ..).2 ((cvtDefault_overflow_iff h rc daz).1 ho)
      obtain ⟨-, htiny⟩ := (cvtDefault_tiny_iff h rc daz).1 ht
      omega

/-! ### Normal sources (R58, R59) -/

theorem singleMagnitude_normal {x : Single} (he : singleExp x ≠ 0) :
    singleMagnitude x = (2 ^ 23 + x.toNat % 2 ^ 23) * 2 ^ (singleExp x + 9) := by
  rw [singleMagnitude, if_neg he, singleFrac_toNat]

theorem log2_singleMagnitude {x : Single} (he : singleExp x ≠ 0) : (singleMagnitude x).log2 = singleExp x + 32 := by
  have hf : x.toNat % 2 ^ 23 < 2 ^ 23 := Nat.mod_lt _ (by decide)
  rw [singleMagnitude_normal he, Nat.log2_eq_iff (by positivity)]
  constructor
  · calc 2 ^ (singleExp x + 32) = 2 ^ 23 * 2 ^ (singleExp x + 9) := by rw [← pow_add]; congr 1; omega
      _ ≤ _ := Nat.mul_le_mul_right _ (Nat.le_add_right ..)
  · calc _ < 2 ^ 24 * 2 ^ (singleExp x + 9) := Nat.mul_lt_mul_of_pos_right (by omega) (by positivity)
      _ = 2 ^ (singleExp x + 32 + 1) := by rw [← pow_add]; congr 1; omega

/-- The number of a normal half is the source's, 112 exponents lower, rounded on its 13 dropped bits (R59). -/
theorem roundHalf_of_normal_source {x : Single} {rc : Rounding} (he : singleExp x ≠ 0)
    (h : 2 ^ 145 ≤ round11 (singleMagnitude x) rc (singleSign x)) :
    roundHalf (singleMagnitude x) rc (singleSign x) = x.toNat % 2 ^ 31 / 2 ^ 13 - 112 * 2 ^ 10 +
        (if x.toNat % 2 ^ 13 ≠ 0 ∧ roundsUp (x.toNat % 2 ^ 31) (2 ^ 13) rc (singleSign x) = true then 1 else 0) ∧
      112 * 2 ^ 10 ≤ x.toNat % 2 ^ 31 / 2 ^ 13 ∧
      (singleMagnitude x % 2 ^ gridExp (singleMagnitude x) ≠ 0 ↔ x.toNat % 2 ^ 13 ≠ 0) := by
  obtain ⟨hlog, hinexact, hhalf⟩ := roundHalf_of_normal h
  have hexp : singleMagnitude x = (2 ^ 23 + x.toNat % 2 ^ 23) * 2 ^ (singleExp x + 9) := singleMagnitude_normal he
  have hu : 2 ^ ((singleMagnitude x).log2 - 10) = 2 ^ 13 * 2 ^ (singleExp x + 9) := by
    rw [log2_singleMagnitude he, ← pow_add]
    congr 1
    omega
  have hround : roundTo (singleMagnitude x) (2 ^ ((singleMagnitude x).log2 - 10)) rc (singleSign x) =
      roundTo (2 ^ 23 + x.toNat % 2 ^ 23) (2 ^ 13) rc (singleSign x) := by
    rw [hu, hexp, roundTo_mul_right _ _ (by positivity)]
  have hup : roundsUp (2 ^ 23 + x.toNat % 2 ^ 23) (2 ^ 13) rc (singleSign x) =
      roundsUp (x.toNat % 2 ^ 31) (2 ^ 13) rc (singleSign x) := roundsUp_congr (by omega) (by omega) _ _
  have hmod : (2 ^ 23 + x.toNat % 2 ^ 23) % 2 ^ 13 = x.toNat % 2 ^ 13 := by omega
  have hinexact' := congrArg Prod.snd hround
  rw [roundTo_snd, roundTo_snd, decide_eq_decide, hmod] at hinexact'
  rw [hround, roundTo_fst, hmod, hup, log2_singleMagnitude he, singleExp_eq] at hhalf
  rw [log2_singleMagnitude he, singleExp_eq] at hlog
  exact ⟨by omega, by omega, hinexact.symm.trans hinexact'⟩

/-- Settles O50: the number of the half is the shifted source with its carry, below overflow. -/
theorem normalResultIsShiftAndRound : Obligations.NormalResultIsShiftAndRound := by
  intro x rc daz he h ho ht
  have hv : effectiveMagnitude x daz = singleMagnitude x := effectiveMagnitude_eq fun h0 => absurd h0 he
  have hnormal : 2 ^ 145 ≤ round11 (singleMagnitude x) rc (singleSign x) := by
    have htiny := mt (cvtDefault_tiny_iff h rc daz).2 (by simp [ht])
    rw [hv, ne_eq, singleMagnitude_eq_zero_iff] at htiny
    exact Nat.le_of_not_lt fun hlt => htiny ⟨fun h0 => he h0.1, hlt⟩
  obtain ⟨hround, hkept, hinexact⟩ := roundHalf_of_normal_source he hnormal
  obtain ⟨-, hhalf⟩ := half_toNat_of_not_overflow h (fun h0 => absurd h0 he) ho
  refine ⟨?_, by rw [cvtDefault_inexact h, hv, decide_eq_decide.2 hinexact]⟩
  rw [hhalf, hround, ← Nat.add_assoc]
  refine congrArg (x.toNat / 2 ^ 31 * 2 ^ 15 + (x.toNat % 2 ^ 31 / 2 ^ 13 - 112 * 2 ^ 10) + ·) (if_congr ?_ rfl rfl)
  cases rc with
  | nearest =>
    simp only [roundsUp, gt_iff_lt, Bool.or_eq_true, Bool.and_eq_true, decide_eq_true_eq]
    omega
  | down => simp [roundsUp, singleSign, and_comm]
  | up => simp [roundsUp, singleSign, and_comm]
  | truncate => simp [roundsUp]

theorem log2_effectiveMagnitude_lt {x : Single} (h : singleExp x < 113) (daz : Bool) :
    (effectiveMagnitude x daz).log2 < 145 := by
  by_cases he : singleExp x = 0
  · exact (log2_lt_of_small (effectiveMagnitude_denormal_lt he daz)).trans (by decide)
  · rw [effectiveMagnitude_eq fun h0 => absurd h0 he, log2_singleMagnitude he]
    omega

theorem normal_of_exp_ge {x : Single} (he : 113 ≤ singleExp x) (rc : Rounding) (s : Bool) :
    2 ^ 145 ≤ round11 (singleMagnitude x) rc s := by
  have hlog := log2_singleMagnitude (x := x) (by omega)
  exact normal_of_log2_ge (by omega) rc s

/-- The sources whose rounding reaches 2^16, under each kind of direction (R58). -/
theorem overflow_threshold {x : Single} (he : 113 ≤ singleExp x) (rc : Rounding) :
    0x7C00 ≤ roundHalf (singleMagnitude x) rc (singleSign x) ↔
      (rc = .nearest ∧ 0x477FF000 ≤ x.toNat % 2 ^ 31) ∨
        (RoundsAway rc (singleSign x) ∧ 0x477FE001 ≤ x.toNat % 2 ^ 31) ∨ 0x47800000 ≤ x.toNat % 2 ^ 31 := by
  obtain ⟨hround, hkept, -⟩ := roundHalf_of_normal_source (by omega) (normal_of_exp_ge he rc (singleSign x))
  rw [hround]
  by_cases hn : rc = .nearest
  · subst hn
    simp only [roundsUp, RoundsAway, gt_iff_lt, Bool.or_eq_true, Bool.and_eq_true, decide_eq_true_eq, reduceCtorEq,
      true_and, false_and, false_or, or_false]
    split <;> omega
  · have hup := roundsUp_iff_roundsAway hn (x.toNat % 2 ^ 31) (2 ^ 13) (singleSign x)
    by_cases ha : RoundsAway rc (singleSign x)
    · simp only [hup, hn, ha, true_and, false_and, false_or, and_true]
      split <;> omega
    · simp only [hup, hn, ha, false_and, false_or, and_false, if_false]
      omega

/-- Settles O48: the rounded number reaches 7C00H at the listed sources, and the delivered half is then its cap. -/
theorem overflowThresholds : Obligations.OverflowThresholds := by
  intro x rc daz h m away
  have hcap : overflowBits rc (singleSign x) = if rc = .nearest ∨ away then 0x7C00 else 0x7BFF := by
    split
    case isTrue ha => exact overflowBits_of_nearest_or_away ha
    case isFalse ha => exact overflowBits_of_toward_zero ha
  rw [cvtDefault_half_mod h, cvtDefault_inexact h, cvtDefault_overflow_iff h, ← hcap]
  obtain hlt | hge := Nat.lt_or_ge (singleExp x) 113
  · have hr := roundHalf_le_of_log2_lt (log2_effectiveMagnitude_lt hlt daz) rc (singleSign x)
    have hm : m < 0x38800000 := by
      rw [singleExp_eq] at hlt
      omega
    have hm₁ : ¬0x477FF000 ≤ m := by omega
    have hm₂ : ¬0x477FE001 ≤ m := by omega
    have hm₃ : ¬0x47800000 ≤ m := by omega
    simp only [hm₁, hm₂, hm₃, and_false, or_self, iff_false]
    exact ⟨by omega, fun ho => absurd ho (by omega)⟩
  · rw [effectiveMagnitude_eq fun h0 => absurd h0 (by omega)]
    refine ⟨overflow_threshold hge rc, fun ho => ⟨min_eq_right ((overflowBits_bounds ..).2.trans ho), ?_⟩⟩
    obtain ⟨-, -, hinexact⟩ := roundHalf_of_normal_source (by omega) (normal_of_exp_ge hge rc (singleSign x))
    rw [decide_eq_true_iff, hinexact]
    omega

end Sys2Proof.Machine

namespace Sys2Proof.Machine

/-! ### The immediate (R50) -/

/-- The two immediates select the same rounding control: equal low three bits, or MXCSR.RC both times (R50). -/
theorem effectiveRounding_congr_imm {b b' : Byte}
    (h : b.extractLsb' 0 3 = b'.extractLsb' 0 3 ∨ (b.getLsbD 2 = true ∧ b'.getLsbD 2 = true)) (mxcsr : BitVec 32) :
    effectiveRounding b mxcsr = effectiveRounding b' mxcsr := by
  obtain h | ⟨hb, hb'⟩ := h
  · have hbit : ∀ i < 3, b.getLsbD i = b'.getLsbD i := fun i hi => by
      have := congrArg (BitVec.getLsbD · i) h
      simpa [BitVec.getLsbD_extractLsb', hi] using this
    have hrc : b.extractLsb' 0 2 = b'.extractLsb' 0 2 := by
      ext i hi
      simpa [BitVec.getElem_extractLsb'] using hbit i (by omega)
    rw [effectiveRounding, effectiveRounding, hbit 2 (by decide), hrc]
  · rw [effectiveRounding, effectiveRounding, hb, hb', if_pos rfl, if_pos rfl]

theorem regForm_withImm {i : Instr} {f : RegForm} (h : regForm i = some f) (b : Byte) :
    regForm (withImm b i) = some { f with imm := b } := by
  cases i <;> simp only [regForm, Option.some.injEq, reduceCtorEq] at h <;> subst h <;> rfl

theorem memForm_withImm {i : Instr} {f : MemForm} (h : memForm i = some f) (b : Byte) :
    memForm (withImm b i) = some { f with imm := b } := by
  cases i <;> simp only [memForm, Option.some.injEq, reduceCtorEq] at h <;> subst h <;> rfl

theorem formAvailable_withImm (c : Config) (b : Byte) (i : Instr) :
    formAvailable c (withImm b i) = formAvailable c i := by
  cases i <;> rfl

/-- Settles O39: a form reads its immediate in the conversions alone, and there as the rounding control. -/
theorem onlyLowImmediateBitsMatter : Obligations.OnlyLowImmediateBitsMatter := by
  intro i s b b' h
  have hconv (kl : Nat) (m : Masking) (src : VReg) : conversions s kl m src b = conversions s kl m src b' := by
    simp only [conversions, effectiveRounding_congr_imm h]
  obtain ⟨f, hf, -⟩ | ⟨f, hf, -⟩ := form_cases i
  · rw [exec_regForm (regForm_withImm hf b), exec_regForm (regForm_withImm hf b'), formAvailable_withImm,
      formAvailable_withImm]
    simp only [convertToRegister, hconv]
  · rw [exec_memForm (memForm_withImm hf b), exec_memForm (memForm_withImm hf b'), formAvailable_withImm,
      formAvailable_withImm]
    simp only [convertToMemory, hconv]

/-! ### When a form raises a SIMD exception (R82, R83) -/

theorem exec_regForm_raises {i : Instr} {f : RegForm} {s : State} (hf : regForm i = some f) (hrun : Runnable s i)
    (hr : (f.report s).raises = true) : exec i s = takeSimdException (f.report s).flags s := by
  obtain ⟨ha, hts⟩ := hrun
  rw [f.report_eq] at hr ⊢
  simpa [exec_regForm hf, ha, hts, hr] using
    convertToRegister_cases (formAvailable s.cfg i) f.elements f.sae f.dst f.mask f.src f.imm f.length s

theorem exec_memForm_raises {i : Instr} {f : MemForm} {s : State} (hf : memForm i = some f) (hrun : Runnable s i)
    (hadm : f.admitted s) (hr : (f.report s).raises = true) : exec i s = takeSimdException (f.report s).flags s := by
  obtain ⟨ha, hts⟩ := hrun
  rw [f.admitted_iff] at hadm
  rw [f.report_eq] at hr ⊢
  obtain ⟨hn, -⟩ | ⟨-, hn, -⟩ | ⟨-, -, e, hn, -⟩ | ⟨-, -, -, -, hexec⟩ | ⟨-, -, -, hn, -⟩ :=
    convertToMemory_cases (formAvailable s.cfg i) f.elements f.scale f.dst f.mask f.src f.imm f.length s
  · exact absurd (ha.symm.trans hn) (by decide)
  · exact absurd (hts.symm.trans hn) (by decide)
  · exact absurd (hadm.symm.trans hn) (by simp)
  · exact (exec_memForm hf s).trans hexec
  · exact absurd (hr.symm.trans hn) (by decide)

/-! ### A denormal source (R60, R82, C8) -/

/-- A denormal element has R60's conditions, of the default body or as it is assumed of another `cvt`. -/
theorem elementResult_conds_of_denormal {s : State} {src : VReg} {imm : Byte} {j : Nat}
    (he : singleExp (singleAt s.v[src] j) = 0) (hf : singleFrac (singleAt s.v[src] j) ≠ 0)
    (hdaz : mxcsrDaz s.mxcsr = false)
    (hcvt : s.cfg.cvt = .standard ∨ (elementResult s src imm j).conds = ⟨false, true, false, true, true⟩) :
    (elementResult s src imm j).conds = ⟨false, true, false, true, true⟩ := by
  refine hcvt.elim (fun hstd => ?_) id
  rw [elementResult, cvtOf_standard hstd, hdaz, cvtDefault_conds_of_denormal he hf]

theorem mem_enabledConds {s : State} {m : Masking} {src : VReg} {imm : Byte} {kl : Nat} {c : Conds} :
    c ∈ enabledConds s m src imm kl ↔ ∃ j < kl, enabled s m j = true ∧ (elementResult s src imm j).conds = c := by
  simp [enabledConds, and_assoc]

/-- Phase 1 of R82 passes, and phase 2 raises: the denormal element is tiny and inexact. -/
theorem simdReport_of_denormal {mxcsr : BitVec 32} {cs : List Conds} (hmem : ⟨false, true, false, true, true⟩ ∈ cs)
    (hdm : mxcsrDm mxcsr = true) (hup : mxcsrUm mxcsr = false ∨ mxcsrPm mxcsr = false)
    (hinv : mxcsrIm mxcsr = true ∨ ∀ c ∈ cs, c.invalid = false) :
    (simdReport mxcsr cs).raises = true ∧ ∃ ie oe, (simdReport mxcsr cs).flags = flagBits ie true oe true true := by
  have hde : cs.any (·.denormal) = true := List.any_eq_true.2 ⟨_, hmem, rfl⟩
  have htiny : cs.any (·.tiny) = true := List.any_eq_true.2 ⟨_, hmem, rfl⟩
  have hue : cs.any (elementUe mxcsr) = true := List.any_eq_true.2 ⟨_, hmem, rfl⟩
  have hpe : cs.any (elementPe mxcsr) = true := List.any_eq_true.2 ⟨_, hmem, rfl⟩
  have hpre : (preReport mxcsr cs).raises = false := by
    have hie : (cs.any (·.invalid) && !mxcsrIm mxcsr) = false := by
      obtain him | hnone := hinv
      · rw [him, Bool.not_true, Bool.and_false]
      · rw [List.any_eq_false.2 fun c hc => by simp [hnone c hc], Bool.false_and]
    rw [preReport, hie, hde, hdm]
    rfl
  have hflags (ie oe : Bool) :
      flagBits ie true false false false ||| flagBits false false oe true true = flagBits ie true oe true true := by
    cases ie <;> cases oe <;> decide
  rw [simdReport, if_neg (by simp [hpre])]
  constructor
  · obtain h | h := hup <;> simp [postReport, htiny, hpe, h]
  · exact ⟨_, _, by simp only [preReport, postReport, hde, hue, hpe]; exact hflags ..⟩

/-- An exception with DE, UE and PE among its flags leaves them set, and the registers, memory and RIP as they were. -/
theorem takeSimdException_de_ue_pe {r : Result} {s : State} {flags : BitVec 32} {ie oe : Bool}
    (hr : r = takeSimdException flags s) (h : flags = flagBits ie true oe true true) :
    ∃ t : State, r = .fault (if s.cfg.osXmmExcpt then .xm t else .ud t) ∧
      t.mxcsr.getLsbD 1 = true ∧ t.mxcsr.getLsbD 4 = true ∧ t.mxcsr.getLsbD 5 = true ∧
      t.v = s.v ∧ t.mem = s.mem ∧ t.rip = s.rip := by
  have hbits : flags.getLsbD 1 = true ∧ flags.getLsbD 4 = true ∧ flags.getLsbD 5 = true := by
    subst h
    cases ie <;> cases oe <;> decide
  have hbit {b : Nat} (hb : flags.getLsbD b = true) : (raisedMxcsr s flags).getLsbD b = true := by
    simp [raisedMxcsr, hb]
  refine ⟨(s.setMxcsr (raisedMxcsr s flags)).drawn, ?_, hbit hbits.1, hbit hbits.2.1, hbit hbits.2.2, rfl, rfl, rfl⟩
  rw [hr, takeSimdException_eq]
  split <;> rfl

/-- The report of R82 over the enabled elements, when one of them is a denormal. -/
theorem simdReport_enabledConds_of_denormal {s : State} {m : Masking} {src : VReg} {imm : Byte} {kl j : Nat}
    (hj : j < kl) (hen : enabled s m j = true)
    (hconds : (elementResult s src imm j).conds = ⟨false, true, false, true, true⟩) (hdm : mxcsrDm s.mxcsr = true)
    (hup : mxcsrUm s.mxcsr = false ∨ mxcsrPm s.mxcsr = false)
    (hinv : mxcsrIm s.mxcsr = true ∨
      ∀ j < kl, enabled s m j = true → (elementResult s src imm j).conds.invalid = false) :
    (simdReport s.mxcsr (enabledConds s m src imm kl)).raises = true ∧
      ∃ ie oe, (simdReport s.mxcsr (enabledConds s m src imm kl)).flags = flagBits ie true oe true true := by
  refine simdReport_of_denormal (mem_enabledConds.2 ⟨j, hj, hen, hconds⟩) hdm hup (hinv.imp_right fun hnone c hc => ?_)
  obtain ⟨j, hj, hen, rfl⟩ := mem_enabledConds.1 hc
  exact hnone j hj hen

/-- Settles O27: the report raises with DE, UE and PE, and the form takes the exception. -/
theorem denormalSourceRaisesWithDeUePe : Obligations.DenormalSourceRaisesWithDeUePe := by
  constructor
  · rintro i f s j hf hsae hrun hj hen ⟨he, hfrac, hdaz, hcvt⟩ ⟨hdm, hup, hinv⟩
    have hconds := elementResult_conds_of_denormal he hfrac hdaz hcvt
    have hreport : f.report s = simdReport s.mxcsr (enabledConds s f.mask f.src f.imm f.elements) := by
      simp [RegForm.report, hsae]
    obtain ⟨hr, ie, oe, hfl⟩ := simdReport_enabledConds_of_denormal hj hen hconds hdm hup hinv
    rw [← hreport] at hr hfl
    exact takeSimdException_de_ue_pe (exec_regForm_raises hf hrun hr) hfl
  · rintro i f s j hf hrun hadm hj hen ⟨he, hfrac, hdaz, hcvt⟩ ⟨hdm, hup, hinv⟩
    have hconds := elementResult_conds_of_denormal he hfrac hdaz hcvt
    obtain ⟨hr, ie, oe, hfl⟩ := simdReport_enabledConds_of_denormal hj hen hconds hdm hup hinv
    exact takeSimdException_de_ue_pe (exec_memForm_raises hf hrun hadm hr) hfl

end Sys2Proof.Machine

namespace Sys2Proof.Machine

/-! ### Every instruction the decoder gives has a meaning (R62) -/

/-- Settles O9: `step` decodes the bytes at RIP and runs what it finds. -/
theorem stepRunsDecodedInstruction : Obligations.StepRunsDecodedInstruction := fun _ _ _ => step_of_decode_ok

/-- Settles O29: an instruction completes or takes an exception, and neither is a refusal. -/
theorem meaningsNeverRefuse : Obligations.MeaningsNeverRefuse := by
  intro i s r h
  obtain ⟨t, ht⟩ | ⟨f, hf⟩ := exec_next_or_fault i s
  · cases ht.symm.trans h
  · cases hf.symm.trans h

/-! ### What a register form leaves (R62 to R64) -/

/-- What a register form leaves in its destination: its elements packed from bit 0. -/
def RegForm.result (f : RegForm) (s : State) : Zmm :=
  packHalves (destHalves f.mask s.v[f.dst] 0 (conversions s f.elements f.mask f.src f.imm))

/-- The state after a register form that completes. -/
def RegForm.after (f : RegForm) (s : State) : State :=
  ((s.setMxcsr (s.mxcsr ||| (f.report s).flags)).writeV f.dst (f.result s)).advance f.length

/-- The destination reads as the result, whether or not it was the source as well. -/
@[simp] theorem RegForm.after_dst (f : RegForm) (s : State) : (f.after s).v[f.dst] = f.result s :=
  State.writeV_get_self ..

/-- A register form that may run and raises nothing completes. -/
theorem exec_regForm_completes {i : Instr} {f : RegForm} {s : State} (hf : regForm i = some f) (hrun : Runnable s i)
    (hquiet : (f.report s).raises = false) : exec i s = .next (f.after s) := by
  obtain ⟨ha, hts⟩ := hrun
  rw [RegForm.after, RegForm.result, f.report_eq]
  rw [f.report_eq] at hquiet
  simpa [exec_regForm hf, ha, hts, hquiet] using
    convertToRegister_cases (formAvailable s.cfg i) f.elements f.sae f.dst f.mask f.src f.imm f.length s

/-- What a register form leaves is `RegForm.after`. -/
theorem eq_after_of_exec_regForm {i : Instr} {f : RegForm} {s t : State} (hf : regForm i = some f)
    (h : exec i s = .next t) : t = f.after s :=
  (exec_regForm_next hf h).2

/-- The elements of a register form fit a 512-bit register (R63). -/
theorem regForm_elements_le {i : Instr} {f : RegForm} (hf : regForm i = some f) : f.elements ≤ 32 := by
  have hbits : 16 * f.elements ≤ 512 := regForm_bits_le_maxvl hf Config.launch
  omega

/-- Element `j` of the result is the conversion of source element `j` when that is enabled, and what the masking says of
a disabled one otherwise (R63, R64). -/
theorem RegForm.halfAt_result {f : RegForm} (hkl : f.elements ≤ 32) (s : State) {j : Nat} (hj : j < f.elements) :
    halfAt (f.result s) j =
      if enabled s f.mask j then (elementResult s f.src f.imm j).half else disabledHalf f.mask s.v[f.dst] j := by
  rw [RegForm.result, halfAt_packHalves _ _ (by omega), List.getElem?_eq_getElem (by simpa using hj),
    Option.getD_some, destHalves_getElem _ _ _ _ _ (by simpa using hj), conversions_getElem, Nat.zero_add]
  cases enabled s f.mask j <;> rfl

/-- Above its elements the result is zero. -/
theorem RegForm.result_upper (f : RegForm) (s : State) {b : Nat} (hb : 16 * f.elements ≤ b) :
    (f.result s).getLsbD b = false :=
  packHalves_conversions_upper _ _ _ _ _ _ b hb

/-- Settles O12: `RegForm.after` is what the form completes with, and its destination is read element by element. -/
theorem registerFormsComplete : Obligations.RegisterFormsComplete := by
  intro i f s hf hrun hquiet
  have helem (j : Nat) (hj : j < f.elements) := RegForm.halfAt_result (regForm_elements_le hf) s hj
  refine ⟨f.after s, exec_regForm_completes hf hrun hquiet, fun j hj hen => ?_,
    fun j hj hdis => ⟨fun k hm => ?_, fun k hm => ?_⟩, fun b hb => ?_, rfl, rfl⟩
  · rw [f.after_dst, helem j hj, if_pos hen]
  · rw [f.after_dst, helem j hj, hdis, hm]
    rfl
  · rw [f.after_dst, helem j hj, hdis, hm]
    rfl
  · rw [f.after_dst, f.result_upper s hb]

/-- Settles O19: with `{sae}` nothing is reported, so nothing is raised and no flag is set. -/
theorem saeFormAlwaysCompletes : Obligations.SaeFormAlwaysCompletes := by
  intro s d m src imm hfeat hos hts
  have hrun : Runnable s (.evex512RegSae d m src imm) := ⟨by simpa [formAvailable, hos] using hfeat, hts⟩
  obtain ⟨t, hx, hen, -, -, hmxcsr, hrip⟩ :=
    registerFormsComplete (.evex512RegSae d m src imm) ⟨d, m, src, imm, 16, true, 7⟩ s rfl hrun rfl
  exact ⟨t, hx, hmxcsr.trans BitVec.or_zero, hrip, hen⟩

/-! ### The unmasked register forms as one concatenation (R65, R67) -/

/-- Without a mask every element counts for R82. -/
theorem enabledConds_unmasked (s : State) (src : VReg) (imm : Byte) (kl : Nat) :
    enabledConds s .unmasked src imm kl = (List.range kl).map fun j => (elementResult s src imm j).conds := by
  rw [enabledConds, show enabled s .unmasked = fun _ => true from rfl, List.filter_true]

/-- Without a mask every element is converted. -/
theorem conversions_unmasked (s : State) (src : VReg) (imm : Byte) (kl : Nat) :
    conversions s kl .unmasked src imm = ((List.range kl).map (elementResult s src imm)).map some := by
  rw [List.map_map]
  rfl

/-- Of converted elements the destination receives the halves. -/
theorem destHalves_map_some (m : Masking) (old : Zmm) (j : Nat) (rs : List Converted) :
    destHalves m old j (rs.map some) = rs.map (·.half) := by
  induction rs generalizing j with
  | nil => rfl
  | cons r rs ih => simp [destHalves, ih]

/-- Without a mask the result is the halves of the conversions, in order. -/
theorem RegForm.result_of_unmasked {f : RegForm} (hm : f.mask = .unmasked) (s : State) :
    f.result s = packHalves ((List.range f.elements).map fun j => (elementResult s f.src f.imm j).half) := by
  rw [RegForm.result, hm, conversions_unmasked, destHalves_map_some, List.map_map]
  rfl

/-- An unmasked form that may run completes with its halves packed, unless R82 raises over all of its elements. -/
theorem exec_unmasked_completes {i : Instr} {f : RegForm} {s : State} (hf : regForm i = some f) (hrun : Runnable s i)
    (hm : f.mask = .unmasked) (hsae : f.sae = false)
    (hquiet : (simdReport s.mxcsr ((List.range f.elements).map fun j => (elementResult s f.src f.imm j).conds)).raises
      = false) :
    ∃ t, exec i s = .next t ∧
      t.v[f.dst] = packHalves ((List.range f.elements).map fun j => (elementResult s f.src f.imm j).half) := by
  have hreport : (f.report s).raises = false := by
    simpa [RegForm.report, hsae, hm, enabledConds_unmasked] using hquiet
  exact ⟨f.after s, exec_regForm_completes hf hrun hreport, (f.after_dst s).trans (RegForm.result_of_unmasked hm s)⟩

/-- A half below a bit string, as `packHalves` puts it there. -/
theorem setWidth_append_half {w : Nat} (x : BitVec w) (h : Half) :
    (x ++ h).setWidth 512 = (x.setWidth 512 <<< 16) ||| h.setWidth 512 := by
  ext b hb
  by_cases hlt : b < 16
  · simp [BitVec.getLsbD_append, hlt]
  · have hz : h.getLsbD b = false := BitVec.getLsbD_of_ge h b (by omega)
    simp [BitVec.getLsbD_append, hlt, hz]

/-- Four packed halves are their concatenation, the first one lowest. -/
theorem packHalves_four (h₀ h₁ h₂ h₃ : Half) : packHalves [h₀, h₁, h₂, h₃] = 0#448 ++ h₃ ++ h₂ ++ h₁ ++ h₀ := by
  calc packHalves [h₀, h₁, h₂, h₃]
    _ = (0#448 ++ h₃ ++ h₂ ++ h₁ ++ h₀).setWidth 512 := by
      simp only [packHalves, setWidth_append_half, BitVec.setWidth_zero, BitVec.ofNat_eq_ofNat]
    _ = _ := BitVec.setWidth_eq _

/-- Eight packed halves are their concatenation, the first one lowest. -/
theorem packHalves_eight (h₀ h₁ h₂ h₃ h₄ h₅ h₆ h₇ : Half) :
    packHalves [h₀, h₁, h₂, h₃, h₄, h₅, h₆, h₇] =
      0#384 ++ h₇ ++ h₆ ++ h₅ ++ h₄ ++ h₃ ++ h₂ ++ h₁ ++ h₀ := by
  calc packHalves [h₀, h₁, h₂, h₃, h₄, h₅, h₆, h₇]
    _ = (0#384 ++ h₇ ++ h₆ ++ h₅ ++ h₄ ++ h₃ ++ h₂ ++ h₁ ++ h₀).setWidth 512 := by
      simp only [packHalves, setWidth_append_half, BitVec.setWidth_zero, BitVec.ofNat_eq_ofNat]
    _ = _ := BitVec.setWidth_eq _

/-- Settles O13: the form completes with its four halves packed. -/
theorem vex128RegWritesPseudocodeResult : Obligations.Vex128RegWritesPseudocodeResult := by
  intro s d src imm hf16c hos hts hquiet
  have hrun : Runnable s (.vex128Reg d src imm) := ⟨by simp [formAvailable, hf16c, hos], hts⟩
  obtain ⟨t, hx, hdst⟩ :=
    exec_unmasked_completes (f := ⟨d, .unmasked, src, imm, 4, false, 6⟩) rfl hrun rfl rfl hquiet
  exact ⟨t, hx, hdst.trans (packHalves_four ..)⟩

/-- Settles O14: the form completes with its eight halves packed. -/
theorem vex256RegWritesPseudocodeResult : Obligations.Vex256RegWritesPseudocodeResult := by
  intro s d src imm hf16c hos hts hquiet
  have hrun : Runnable s (.vex256Reg d src imm) := ⟨by simp [formAvailable, hf16c, hos], hts⟩
  obtain ⟨t, hx, hdst⟩ :=
    exec_unmasked_completes (f := ⟨d, .unmasked, src, imm, 8, false, 6⟩) rfl hrun rfl rfl hquiet
  exact ⟨t, hx, hdst.trans (packHalves_eight ..)⟩

/-! ### Where an element stands (R22, R63) -/

/-- The two bytes of a half, high before low, are the half (R22). -/
theorem high_append_low (h : Half) : h.extractLsb' 8 8 ++ h.extractLsb' 0 8 = h :=
  (BitVec.extractLsb'_append_extractLsb'_eq_extractLsb' rfl).trans BitVec.extractLsb'_eq_self

/-- Settles O18: a register's elements are read at their bits, and an element of memory is put together from its two
bytes, low byte first. -/
theorem elementsArePlacedInOrder : Obligations.ElementsArePlacedInOrder := by
  constructor
  · intro i f s t hf h
    obtain rfl := eq_after_of_exec_regForm hf h
    rw [f.after_dst]
    refine ⟨fun j hj hen => ?_, fun b hb => f.result_upper s hb⟩
    exact (RegForm.halfAt_result (regForm_elements_le hf) s hj).trans (if_pos hen)
  · intro i f s t hf h
    obtain ⟨-, -, hframe⟩ := memoryFormsFrame i f s t hf h
    refine ⟨fun j hj hen => ?_, fun a ha => hframe a ?_⟩
    · obtain ⟨-, rfl⟩ := exec_memForm_next hf h
      obtain ⟨hlo, hhi⟩ := Memory.read_writeElements_at _ s.mem (f.address s) j _
        (conversions_getElem?_of_enabled hj hen f.src f.imm)
      exact ⟨_, _, hlo, hhi, high_append_low _⟩
    · rintro ⟨j, hj, -, ha'⟩
      omega

end Sys2Proof.Machine

namespace Sys2Proof.Machine

/-! ### Runnable forms (R79, R80) -/

/-- Settles O23: after the form's predicate, and before anything else, both shared operations ask for `CR0_TS`. -/
theorem taskSwitchedRaisesNm : Obligations.TaskSwitchedRaisesNm := by
  intro i s ha hts
  obtain ⟨f, hf, -⟩ | ⟨f, hf, -⟩ := form_cases i
  · simpa [exec_regForm hf, ha, hts] using
      convertToRegister_cases (formAvailable s.cfg i) f.elements f.sae f.dst f.mask f.src f.imm f.length s
  · simpa [exec_memForm hf, ha, hts] using
      convertToMemory_cases (formAvailable s.cfg i) f.elements f.scale f.dst f.mask f.src f.imm f.length s

/-! ### All exceptions masked (R82) -/

/-- Neither phase raises when the five masks are set, whatever the conditions. -/
theorem simdReport_of_masked {mxcsr : BitVec 32} (hi : mxcsrIm mxcsr = true) (hd : mxcsrDm mxcsr = true)
    (ho : mxcsrOm mxcsr = true) (hu : mxcsrUm mxcsr = true) (hp : mxcsrPm mxcsr = true) (cs : List Conds) :
    (simdReport mxcsr cs).raises = false := by
  have hpre : (preReport mxcsr cs).raises = false := by simp [preReport, hi, hd]
  have hpost : (postReport mxcsr cs).raises = false := by simp [postReport, ho, hu, hp]
  simp [simdReport, hpre, hpost]

/-- Settles O20: no report raises, and an admitted form that reports nothing to raise completes. -/
theorem maskedExceptionsNeverStop : Obligations.MaskedExceptionsNeverStop := by
  intro i s hrun hadm hi hd ho hu hp
  have hquiet := simdReport_of_masked hi hd ho hu hp
  obtain ⟨f, hf, -⟩ | ⟨f, hf, -⟩ := form_cases i
  · have hreport : (f.report s).raises = false := by
      cases hsae : f.sae
      · simpa [RegForm.report, hsae] using hquiet _
      · rw [f.report_sae hsae]
    exact ⟨_, exec_regForm_completes hf hrun hreport⟩
  · exact ⟨_, (exec_memForm_next_iff hf).2 ⟨hrun, hadm f hf, hquiet _, rfl⟩⟩

/-! ### The memory faults (R81, R84) -/

/-- A memory form that may run takes the memory fault of its checked bytes. -/
theorem exec_memForm_storeFault {i : Instr} {f : MemForm} {s : State} {e : Exception} (hf : memForm i = some f)
    (hrun : Runnable s i) (he : storeFault s (stackBased f.dst) (f.checkedList s) = some e) :
    exec i s = takeException e s := by
  obtain ⟨ha, hts⟩ := hrun
  rw [MemForm.checkedList, MemForm.address] at he
  simpa [exec_memForm hf, ha, hts, he] using
    convertToMemory_cases (formAvailable s.cfg i) f.elements f.scale f.dst f.mask f.src f.imm f.length s

section
variable {s : State} {as : List Nat} {a : Nat}

/-- A byte past 2^64 comes first, whatever the base (log entry 13). -/
theorem storeFault_of_wraps (stack : Bool) (hmem : a ∈ as) (ha : 2 ^ 64 ≤ a) : storeFault s stack as = some .gp :=
  if_pos (List.any_eq_true.2 ⟨a, hmem, decide_eq_true ha⟩)

theorem storeFault_of_noncanonical (stack : Bool) (hlt : ∀ x ∈ as, x < 2 ^ 64) (hmem : a ∈ as)
    (ha : canonical s.cfg a = false) : storeFault s stack as = some (if stack then .ss else .gp) := by
  have hwrap : ¬(as.any fun x => decide (2 ^ 64 ≤ x)) = true := by simpa using hlt
  have hcan : (as.any fun x => !canonical s.cfg x) = true := List.any_eq_true.2 ⟨a, hmem, by simp [ha]⟩
  rw [storeFault, if_neg hwrap, if_pos hcan]

/-- Among canonical bytes in rising order the `#PF` is at the lowest that is not admitted. -/
theorem storeFault_of_unwritable (stack : Bool) (hrise : as.Pairwise (· < ·))
    (hcan : ∀ x ∈ as, canonical s.cfg x = true) (hmem : a ∈ as) (ha : writable s.cfg a = false)
    (hfirst : ∀ x ∈ as, x < a → writable s.cfg x = true) :
    storeFault s stack as = some (.pf (BitVec.ofNat 64 a)) := by
  have hwrap : ¬(as.any fun x => decide (2 ^ 64 ≤ x)) = true := by
    simpa using fun x hx => lt_of_canonical (hcan x hx)
  have hnon : ¬(as.any fun x => !canonical s.cfg x) = true := by simpa using hcan
  have hfind : (as.find? fun x => !writable s.cfg x) = some a := by
    obtain ⟨pre, post, rfl⟩ := List.append_of_mem hmem
    obtain ⟨-, -, hbelow⟩ := List.pairwise_append.1 hrise
    refine List.find?_eq_some_iff_append.2 ⟨by simp [ha], pre, post, rfl, fun x hx => ?_⟩
    simpa using hfirst x (List.mem_append_left _ hx) (hbelow x hx a List.mem_cons_self)
  rw [storeFault, if_neg hwrap, if_neg hnon, hfind, Option.map_some]

end

/-- The checked bytes stand in rising order (R31). -/
theorem checkedBytes_rising (suppress : Bool) (a : Nat) (ens : List Bool) :
    (checkedBytes suppress a ens).Pairwise (· < ·) := by
  induction ens generalizing a with
  | nil => exact List.Pairwise.nil
  | cons en ens ih =>
    have hlater : ∀ x ∈ checkedBytes suppress (a + 2) ens, a + 2 ≤ x := fun x hx => by
      obtain ⟨j, -, -, hj⟩ := (mem_checkedBytes ..).1 hx
      omega
    rw [checkedBytes]
    split
    · refine .cons (fun x hx => ?_) (.cons hlater (ih _))
      obtain rfl | hx := List.mem_cons.1 hx
      · exact Nat.lt_succ_self a
      · exact Nat.lt_of_succ_lt (hlater x hx)
    · exact ih _

/-- Settles O24: the two faults ahead of `#PF`, in the order of the memory check. -/
theorem nonCanonicalStoreRaisesSsOrGp : Obligations.NonCanonicalStoreRaisesSsOrGp := by
  intro i f s hf hrun
  simp only [MemForm.checks_iff]
  constructor
  · rintro ⟨a, hmem, ha⟩
    exact exec_memForm_storeFault hf hrun (storeFault_of_wraps _ hmem ha)
  · rintro hlt ⟨a, hmem, ha⟩
    rw [exec_memForm_storeFault hf hrun (storeFault_of_noncanonical _ hlt hmem ha)]
    split <;> rfl

/-- Settles O25: the checked bytes rise, so the first that is found not admitted is the lowest. -/
theorem unadmittedStoreRaisesPf : Obligations.UnadmittedStoreRaisesPf := by
  intro i f s a hf hrun hcan hmem ha hfirst
  simp only [MemForm.checks_iff] at hcan hmem hfirst
  exact ⟨_, exec_memForm_storeFault hf hrun
    (storeFault_of_unwritable _ (checkedBytes_rising ..) hcan hmem ha hfirst)⟩

/-! ### SIMD exceptions (R82, R83) -/

/-- A SIMD exception changes MXCSR and the counter alone, and MXCSR within the interval of R83 and U7. -/
theorem takeSimdException_between {r : Result} {s : State} {flags : BitVec 32}
    (hr : r = takeSimdException flags s) (hle : flags ||| fiveFlags = fiveFlags) :
    ∃ t : State, r = .fault (if s.cfg.osXmmExcpt then .xm t else .ud t) ∧
      t = { s with mxcsr := t.mxcsr, draws := t.draws } ∧
      BitsBetween (s.mxcsr ||| flags) t.mxcsr (s.mxcsr ||| fiveFlags) := by
  refine ⟨(s.setMxcsr (raisedMxcsr s flags)).drawn, ?_, rfl, raisedMxcsr_ge s flags, raisedMxcsr_le s hle⟩
  rw [hr, takeSimdException_eq]
  split <;> rfl

/-- Settles O26: a form whose report raises takes the SIMD exception with the report's flags. -/
theorem unmaskedConditionRaisesSimdException : Obligations.UnmaskedConditionRaisesSimdException :=
  ⟨fun _ f s hf hrun hr => takeSimdException_between (exec_regForm_raises hf hrun hr) (f.report_flags_le s),
    fun _ f s hf hrun hadm hr =>
      takeSimdException_between (exec_memForm_raises hf hrun hadm hr) (f.report_flags_le s)⟩

/-! ### Where a fault comes from (R79 to R85) -/

/-- The fault is that of an exception taken in `s` itself, or of a SIMD exception with some flags. -/
def TakenIn (s : State) (f : Fault) : Prop :=
  (∃ e, takeException e s = .fault f) ∨ ∃ flags, takeSimdException flags s = .fault f

theorem exec_fault_takenIn {i : Instr} {s : State} {f : Fault} (h : exec i s = .fault f) : TakenIn s f := by
  obtain ⟨r, hr, -⟩ | ⟨m, hm, -⟩ := form_cases i
  · rw [exec_regForm hr] at h
    obtain ⟨-, he⟩ | ⟨-, -, he⟩ | ⟨-, -, -, he⟩ | ⟨-, -, -, he⟩ :=
      convertToRegister_cases (formAvailable s.cfg i) r.elements r.sae r.dst r.mask r.src r.imm r.length s
    · exact .inl ⟨.ud, he.symm.trans h⟩
    · exact .inl ⟨.nm, he.symm.trans h⟩
    · exact .inr ⟨_, he.symm.trans h⟩
    · cases he.symm.trans h
  · rw [exec_memForm hm] at h
    obtain ⟨-, he⟩ | ⟨-, -, he⟩ | ⟨-, -, _, -, he⟩ | ⟨-, -, -, -, he⟩ | ⟨-, -, -, -, he⟩ :=
      convertToMemory_cases (formAvailable s.cfg i) m.elements m.scale m.dst m.mask m.src m.imm m.length s
    · exact .inl ⟨.ud, he.symm.trans h⟩
    · exact .inl ⟨.nm, he.symm.trans h⟩
    · exact .inl ⟨_, he.symm.trans h⟩
    · exact .inr ⟨_, he.symm.trans h⟩
    · cases he.symm.trans h

/-- A decoding failure that faults is `#UD` and changes nothing (R79). -/
theorem eq_ud_of_decodeFailure {e : DecodeError} {s : State} {f : Fault} (h : decodeFailure e s = .fault f) :
    f = .ud s := by
  cases e with
  | invalidOpcode why => exact (Host.Outcome.fault.inj h).symm
  | leftOutPrefix => cases h
  | notVcvtps2ph => cases h
  | truncated => cases h

theorem step_fault_takenIn {s : State} {f : Fault} (h : step s = .fault f) : TakenIn s f := by
  cases hd : decode (fetchWindow s) with
  | ok d => exact exec_fault_takenIn ((step_of_decode_ok hd).symm.trans h)
  | error e =>
    have hud := eq_ud_of_decodeFailure ((step_of_decode_error rfl hd).symm.trans h)
    exact .inl ⟨.ud, congrArg _ hud.symm⟩

/-- Of the exceptions taken in `s`, only `#PF` draws a free value. -/
theorem takeException_after {e : Exception} {s : State} {f : Fault} (h : takeException e s = .fault f) :
    f.after = if f.vector = 14 then s.drawn else s := by
  cases e <;> cases h <;> rfl

theorem takeSimdException_vector {flags : BitVec 32} {s : State} {f : Fault}
    (h : takeSimdException flags s = .fault f) : f.vector = if s.cfg.osXmmExcpt then 19 else 6 := by
  rw [takeSimdException_eq] at h
  cases h
  split <;> rfl

/-- A fault that is no SIMD exception by its vector leaves the state as it was, but for the free value of a `#PF`. -/
theorem TakenIn.after_eq {s : State} {f : Fault} (h : TakenIn s f)
    (hv : f.vector ≠ if s.cfg.osXmmExcpt then 19 else 6) : f.after = if f.vector = 14 then s.drawn else s := by
  obtain ⟨e, he⟩ | ⟨flags, hfl⟩ := h
  · exact takeException_after he
  · exact absurd (takeSimdException_vector hfl) hv

/-- Settles O28: the vector tells a SIMD exception from the others, which keep MXCSR. -/
theorem faultsArePrecise : Obligations.FaultsArePrecise := by
  intro s f h
  have hleft := step_fault_left h
  have hafter := (step_fault_takenIn h).after_eq
  refine ⟨?_, hleft.bitsBetween, fun hv => ?_, fun hv => ?_, fun hv hxm => ?_, fun e hd => ?_, fun i rest hd hun => ?_⟩
  · obtain ⟨fl, n, -, ht⟩ := hleft.eq_or_flags
    rw [ht]
  · rw [hafter (by rw [hv]; split <;> decide), if_pos hv, State.drawn_mxcsr]
  · have hne : f.vector ≠ 14 := by omega
    rw [hafter (by split <;> omega), if_neg hne]
  · rw [hafter (by simp [hv, hxm]), hv, if_neg (by decide)]
  · exact eq_ud_of_decodeFailure ((step_of_decode_error rfl hd).symm.trans h)
  · rw [step_of_decode_ok hd, absentFeatureRaisesUd i s hun] at h
    exact (Host.Outcome.fault.inj h).symm

end Sys2Proof.Machine

namespace Sys2Proof.Machine

/-! ### Reset (R93) -/

/-- Settles O33: the register files are replicated zeros, the rest is read off the record. -/
theorem resetValues : Obligations.ResetValues :=
  ⟨fun n => Vector.getElem_replicate n.isLt, fun n => Vector.getElem_replicate n.isLt, rfl, rfl, rfl⟩

/-- Settles O32: registers that hold 0 hold nothing in absent bits, and 1F80H lies in the lower half of MXCSR. -/
theorem resetMeetsInv : Obligations.ResetMeetsInv := by
  obtain ⟨hv, hk, hmxcsr, -, hmem⟩ := resetValues
  refine ⟨?wf, ?reserved, ⟨fun n b _ => ?absentBits, fun n _ => hv n⟩, fun n b _ => ?absentMaskBits⟩
  case wf => exact hmem ▸ Memory.wf_nil
  case reserved =>
    rw [hmxcsr]
    decide
  case absentBits => simp [hv n]
  case absentMaskBits => simp [hk n]

end Sys2Proof.Machine
